-- ==== Sys2Proof/Word.lean ====
section
/-! DEFINITION. The widths of the block's values (spec/10_state.md R28, R34; spec/30_encoding.md R70, R78). -/

namespace Sys2Proof

/-- An operation word, and the 32-bit value of an interface register (R28, R70). -/
abbrev Word := BitVec 32

/-- A data word, and the content of RESULT (R34, R42). -/
abbrev Half := BitVec 16

/-- A command byte (R78). -/
abbrev Byte := BitVec 8

end Sys2Proof
end

