-- ==== Sys2Proof/Config.lean ====
section
/-! DEFINITION. The implementation parameters of spec/00_scope.md R10, at the defaults this hardware takes (R9); those
the spec leaves OPEN are a record that is taken as an argument (R9); the free value of R146 is a constant with no body. -/

namespace Sys2Proof.Config

/-- `ADB-BITCODEC`, interface version 1 (R2). -/
def identifier : String := "ADB-BITCODEC"
def interfaceVersion : Nat := 1

/-- µs per tick (R10, R20). -/
def tickUs : Nat := 1
/-- The short phase of a bit cell, in ticks (R10, R120). -/
def tShort : Nat := 35
/-- The long phase of a bit cell, in ticks (R10, R120). -/
def tLong : Nat := 65
/-- The longest valid phase of a received bit (R10, R122). -/
def maxWait : Nat := 85
/-- The low of a bus reset (R10, R160). -/
def tReset : Nat := 3000
/-- The attention pulse (R10, R161). -/
def tAttn : Nat := 800
/-- The sync release (R10, R162). -/
def tSync : Nat := 70
/-- The fixed host-to-device gap (R10, R164). -/
def tTurn : Nat := 140
/-- The number of samples of the response poll (R10, R164). -/
def tPoll : Nat := 240
/-- The delay host software keeps between register-3 transactions (R10, R211). -/
def tInterop : Nat := 5000
/-- Data-word lengths (R10). -/
def wordLenMax : Nat := 16
def talkLen : Nat := 16
def listenLen : Nat := 16

/-- Field widths of the command byte and of the operation word (R10, R71, R78). -/
abbrev addrBits : Nat := 4
abbrev regselBits : Nat := 2
abbrev cmdopBits : Nat := 2

/-- The bus operation codes (R10, R76). -/
def cmdTalk : BitVec cmdopBits := 0b11#2
def cmdListen : BitVec cmdopBits := 0b10#2
def cmdFlush : BitVec cmdopBits := 0b00#2

/-- Width of the tick counter NOW (R10, R35). -/
def nowBits : Nat := 32

/-- The parameters the spec leaves OPEN: what depends on one takes them as an argument (R9, R10). -/
structure OpenParams where
  /-- `T_REINIT`, the device re-initialization time, in ticks (R252). -/
  tReinit : Nat
  /-- `BASE`, the host address of the register window, the platform's (R50). -/
  base : Nat
  deriving DecidableEq, Repr

/-- Where register 3 keeps its sub-fields: bit number of each field's lowest bit (R216). Host software only. -/
structure Reg3Layout where
  handler : Nat
  address : Nat
  serviceRequestEnable : Nat
  exceptionalEvent : Nat
  deriving DecidableEq, Repr

/-- `REG3_LAYOUT`, the §8 layout: handler id in bits 15:8 (R10, R216). -/
def reg3Layout : Reg3Layout :=
  { handler := 8, address := 4, serviceRequestEnable := 2, exceptionalEvent := 1 }

/-- The alternative value of `REG3_LAYOUT` that R216 records for real devices (93_implementation_defined.md I-G4). -/
def reg3LayoutRealDevices : Reg3Layout :=
  { handler := 0, address := 8, serviceRequestEnable := 13, exceptionalEvent := 14 }

/-- The k-th unspecified 16-bit word: what RESULT takes when DECODE_FRAME or TALK fails (R34, R146), "a draw, under
no law". No body: nothing can be proved of its value (log entry 4). -/
opaque freeWord : Nat → BitVec 16

end Sys2Proof.Config
end

