-- ==== Sys2Proof/Syntax.lean ====
section
/-! DEFINITION. The operations of the block: one constructor for each row of spec/opcode_table.json, with the operand
fields that row has (spec/30_encoding.md R71, R73, R75, R76, R84). -/

namespace Sys2Proof

/-- An operation, or a reserved encoding (R83). Fields an operation ignores (R74) are not operands. -/
inductive Instr
  /-- LINE_RELEASE, R101. -/
  | lineRelease
  /-- LINE_LOW, R102. -/
  | lineLow
  /-- LINE_READ, R103. -/
  | lineRead
  /-- WAIT n, R104: `n` = IMM16. -/
  | wait (n : BitVec 16)
  /-- ENCODE_BIT b, R121: `b` = IMM16[0]. -/
  | encodeBit (b : Bool)
  /-- DECODE_BIT, R123. -/
  | decodeBit
  /-- ENCODE_FRAME wd, n, R140: `lenm1` = n - 1, `wd` = IMM16. -/
  | encodeFrame (lenm1 : BitVec 4) (wd : BitVec 16)
  /-- DECODE_FRAME n, R141: `lenm1` = n - 1. -/
  | decodeFrame (lenm1 : BitVec 4)
  /-- RESET_BUS, R160. -/
  | resetBus
  /-- ATTENTION, R161. -/
  | attention
  /-- SYNC, R162. -/
  | sync
  /-- SEND_COMMAND c, R163: `c` = IMM16[7:0]. -/
  | sendCommand (c : BitVec 8)
  /-- TURNAROUND x, R164: `x` = IMM16[0]. -/
  | turnaround (x : Bool)
  /-- COMPOSE TALK, addr, reg, R191. -/
  | composeTalk (reg : BitVec 2) (addr : BitVec 4)
  /-- COMPOSE LISTEN, addr, reg, R191. -/
  | composeListen (reg : BitVec 2) (addr : BitVec 4)
  /-- COMPOSE FLUSH, addr, reg, R191. -/
  | composeFlush (reg : BitVec 2) (addr : BitVec 4)
  /-- TALK addr, reg, R192. -/
  | talk (reg : BitVec 2) (addr : BitVec 4)
  /-- LISTEN addr, reg, wd, R193. -/
  | listen (reg : BitVec 2) (addr : BitVec 4) (wd : BitVec 16)
  /-- FLUSH addr, reg, R194. -/
  | flush (reg : BitVec 2) (addr : BitVec 4)
  /-- Reserved: OPC 0x0, R84. -/
  | reservedOpc0
  /-- Reserved: OPC 0xE with the CMDOP that is no bus operation, R84. -/
  | reservedECmdop
  /-- Reserved: OPC 0xF with the CMDOP that is no bus operation, R84. -/
  | reservedFCmdop
  deriving DecidableEq, Repr

end Sys2Proof
end

