-- ==== Sys2Proof/WellFormed.lean ====
section
/-! DEFINITION. Which terms are well formed. An Instr's operand fields have exactly the widths of the operation word, so
the one thing left to check of it is that it is an operation and not a reserved encoding (spec/30_encoding.md R83, R84).
Assembly lines (R81) and pseudo-instructions (R82) carry numbers, and the assembler checks their ranges. -/

namespace Sys2Proof

/-- The word is an operation the block accepts, not a reserved encoding (R83, R84). -/
def Instr.wf : Instr → Bool
  | .lineRelease => true
  | .lineLow => true
  | .lineRead => true
  | .wait _ => true
  | .encodeBit _ => true
  | .decodeBit => true
  | .encodeFrame _ _ => true
  | .decodeFrame _ => true
  | .resetBus => true
  | .attention => true
  | .sync => true
  | .sendCommand _ => true
  | .turnaround _ => true
  | .composeTalk _ _ => true
  | .composeListen _ _ => true
  | .composeFlush _ _ => true
  | .talk _ _ => true
  | .listen _ _ _ => true
  | .flush _ _ => true
  | .reservedOpc0 => false
  | .reservedECmdop => false
  | .reservedFCmdop => false

/-- The three bus operations of §3, as COMPOSE and CMD write them (R81, R82). -/
inductive BusOp
  | talk | listen | flush
  deriving DecidableEq, Repr

/-- One line of assembly: the operations with the operands of R81, and the pseudo-instructions of R82. -/
inductive Asm
  | lineRelease
  | lineLow
  | lineRead
  | wait (n : Nat)
  | encodeBit (b : Nat)
  | decodeBit
  | encodeFrame (wd n : Nat)
  | decodeFrame (n : Nat)
  | resetBus
  | attention
  | sync
  | sendCommand (c : Nat)
  | turnaround (x : Nat)
  | compose (op : BusOp) (a r : Nat)
  | talk (a r : Nat)
  | listen (a r wd : Nat)
  | flush (a r : Nat)
  | lineHigh
  | serviceRequestWindow
  | cmd (op : BusOp) (a r : Nat)
  | encodeWord16 (wd : Nat)
  | decodeWord16
  | nop
  deriving DecidableEq, Repr

/-- A bus target: device address 0-15 and register selector 0-3 (R52, R81). -/
def targetInRange (a r : Nat) : Bool := a < 2 ^ Config.addrBits && r < 2 ^ Config.regselBits

/-- The operand ranges of R81; a line outside them is refused by the assembler. `ENCODE_FRAME wd, n` with `wd` at or
above `2^n` is accepted. -/
def Asm.wf : Asm → Bool
  | .lineRelease => true
  | .lineLow => true
  | .lineRead => true
  | .wait n => n ≤ 65535
  | .encodeBit b => b < 2
  | .decodeBit => true
  | .encodeFrame wd n => wd ≤ 0xFFFF && (1 ≤ n && n ≤ Config.wordLenMax)
  | .decodeFrame n => 1 ≤ n && n ≤ Config.wordLenMax
  | .resetBus => true
  | .attention => true
  | .sync => true
  | .sendCommand c => c ≤ 0xFF
  | .turnaround x => x < 2
  | .compose _ a r => targetInRange a r
  | .talk a r => targetInRange a r
  | .listen a r wd => targetInRange a r && wd ≤ 0xFFFF
  | .flush a r => targetInRange a r
  | .lineHigh => true
  | .serviceRequestWindow => true
  | .cmd _ a r => targetInRange a r
  | .encodeWord16 wd => wd ≤ 0xFFFF
  | .decodeWord16 => true
  | .nop => true

end Sys2Proof
end

