-- ==== Sys2Proof/Decode.lean ====
section
/-! DEFINITION. The operation word OP32: its fields, the decoder (total, spec/30_encoding.md R83), the encoder, the
opcode table's rows, the command byte (R78, R190), and the assembler (R81, R82). -/

namespace Sys2Proof

/-! ### Fields (R71) -/

/-- OPC, bits 31:28. -/
def opc (w : Word) : BitVec 4 := w.extractLsb' 28 4
/-- CMDOP, bits 27:26. -/
def cmdop (w : Word) : BitVec Config.cmdopBits := w.extractLsb' 26 Config.cmdopBits
/-- REG, bits 25:24. -/
def regField (w : Word) : BitVec Config.regselBits := w.extractLsb' 24 Config.regselBits
/-- ADDR, bits 23:20. -/
def addrField (w : Word) : BitVec Config.addrBits := w.extractLsb' 20 Config.addrBits
/-- LENM1, bits 19:16. -/
def lenm1Field (w : Word) : BitVec 4 := w.extractLsb' 16 4
/-- IMM16, bits 15:0. -/
def imm16 (w : Word) : BitVec 16 := w.extractLsb' 0 16

/-! ### Decoder (R75, R76, R83, R84) -/

/-- OPC 0xE: COMPOSE by CMDOP, or reserved (R76). -/
def decodeCompose (w : Word) : Instr :=
  if cmdop w = Config.cmdTalk then .composeTalk (regField w) (addrField w)
  else if cmdop w = Config.cmdListen then .composeListen (regField w) (addrField w)
  else if cmdop w = Config.cmdFlush then .composeFlush (regField w) (addrField w)
  else .reservedECmdop

/-- OPC 0xF: TALK, LISTEN or FLUSH by CMDOP, or reserved (R76). -/
def decodeTransaction (w : Word) : Instr :=
  if cmdop w = Config.cmdTalk then .talk (regField w) (addrField w)
  else if cmdop w = Config.cmdListen then .listen (regField w) (addrField w) (imm16 w)
  else if cmdop w = Config.cmdFlush then .flush (regField w) (addrField w)
  else .reservedFCmdop

/-- Every 32-bit value is exactly one operation or one reserved encoding (R83). -/
def decode (w : Word) : Instr :=
  match (opc w).toNat with
  | 0x1 => .lineRelease
  | 0x2 => .lineLow
  | 0x3 => .lineRead
  | 0x4 => .wait (imm16 w)
  | 0x5 => .encodeBit ((imm16 w).getLsbD 0)
  | 0x6 => .decodeBit
  | 0x7 => .encodeFrame (lenm1Field w) (imm16 w)
  | 0x8 => .decodeFrame (lenm1Field w)
  | 0x9 => .resetBus
  | 0xA => .attention
  | 0xB => .sync
  | 0xC => .sendCommand ((imm16 w).extractLsb' 0 8)
  | 0xD => .turnaround ((imm16 w).getLsbD 0)
  | 0xE => decodeCompose w
  | 0xF => decodeTransaction w
  | _ => .reservedOpc0          -- OPC 0x0, the one value of the 4-bit field left (R84)

/-- The decoder on a row of spec/opcode_table.json: an operation word of `nbits` bits, the bits above them 0. -/
def decodeTableWord (nbits w : Nat) : Option Instr := some (decode (BitVec.ofNat 32 (w % 2 ^ nbits)))

/-! ### Encoder (R71, R75, R76) -/

/-- A field's value at its place in the word. -/
def place {k : Nat} (v : BitVec k) (lo : Nat) : Word := v.setWidth 32 <<< lo

/-- The word with these six fields (R71). -/
def pack (o : BitVec 4) (c : BitVec 2) (r : BitVec 2) (a : BitVec 4) (l : BitVec 4) (imm : BitVec 16) : Word :=
  place o 28 ||| place c 26 ||| place r 24 ||| place a 20 ||| place l 16 ||| place imm 0

/-- A word with an opcode and an immediate, every other field 0 (R74). -/
def packImm (o : BitVec 4) (imm : BitVec 16) : Word := pack o 0 0 0 0 imm

/-- A COMPOSE or transaction word (R71, R76). -/
def packBus (o : BitVec 4) (c : BitVec 2) (r : BitVec 2) (a : BitVec 4) (imm : BitVec 16) : Word := pack o c r a 0 imm

/-- The word an assembler writes for the operation, ignored fields 0 (R74); for a reserved encoding, the word of its
class whose other fields are 0 (R84). -/
def encode : Instr → Word
  | .lineRelease => packImm 0x1#4 0
  | .lineLow => packImm 0x2#4 0
  | .lineRead => packImm 0x3#4 0
  | .wait n => packImm 0x4#4 n
  | .encodeBit b => packImm 0x5#4 ((BitVec.ofBool b).setWidth 16)
  | .decodeBit => packImm 0x6#4 0
  | .encodeFrame lenm1 wd => pack 0x7#4 0 0 0 lenm1 wd
  | .decodeFrame lenm1 => pack 0x8#4 0 0 0 lenm1 0
  | .resetBus => packImm 0x9#4 0
  | .attention => packImm 0xA#4 0
  | .sync => packImm 0xB#4 0
  | .sendCommand c => packImm 0xC#4 (c.setWidth 16)
  | .turnaround x => packImm 0xD#4 ((BitVec.ofBool x).setWidth 16)
  | .composeTalk reg addr => packBus 0xE#4 Config.cmdTalk reg addr 0
  | .composeListen reg addr => packBus 0xE#4 Config.cmdListen reg addr 0
  | .composeFlush reg addr => packBus 0xE#4 Config.cmdFlush reg addr 0
  | .talk reg addr => packBus 0xF#4 Config.cmdTalk reg addr 0
  | .listen reg addr wd => packBus 0xF#4 Config.cmdListen reg addr wd
  | .flush reg addr => packBus 0xF#4 Config.cmdFlush reg addr 0
  | .reservedOpc0 => packImm 0x0#4 0
  | .reservedECmdop => packBus 0xE#4 0b01#2 0 0 0
  | .reservedFCmdop => packBus 0xF#4 0b01#2 0 0 0

/-! ### The opcode table (spec/opcode_table.json) -/

/-- The operation's row: the bits that are fixed, and their values. -/
def tableRow : Instr → Word × Word
  | .lineRelease => (0xF0000000#32, 0x10000000#32)
  | .lineLow => (0xF0000000#32, 0x20000000#32)
  | .lineRead => (0xF0000000#32, 0x30000000#32)
  | .wait _ => (0xF0000000#32, 0x40000000#32)
  | .encodeBit _ => (0xF0000000#32, 0x50000000#32)
  | .decodeBit => (0xF0000000#32, 0x60000000#32)
  | .encodeFrame _ _ => (0xF0000000#32, 0x70000000#32)
  | .decodeFrame _ => (0xF0000000#32, 0x80000000#32)
  | .resetBus => (0xF0000000#32, 0x90000000#32)
  | .attention => (0xF0000000#32, 0xA0000000#32)
  | .sync => (0xF0000000#32, 0xB0000000#32)
  | .sendCommand _ => (0xF0000000#32, 0xC0000000#32)
  | .turnaround _ => (0xF0000000#32, 0xD0000000#32)
  | .composeTalk _ _ => (0xFC000000#32, 0xEC000000#32)
  | .composeListen _ _ => (0xFC000000#32, 0xE8000000#32)
  | .composeFlush _ _ => (0xFC000000#32, 0xE0000000#32)
  | .talk _ _ => (0xFC000000#32, 0xFC000000#32)
  | .listen _ _ _ => (0xFC000000#32, 0xF8000000#32)
  | .flush _ _ => (0xFC000000#32, 0xF0000000#32)
  | .reservedOpc0 => (0xF0000000#32, 0x00000000#32)
  | .reservedECmdop => (0xFC000000#32, 0xE4000000#32)
  | .reservedFCmdop => (0xFC000000#32, 0xF4000000#32)

/-- The word lies in the operation's row of the table. -/
def inRow (w : Word) (i : Instr) : Bool := w &&& (tableRow i).1 == (tableRow i).2

/-! ### The command byte (R78, R190) -/

/-- `compose(op, a, r)` = {a[3:0], op[1:0], r[1:0]} (R190). -/
def composeByte (op : BitVec Config.cmdopBits) (a : BitVec Config.addrBits) (r : BitVec Config.regselBits) : Byte :=
  (a.setWidth 8 <<< (Config.cmdopBits + Config.regselBits)) ||| (op.setWidth 8 <<< Config.regselBits) ||| r.setWidth 8

/-- `code(op)` of R82. -/
def busOpCode : BusOp → BitVec Config.cmdopBits
  | .talk => Config.cmdTalk
  | .listen => Config.cmdListen
  | .flush => Config.cmdFlush

/-! ### The assembler (R81, R82) -/

/-- The operation of a line, a pseudo-instruction expanded (R82). -/
def Asm.toInstr : Asm → Instr
  | .lineRelease => .lineRelease
  | .lineLow => .lineLow
  | .lineRead => .lineRead
  | .wait n => .wait (BitVec.ofNat 16 n)
  | .encodeBit b => .encodeBit (b == 1)
  | .decodeBit => .decodeBit
  | .encodeFrame wd n => .encodeFrame (BitVec.ofNat 4 (n - 1)) (BitVec.ofNat 16 wd)
  | .decodeFrame n => .decodeFrame (BitVec.ofNat 4 (n - 1))
  | .resetBus => .resetBus
  | .attention => .attention
  | .sync => .sync
  | .sendCommand c => .sendCommand (BitVec.ofNat 8 c)
  | .turnaround x => .turnaround (x == 1)
  | .compose .talk a r => .composeTalk (BitVec.ofNat 2 r) (BitVec.ofNat 4 a)
  | .compose .listen a r => .composeListen (BitVec.ofNat 2 r) (BitVec.ofNat 4 a)
  | .compose .flush a r => .composeFlush (BitVec.ofNat 2 r) (BitVec.ofNat 4 a)
  | .talk a r => .talk (BitVec.ofNat 2 r) (BitVec.ofNat 4 a)
  | .listen a r wd => .listen (BitVec.ofNat 2 r) (BitVec.ofNat 4 a) (BitVec.ofNat 16 wd)
  | .flush a r => .flush (BitVec.ofNat 2 r) (BitVec.ofNat 4 a)
  | .lineHigh => .lineRelease
  | .serviceRequestWindow => .attention
  | .cmd op a r => .sendCommand (composeByte (busOpCode op) (BitVec.ofNat 4 a) (BitVec.ofNat 2 r))
  | .encodeWord16 wd => .encodeFrame 15#4 (BitVec.ofNat 16 wd)
  | .decodeWord16 => .decodeFrame 15#4
  | .nop => .wait 0#16

/-- The word of a line; none when an operand is out of its range, for then the assembler refuses the line (R81). -/
def assemble (a : Asm) : Option Word := if a.wf then some (encode a.toInstr) else none

end Sys2Proof
end

