-- ==== Sys2Proof/Machine/State.lean ====
section
/-! DEFINITION. The state of the ADB bit-codec block (spec/10_state.md), of its environment's inputs, and of what a
claim observes (spec/00_scope.md R19). INVENTORY.md lists every field with its rule and reset value. -/

namespace Sys2Proof.Machine

/-- `DRV`: the open-drain driver releases the line or pulls it low; no state drives it high (R22). -/
inductive Drive
  | rel | low
  deriving DecidableEq, Repr

/-- `L(t)`: the resolved line (R21, R24). -/
inductive Level
  | low | high
  deriving DecidableEq, Repr

/-- A Logical Bit, "one of {0, 1, ERROR}" (R31, R42). -/
inductive LogicalBit
  | zero | one | error
  deriving DecidableEq, Repr

/-- ERRKIND (R32). -/
inductive ErrKind
  | none | bitTimeout | noStart | dataTimeout
  deriving DecidableEq, Repr

/-- What a decoded bit is for: DECODE_BIT's own bit, or a frame's start, data or stop bit (R123, R141). -/
inductive BitRole
  | alone | start | data | stop
  deriving DecidableEq, Repr

/-- One phase of a running operation. The driver does not change inside a phase. -/
inductive Phase
  /-- A sub-operation of a composite operation starts here (R37, R166); no time passes. -/
  | sub
  /-- DRV takes `d` and holds it for `n` ticks; nothing is sampled. -/
  | drive (d : Drive) (n : Nat)
  /-- The driver holds for `n` ticks; nothing is sampled (R104). -/
  | wait (n : Nat)
  /-- One sample of the line into the accumulator (R103). -/
  | sample
  /-- Up to `n` samples, until the first LOW one (R164). -/
  | poll (n : Nat)
  /-- The low phase of a received bit is measured (R122, R123). -/
  | low
  /-- The high phase of a received bit is measured, and the bit decided (R122, R123). -/
  | high (role : BitRole)
  deriving DecidableEq, Repr

/-- What an operation reports at its end tick (R41 and the operation rules). -/
inductive Verdict
  /-- The default outputs; RESULT unchanged (R41). -/
  | plain
  /-- The default outputs, and RESULT takes the accumulator (R34). -/
  | word
  /-- The default outputs, LAST_RESET and RSTV (R36, R160). -/
  | busReset
  /-- DECODE_BIT's logical bit (R123). -/
  | bit (v : LogicalBit)
  /-- A frame whose start bit was not 1 (R142). -/
  | noStart
  /-- A frame with a data bit that was ERROR (R143). -/
  | dataTimeout
  deriving DecidableEq, Repr

/-- The sequencer's hidden state while an operation runs (R37). The accepted word is OPWORD, which no later write
changes while BUSY (R29). -/
structure Exec where
  /-- Start tick `s`. -/
  start : Nat
  /-- How many sub-operations of a composite operation have begun. -/
  index : Nat
  /-- Start tick of the current sub-operation. -/
  subStart : Nat
  /-- The tick the current phase began: a phase's elapsed count is the current tick less this. -/
  phaseStart : Nat
  /-- The low-phase duration `a` of the bit being received, none before it is measured or when it timed out. -/
  low : Option Nat
  /-- Index of the next data bit of a received frame. -/
  bitIndex : Nat
  /-- The 16-bit shift or accumulator register. -/
  acc : Half
  /-- What the operation reports if it does not fail. -/
  ending : Verdict
  /-- The phases left, the current one first. -/
  todo : List Phase
  deriving DecidableEq, Repr

/-- The sequencer mode (R37). -/
inductive Seq
  | idle
  | exec (x : Exec)
  deriving DecidableEq, Repr

/-- A host access's width; the block takes 32-bit accesses only (R54). -/
inductive Width
  | byte | half | word
  deriving DecidableEq, Repr

/-- A host access at a byte offset of the 32-byte register window (R14, R50). -/
inductive Access
  | read (width : Width) (offset : BitVec 5)
  | write (width : Width) (offset : BitVec 5) (value : Word)
  deriving DecidableEq, Repr

/-- What the outside world does to the block: host accesses (R40), and the platform's reset input (R250). -/
inductive Event
  | access (a : Access)
  | resetAssert
  | resetRelease
  deriving DecidableEq, Repr

/-- An event and its tick. One whose tick has passed happens at the present tick. -/
structure HostEvent where
  tick : Nat
  event : Event
  deriving DecidableEq, Repr

/-- A tick interval `[first, last)` in which some device pulls the line low. -/
structure Pull where
  first : Nat
  last : Nat
  deriving DecidableEq, Repr

/-- The driver took this value at this tick. -/
structure DriveChange where
  tick : Nat
  drive : Drive
  deriving DecidableEq, Repr

/-- What a host read returned. -/
structure ReadBack where
  tick : Nat
  offset : BitVec 5
  value : Word
  deriving DecidableEq, Repr

/-- The sticky host errors (R33). -/
inductive HostError
  | ovr | ill
  deriving DecidableEq, Repr

/-- A host error and the tick it was flagged. -/
structure ErrorRecord where
  tick : Nat
  error : HostError
  deriving DecidableEq, Repr

/-- The machine. -/
structure State where
  /-- The tick now. It goes on over a block reset; the spec's `t` is this less `epoch` (R20, R250). -/
  tick : Nat
  /-- The tick at which the spec's tick count was last 0 (R35, R250). -/
  epoch : Nat
  /-- The block's reset input is asserted (R250). -/
  inReset : Bool
  /-- `DRV` now (R22). -/
  drv : Drive
  /-- OPWORD (R29). -/
  opword : Word
  /-- STATUS.OK (R30). -/
  ok : Bool
  /-- STATUS.BITVAL (R31). -/
  bitval : LogicalBit
  /-- STATUS.ERRKIND (R32). -/
  errkind : ErrKind
  /-- STATUS.OVR (R33). -/
  ovr : Bool
  /-- STATUS.ILL (R33). -/
  ill : Bool
  /-- STATUS.RSTV (R36). -/
  rstv : Bool
  /-- RESULT[15:0] (R34). -/
  result : Half
  /-- LAST_RESET (R36). -/
  lastReset : Word
  /-- The sequencer (R37). -/
  seq : Seq
  /-- Input: the device trace `DEV`, a draw under no law (R23). -/
  dev : List Pull
  /-- Input: the host's accesses and the reset input, in program order; its ticks are draws (R40, R61). -/
  host : List HostEvent
  /-- Observation: the driver trace `DRV`, its changes newest first (R19). -/
  wave : List DriveChange
  /-- Observation: what host reads returned, newest first (R55). -/
  reads : List ReadBack
  /-- Observation: the host errors flagged, newest first (R19, R232, R233). -/
  errors : List ErrorRecord
  /-- Observation: the tick at which the last bus reset of RESET_BUS ended. The devices' re-initialization time runs from
  it, so a block reset, which clears RSTV and LAST_RESET, leaves it (R251, R252). -/
  busResetEnd : Option Nat
  /-- The model's own: how many free words were drawn (R146, log entry 4). -/
  draws : Nat
  deriving DecidableEq, Repr

/-- Right after block reset, at tick 0 (R39, R250); the inputs and observations empty (log entries 1 to 4). -/
def State.reset : State where
  tick := 0
  epoch := 0
  inReset := false
  drv := .rel
  opword := 0x00000000#32
  ok := false
  bitval := .zero
  errkind := .none
  ovr := false
  ill := false
  rstv := false
  result := 0x0000#16
  lastReset := 0x00000000#32
  seq := .idle
  dev := []
  host := []
  wave := []
  reads := []
  errors := []
  busResetEnd := none
  draws := 0

/-- The faults of a step: none. "No operation and no host access causes a trap, exception or jump" (R230), so nothing
raises one, and a run cannot end in a fault; that is the spec's own word, neither safe nor unsafe. -/
inductive Fault
  deriving DecidableEq, Repr

/-- Why the model has no transition. -/
inductive Refusal
  /-- Raised by exec's arm of an instruction with no meaning yet; safe. No arm raises it. -/
  | notModelled (mnemonic : String)
  /-- Raised by a host access of a width other than 32 bits: "A model refuses an access of another width" (R54,
  93_implementation_defined.md I-U6); safe. -/
  | accessWidth
  /-- Raised by a host access at an offset that is no multiple of 4: "or a misaligned access" (R54, I-U6); safe. -/
  | accessMisaligned
  deriving DecidableEq, Repr

end Sys2Proof.Machine
end

