-- ==== Sys2Proof/Machine/Operands.lean ====
section
/-! DEFINITION. Operand forms and the order of bits on the line (spec/30_encoding.md R72, R78, R79; spec/20_memory.md
R59, R60; spec/43_frame_codec.md R144). -/

namespace Sys2Proof.Machine

/-- `LEN = LENM1 + 1`, 1 to 16 (R72). -/
def frameLen (lenm1 : BitVec 4) : Nat := lenm1.toNat + 1

/-- Bits `n-1`, ..., 0 of `v`, the most significant first (R59). -/
def msbBits {k : Nat} : Nat → BitVec k → List Bool
  | 0, _ => []
  | n + 1, v => v.getLsbD n :: msbBits n v

/-- The `n + 2` bits of a data frame: start 1, data MSB first, stop 0 (R79). -/
def frameBits (wd : Half) (n : Nat) : List Bool := true :: (msbBits n wd ++ [false])

/-- The bits of a command: the byte MSB first, then the trailing 0 (R60, R80, R163). -/
def commandBits (c : Byte) : List Bool := msbBits 8 c ++ [false]

/-- The low phase of a bit cell, in ticks (R120). -/
def lowTicks (b : Bool) : Nat := if b then Config.tShort else Config.tLong

/-- The high phase of a bit cell, in ticks (R120). -/
def highTicks (b : Bool) : Nat := if b then Config.tLong else Config.tShort

/-- One more data bit into the accumulator: `((acc << 1) | v) mod 2^16` (R141, R144). -/
def shiftIn (acc : Half) (b : Bool) : Half := (acc <<< 1) ||| (BitVec.ofBool b).setWidth 16

/-- A line sample as a result: 1 for HIGH, 0 for LOW (R103). -/
def levelWord : Level → Half
  | .high => 1#16
  | .low => 0#16

/-- `1 if a < b else 0` (R123). -/
def compareBit (a b : Nat) : LogicalBit := if a < b then .one else .zero

/-- The logical bit with this value. -/
def logicalBit (b : Bool) : LogicalBit := if b then .one else .zero

/-- The command byte zero-extended into RESULT (R191). -/
def byteWord (c : Byte) : Half := c.setWidth 16

end Sys2Proof.Machine
end

