-- ==== Sys2Proof/Machine/Flags.lean ====
section
/-! DEFINITION. STATUS: its word (spec/10_state.md R30 to R33), and the outputs an operation's verdict gives
(R41 and the operation rules). -/

namespace Sys2Proof.Machine

/-- BITVAL's code (R31). -/
def LogicalBit.code : LogicalBit → BitVec 2
  | .zero => 0b00#2
  | .one => 0b01#2
  | .error => 0b10#2

/-- ERRKIND's code (R32). -/
def ErrKind.code : ErrKind → BitVec 3
  | .none => 0#3
  | .bitTimeout => 1#3
  | .noStart => 2#3
  | .dataTimeout => 3#3

/-- OK at the end tick. -/
def Verdict.ok : Verdict → Bool
  | .plain => true
  | .word => true
  | .busReset => true
  | .bit v => v != .error
  | .noStart => false
  | .dataTimeout => false

/-- BITVAL at the end tick: DECODE_BIT's bit, 0b00 after every other operation (R31). -/
def Verdict.bitval : Verdict → LogicalBit
  | .plain => .zero
  | .word => .zero
  | .busReset => .zero
  | .bit v => v
  | .noStart => .zero
  | .dataTimeout => .zero

/-- ERRKIND at the end tick (R32). -/
def Verdict.errkind : Verdict → ErrKind
  | .plain => .none
  | .word => .none
  | .busReset => .none
  | .bit v => if v = .error then .bitTimeout else .none
  | .noStart => .noStart
  | .dataTimeout => .dataTimeout

/-- The verdict draws a free word into RESULT (R34, R146). -/
def Verdict.failsFrame : Verdict → Bool
  | .plain => false
  | .word => false
  | .busReset => false
  | .bit _ => false
  | .noStart => true
  | .dataTimeout => true

/-- RESULT at the end tick (R34, R146): the accumulator, a free word after a failed frame, or unchanged. -/
def Verdict.result (v : Verdict) (acc : Half) (old : Half) (draws : Nat) : Half :=
  match v with
  | .plain => old
  | .word => acc
  | .busReset => old
  | .bit _ => old
  | .noStart => Config.freeWord draws
  | .dataTimeout => Config.freeWord draws

/-- BUSY: an accepted operation has not reached its end tick (R30, R40). -/
def State.busy (s : State) : Bool := s.seq != .idle

/-- Some device pulls low at tick `t` (R23). -/
def devLow (dev : List Pull) (t : Nat) : Bool := dev.any fun p => decide (p.first ≤ t) && decide (t < p.last)

/-- Line resolution, wired-AND, in the same tick (R24). -/
def resolve (d : Drive) (pulled : Bool) : Level :=
  match d with
  | .low => .low
  | .rel => if pulled then .low else .high

/-- `L(t)` while the driver keeps the value it has now (R24, R25). -/
def State.lineAt (s : State) (t : Nat) : Level := resolve s.drv (devLow s.dev t)

/-- STATUS.LINE: the live sample of this tick (R30). -/
def State.line (s : State) : Level := s.lineAt s.tick

/-- Bit `n` of a word whose other bits are 0. -/
def bitAt (b : Bool) (n : Nat) : Word := place (BitVec.ofBool b) n

/-- The STATUS word (R30). Bits 7, 15:11 and 31:18 are reserved and read 0. -/
def State.status (s : State) : Word :=
  bitAt s.busy 0 ||| bitAt s.ok 1 ||| place s.bitval.code 2 ||| place s.errkind.code 4 |||
  bitAt s.ovr 8 ||| bitAt s.ill 9 ||| bitAt s.rstv 10 |||
  bitAt (s.line == .high) 16 ||| bitAt (s.drv == .low) 17

/-- NOW at tick `t`: the count of ticks since the block reset, modulo 2^32 (R35). -/
def State.nowAt (s : State) (t : Nat) : Word := BitVec.ofNat 32 ((t - s.epoch) % 2 ^ Config.nowBits)

/-- The NOW register (R35); 0 while the reset input is asserted (R250, log entry 6). -/
def State.now (s : State) : Word := if s.inReset then 0#32 else s.nowAt s.tick

/-- A STATUS write clears OVR where bit 8 is 1 and ILL where bit 9 is 1; other bits are ignored (R30). -/
def State.clearFlags (v : Word) (s : State) : State :=
  { s with ovr := s.ovr && !v.getLsbD 8, ill := s.ill && !v.getLsbD 9 }

end Sys2Proof.Machine
end

