-- ==== Sys2Proof/Machine/Ops.lean ====
section
/-! DEFINITION. The shared operations: the driver, phase measurement, the sequencer that runs an operation's phases
(spec/10_state.md R37, R40, R41; spec/44_bus_sequencer.md R166), the recording of host errors, and block reset. The
block has no traps (spec/60_exceptions.md R230, R237): the one thing an error does is `flagIll` or `flagOvr`. -/

namespace Sys2Proof.Machine

/-! ### Host errors (R232, R233) -/

/-- `flag OVR`. -/
def State.flagOvr (s : State) : State :=
  { s with ovr := true, errors := { tick := s.tick, error := .ovr } :: s.errors }

/-- `flag ILL`. -/
def State.flagIll (s : State) : State :=
  { s with ill := true, errors := { tick := s.tick, error := .ill } :: s.errors }

/-! ### The driver (R22) -/

/-- `DRV(t) <- d`; the trace records a change. -/
def State.setDrv (t : Nat) (d : Drive) (s : State) : State :=
  { s with drv := d, wave := if s.drv = d then s.wave else { tick := t, drive := d } :: s.wave }

/-- `DRV(t)` in a trace: the newest change at or before `t`, REL before the first (R22). -/
def driveAt : List DriveChange → Nat → Drive
  | [], _ => .rel
  | c :: cs, t => if c.tick ≤ t then c.drive else driveAt cs t

/-- `DRV(t)` for a tick up to now (R13, R19). -/
def State.drvAt (s : State) (t : Nat) : Drive := driveAt s.wave t

/-! ### Sampling (R25, R122, R164) -/

/-- The least `j`, from `j` on and among `n`, with `f j`. -/
def firstAt (f : Nat → Bool) : Nat → Nat → Option Nat
  | 0, _ => none
  | n + 1, j => if f j then some j else firstAt f n (j + 1)

/-- `measure(p, V)`: how long the line stays at `v` from tick `p`; none for TIMEOUT (R122). -/
def State.measure (s : State) (p : Nat) (v : Level) : Option Nat :=
  firstAt (fun j => s.lineAt (p + j) != v) (Config.maxWait + 1) 0

/-- The first LOW of `n` samples from tick `p` (R164). -/
def State.pollLow (s : State) (p n : Nat) : Option Nat :=
  firstAt (fun j => s.lineAt (p + j) == .low) n 0

/-! ### The phases of an operation -/

/-- How many ticks a phase that begins at `x.phaseStart` lasts. -/
def phaseTicks (p : Phase) (x : Exec) (s : State) : Nat :=
  match p with
  | .sub => 0
  | .drive _ n => n
  | .wait n => n
  | .sample => 0
  | .poll n => (s.pollLow x.phaseStart n).getD n
  | .low => (s.measure x.phaseStart .low).getD Config.maxWait
  | .high _ => match x.low with
    | none => 0
    | some _ => (s.measure x.phaseStart .high).getD Config.maxWait

/-- The tick a phase ends. -/
def phaseEnd (p : Phase) (x : Exec) (s : State) : Nat := x.phaseStart + phaseTicks p x s

/-- The driver at a phase's first tick: only a `drive` phase changes it (R106, R124). -/
def beginPhase (p : Phase) (x : Exec) (s : State) : State :=
  match p with
  | .sub => s
  | .drive d _ => s.setDrv x.phaseStart d
  | .wait _ => s
  | .sample => s
  | .poll _ => s
  | .low => s
  | .high _ => s

/-- The logical bit of a cell whose low phase took `low` ticks and whose high phase took `high`, none where the phase
timed out (R123). -/
def cellBit (low high : Option Nat) : LogicalBit :=
  match low, high with
  | some a, some b => compareBit a b
  | some _, none => .error
  | none, _ => .error

/-- What a decoded bit does: DECODE_BIT reports it (R123); a start bit must be 1 (R142) and clears the accumulator; an
ERROR data bit fails the frame (R143), any other is shifted in (R144); a stop bit is discarded (R145). An answer `inl`
ends the operation. -/
def takeBit (role : BitRole) (v : LogicalBit) (x : Exec) : Verdict ⊕ Exec :=
  match role with
  | .alone => .inl (.bit v)
  | .start => if v = .one then .inr { x with acc := 0#16, bitIndex := 0 } else .inl .noStart
  | .data =>
    if v = .error then .inl .dataTimeout
    else .inr { x with acc := shiftIn x.acc (v = .one), bitIndex := x.bitIndex + 1 }
  | .stop => .inr x

/-- What a phase that ends at tick `e` leaves in the sequencer; `inl` ends the operation. -/
def endPhase (p : Phase) (x : Exec) (s : State) : Verdict ⊕ Exec :=
  match p with
  | .sub => .inr { x with index := x.index + 1, subStart := x.phaseStart }
  | .drive _ _ => .inr x
  | .wait _ => .inr x
  | .sample => .inr { x with acc := levelWord (s.lineAt x.phaseStart) }
  | .poll n => .inr { x with acc := if (s.pollLow x.phaseStart n).isSome then 1#16 else 0#16 }
  | .low => .inr { x with low := s.measure x.phaseStart .low }
  | .high role =>
    takeBit role (cellBit x.low (s.measure x.phaseStart .high)) { x with low := none }

/-! ### Completion (R41) -/

/-- All outputs take their new values together at the end tick `e`, and BUSY becomes 0 (R41). -/
def commit (v : Verdict) (acc : Half) (e : Nat) (s : State) : State :=
  { s with
    tick := e
    seq := .idle
    ok := v.ok
    bitval := v.bitval
    errkind := v.errkind
    result := v.result acc s.result s.draws
    draws := if v.failsFrame then s.draws + 1 else s.draws
    lastReset := if v = .busReset then s.nowAt e else s.lastReset
    rstv := s.rstv || v = .busReset
    busResetEnd := if v = .busReset then some e else s.busResetEnd }

/-! ### The sequencer -/

/-- The next host event comes before tick `e`. At `e` itself the block acts first (R61). -/
def State.hostBefore (s : State) (e : Nat) : Bool :=
  match s.host with
  | [] => false
  | ev :: _ => ev.tick < e

/-- The tick the next host event happens: its own, or now if that has passed. -/
def State.hostTick (s : State) : Nat :=
  match s.host with
  | [] => s.tick
  | ev :: _ => max s.tick ev.tick

/-- Time stops at the next host event, with the operation running (BUSY = 1). -/
def park (todo : List Phase) (x : Exec) (s : State) : State :=
  { s with tick := s.hostTick, seq := .exec { x with todo := todo } }

/-- Run an operation's phases one after another with no gap (R166), until its end tick or until a host event comes
first. An event does not disturb the operation (R235): a later run goes on from `park`. -/
def runPhases : List Phase → Exec → State → State
  | [], x, s => commit x.ending x.acc x.phaseStart s
  | p :: ps, x, s =>
    if (beginPhase p x s).hostBefore (phaseEnd p x (beginPhase p x s)) then park (p :: ps) x (beginPhase p x s)
    else match endPhase p x (beginPhase p x s) with
      | .inl v => commit v x.acc (phaseEnd p x (beginPhase p x s)) (beginPhase p x s)
      | .inr x' => runPhases ps { x' with phaseStart := phaseEnd p x (beginPhase p x s) } (beginPhase p x s)

/-- The sequencer at the tick of the write: start tick `s = w + 1`, reached by holding the driver one tick (R40, R264). -/
def accepted (s : State) (ending : Verdict) (acc : Half) : Exec where
  start := s.tick + 1
  index := 0
  subStart := s.tick + 1
  phaseStart := s.tick
  low := none
  bitIndex := 0
  acc := acc
  ending := ending
  todo := []

/-- An operation is issued at this tick (R40): dropped with OVR while BUSY (R233), without effect while the reset input
is asserted (R250, log entry 6), and else run. `acc` is the accumulator's first value. -/
def issue (phases : List Phase) (ending : Verdict) (acc : Half) (s : State) : Host.Outcome State Fault Refusal :=
  if s.inReset then .next s
  else if s.busy then .next s.flagOvr
  else .next (runPhases (.wait 1 :: phases) (accepted s ending acc) s)

/-- A reserved word is issued (R84, R232): BUSY is checked first (R234), else `flag ILL` and nothing else. -/
def reject (s : State) : Host.Outcome State Fault Refusal :=
  if s.inReset then .next s
  else if s.busy then .next s.flagOvr
  else .next s.flagIll

/-! ### Block reset (R250) -/

/-- The reset input is asserted: every register takes its reset value (R39), the operation in progress is abandoned
without completing, and DRV becomes REL. -/
def State.blockReset (s : State) : State :=
  { s.setDrv s.tick .rel with
    inReset := true
    opword := 0x00000000#32
    ok := false
    bitval := .zero
    errkind := .none
    ovr := false
    ill := false
    rstv := false
    result := 0x0000#16
    lastReset := 0x00000000#32
    seq := .idle }

/-- The reset input is released at this tick: the next one is the spec's tick 0 (R250, log entry 7). -/
def State.releaseReset (s : State) : State :=
  { s with
    inReset := false
    tick := if s.inReset then s.tick + 1 else s.tick
    epoch := if s.inReset then s.tick + 1 else s.epoch }

end Sys2Proof.Machine
end

