-- ==== Sys2Proof/Machine/BitCodec.lean ====
section
/-! DEFINITION. The bit codec (spec/42_bit_codec.md R120 to R124). -/

namespace Sys2Proof.Machine

/-- One bit cell: a low phase, then a high phase (R120, R121). -/
def encodeBitPhases (b : Bool) : List Phase := [.drive .low (lowTicks b), .drive .rel (highTicks b)]

/-- One received bit: the low phase is timed from the start tick, then the high phase (R123). -/
def decodeBitPhases (role : BitRole) : List Phase := [.low, .high role]

/-- Bits sent one after another, each a sub-operation (R140, R163, R166). -/
def sendBits (bits : List Bool) : List Phase := bits.flatMap fun b => .sub :: encodeBitPhases b

/-- ENCODE_BIT b (R121). -/
def execEncodeBit (b : Bool) (s : State) : Host.Outcome State Fault Refusal :=
  issue (encodeBitPhases b) .plain 0 s

/-- DECODE_BIT (R123). It ends with the verdict of its one bit. -/
def execDecodeBit (s : State) : Host.Outcome State Fault Refusal :=
  issue (decodeBitPhases .alone) .plain 0 s

end Sys2Proof.Machine
end

