-- ==== Sys2Proof/Machine/BusSequencer.lean ====
section
/-! DEFINITION. The bus state machine (spec/44_bus_sequencer.md R160 to R166). -/

namespace Sys2Proof.Machine

/-- Low for `T_RESET`, then released (R160). -/
def resetBusPhases : List Phase := [.drive .low Config.tReset, .drive .rel 0]

/-- Low for `T_ATTN`, then released (R161). -/
def attentionPhases : List Phase := [.drive .low Config.tAttn, .drive .rel 0]

/-- Released for `T_SYNC`, then low, and the low is held (R162). -/
def syncPhases : List Phase := [.drive .rel Config.tSync, .drive .low 0]

/-- ATTENTION, SYNC, the command bits MSB first, the trailing 0 (R163). -/
def sendCommandPhases (c : Byte) : List Phase :=
  .sub :: attentionPhases ++ .sub :: syncPhases ++ sendBits (commandBits c)

/-- The line released, the fixed gap, and with a response expected the poll (R164). -/
def turnaroundPhases (x : Bool) : List Phase :=
  .drive .rel Config.tTurn :: if x then [.poll Config.tPoll] else []

/-- RESET_BUS (R160). -/
def execResetBus (s : State) : Host.Outcome State Fault Refusal :=
  issue resetBusPhases .busReset 0 s

/-- ATTENTION (R161). -/
def execAttention (s : State) : Host.Outcome State Fault Refusal :=
  issue attentionPhases .plain 0 s

/-- SYNC (R162). -/
def execSync (s : State) : Host.Outcome State Fault Refusal :=
  issue syncPhases .plain 0 s

/-- SEND_COMMAND c: any byte, sent as given (R163, R195). -/
def execSendCommand (c : BitVec 8) (s : State) : Host.Outcome State Fault Refusal :=
  issue (sendCommandPhases c) .plain 0 s

/-- TURNAROUND x: RESULT is 1 when a device pulled low within the poll window (R164). -/
def execTurnaround (x : Bool) (s : State) : Host.Outcome State Fault Refusal :=
  issue (turnaroundPhases x) .word 0 s

end Sys2Proof.Machine
end

