-- ==== Sys2Proof/Machine/FrameCodec.lean ====
section
/-! DEFINITION. The frame codec (spec/43_frame_codec.md R140 to R146). -/

namespace Sys2Proof.Machine

/-- The bit cells of a frame (R79, R140): bits at or above `n` are not sent. -/
def encodeFramePhases (wd : Half) (n : Nat) : List Phase := sendBits (frameBits wd n)

/-- A start bit, `n` data bits, a stop bit (R141). -/
def decodeFramePhases (n : Nat) : List Phase :=
  .sub :: decodeBitPhases .start ++ (List.replicate n (.sub :: decodeBitPhases .data)).flatten ++
    .sub :: decodeBitPhases .stop

/-- ENCODE_FRAME wd, n (R140). -/
def execEncodeFrame (lenm1 : BitVec 4) (wd : BitVec 16) (s : State) : Host.Outcome State Fault Refusal :=
  issue (encodeFramePhases wd (frameLen lenm1)) .plain 0 s

/-- DECODE_FRAME n (R141 to R146). -/
def execDecodeFrame (lenm1 : BitVec 4) (s : State) : Host.Outcome State Fault Refusal :=
  issue (decodeFramePhases (frameLen lenm1)) .word 0 s

end Sys2Proof.Machine
end

