-- ==== Sys2Proof/Machine/Command.lean ====
section
/-! DEFINITION. The command composer and the bus transactions (spec/45_command.md R190 to R195), and the reserved words
(spec/30_encoding.md R84, spec/60_exceptions.md R232). -/

namespace Sys2Proof.Machine

/-- COMPOSE: RESULT takes the command byte, 0 ticks, nothing on the line (R191). -/
def composeResult (op : BitVec 2) (reg : BitVec 2) (addr : BitVec 4) (s : State) : Host.Outcome State Fault Refusal :=
  issue [] .word (byteWord (composeByte op addr reg)) s

/-- COMPOSE TALK, addr, reg (R191). -/
def execComposeTalk (reg : BitVec 2) (addr : BitVec 4) (s : State) : Host.Outcome State Fault Refusal :=
  composeResult Config.cmdTalk reg addr s

/-- COMPOSE LISTEN, addr, reg (R191). -/
def execComposeListen (reg : BitVec 2) (addr : BitVec 4) (s : State) : Host.Outcome State Fault Refusal :=
  composeResult Config.cmdListen reg addr s

/-- COMPOSE FLUSH, addr, reg (R191). -/
def execComposeFlush (reg : BitVec 2) (addr : BitVec 4) (s : State) : Host.Outcome State Fault Refusal :=
  composeResult Config.cmdFlush reg addr s

/-- The command and the turnaround that begin a transaction, each chained with gap 0 (R166, R192 to R194). -/
def transactionPhases (op : BitVec 2) (reg : BitVec 2) (addr : BitVec 4) (expect : Bool) : List Phase :=
  sendCommandPhases (composeByte op addr reg) ++ .sub :: turnaroundPhases expect

/-- TALK addr, reg (R192): the turnaround's RESULT is internal, for the frame's start bit clears the accumulator. -/
def execTalk (reg : BitVec 2) (addr : BitVec 4) (s : State) : Host.Outcome State Fault Refusal :=
  issue (transactionPhases Config.cmdTalk reg addr true ++ decodeFramePhases Config.talkLen) .word 0 s

/-- LISTEN addr, reg, wd (R193): RESULT unchanged. -/
def execListen (reg : BitVec 2) (addr : BitVec 4) (wd : BitVec 16) (s : State) : Host.Outcome State Fault Refusal :=
  issue (transactionPhases Config.cmdListen reg addr false ++ encodeFramePhases wd Config.listenLen) .plain 0 s

/-- FLUSH addr, reg (R194): RESULT unchanged. -/
def execFlush (reg : BitVec 2) (addr : BitVec 4) (s : State) : Host.Outcome State Fault Refusal :=
  issue (transactionPhases Config.cmdFlush reg addr false) .plain 0 s

/-- A word with OPC 0x0 (R84, R232). -/
def execReservedOpc0 (s : State) : Host.Outcome State Fault Refusal := reject s

/-- A word with OPC 0xE and the reserved CMDOP (R84, R195, R232). -/
def execReservedECmdop (s : State) : Host.Outcome State Fault Refusal := reject s

/-- A word with OPC 0xF and the reserved CMDOP (R84, R195, R232). -/
def execReservedFCmdop (s : State) : Host.Outcome State Fault Refusal := reject s

end Sys2Proof.Machine
end

