-- ==== Sys2Proof/Machine/Line.lean ====
section
/-! DEFINITION. The line operations (spec/41_line.md R100 to R106). -/

namespace Sys2Proof.Machine

/-- LINE_RELEASE: `DRV <- REL`, 0 ticks (R101). -/
def execLineRelease (s : State) : Host.Outcome State Fault Refusal :=
  issue [.drive .rel 0] .plain 0 s

/-- LINE_LOW: `DRV <- LOW`, 0 ticks (R102). -/
def execLineLow (s : State) : Host.Outcome State Fault Refusal :=
  issue [.drive .low 0] .plain 0 s

/-- LINE_READ: `RESULT <- L(s)`, 0 ticks (R103). -/
def execLineRead (s : State) : Host.Outcome State Fault Refusal :=
  issue [.sample] .word 0 s

/-- WAIT n: the driver holds for exactly `n` ticks (R104). -/
def execWait (n : BitVec 16) (s : State) : Host.Outcome State Fault Refusal :=
  issue [.wait n.toNat] .plain 0 s

end Sys2Proof.Machine
end

