-- ==== Sys2Proof/Machine/Dispatch.lean ====
section
/-! DEFINITION. One arm per constructor of Instr. -/

namespace Sys2Proof.Machine

/-- The meaning of each operation: from its issue at the present tick to its end tick, or to the tick of the first host
event that comes before it (R40, R41). -/
def exec (i : Instr) (s : State) : Host.Outcome State Fault Refusal :=
  match i with
  | .lineRelease => Sys2Proof.Machine.execLineRelease s
  | .lineLow => Sys2Proof.Machine.execLineLow s
  | .lineRead => Sys2Proof.Machine.execLineRead s
  | .wait n => Sys2Proof.Machine.execWait n s
  | .encodeBit b => Sys2Proof.Machine.execEncodeBit b s
  | .decodeBit => Sys2Proof.Machine.execDecodeBit s
  | .encodeFrame lenm1 wd => Sys2Proof.Machine.execEncodeFrame lenm1 wd s
  | .decodeFrame lenm1 => Sys2Proof.Machine.execDecodeFrame lenm1 s
  | .resetBus => Sys2Proof.Machine.execResetBus s
  | .attention => Sys2Proof.Machine.execAttention s
  | .sync => Sys2Proof.Machine.execSync s
  | .sendCommand c => Sys2Proof.Machine.execSendCommand c s
  | .turnaround x => Sys2Proof.Machine.execTurnaround x s
  | .composeTalk reg addr => Sys2Proof.Machine.execComposeTalk reg addr s
  | .composeListen reg addr => Sys2Proof.Machine.execComposeListen reg addr s
  | .composeFlush reg addr => Sys2Proof.Machine.execComposeFlush reg addr s
  | .talk reg addr => Sys2Proof.Machine.execTalk reg addr s
  | .listen reg addr wd => Sys2Proof.Machine.execListen reg addr wd s
  | .flush reg addr => Sys2Proof.Machine.execFlush reg addr s
  | .reservedOpc0 => Sys2Proof.Machine.execReservedOpc0 s
  | .reservedECmdop => Sys2Proof.Machine.execReservedECmdop s
  | .reservedFCmdop => Sys2Proof.Machine.execReservedFCmdop s

end Sys2Proof.Machine
end

