-- ==== Sys2Proof/Machine/HostAccess.lean ====
section
/-! DEFINITION. The register window (spec/20_memory.md R50 to R57) and the order of the world's events
(R61, spec/10_state.md R40): what the next step of the machine is to be. -/

namespace Sys2Proof.Machine

/-- A read of the window at an aligned offset; reserved offsets read 0 (R28 to R36, R50, R51). -/
def State.regRead (off : BitVec 5) (s : State) : Word :=
  match off.toNat with
  | 0x00 => s.opword
  | 0x04 => s.status
  | 0x08 => s.result.setWidth 32
  | 0x0C => s.now
  | 0x10 => s.lastReset
  | _ => 0#32

/-- A write of the window other than to OPWORD: STATUS clears its flags; RESULT, NOW, LAST_RESET and the reserved
offsets ignore it (R30, R51, R57). -/
def State.regWrite (off : BitVec 5) (v : Word) (s : State) : State :=
  match off.toNat with
  | 0x04 => s.clearFlags v
  | _ => s

/-- The host takes the value of a read; the block is not changed by it (R55, R56). -/
def State.answerRead (off : BitVec 5) (s : State) : State :=
  { s with reads := { tick := s.tick, offset := off, value := s.regRead off } :: s.reads }

/-- An offset that is a multiple of 4 (R54). -/
def aligned (off : BitVec 5) : Bool := off.toNat % 4 == 0

/-- The byte offset in the register window of a host address: the window takes 32 bytes from `BASE` (R50). -/
def windowOffset (p : Config.OpenParams) (addr : Nat) : Option (BitVec 5) :=
  if p.base ≤ addr ∧ addr < p.base + 32 then some (BitVec.ofNat 5 (addr - p.base)) else none

/-- The block's access that a read of a host address is; none outside the window (R50). -/
def busRead (p : Config.OpenParams) (width : Width) (addr : Nat) : Option Access :=
  (windowOffset p addr).map (.read width)

/-- The block's access that a write of a host address is; none outside the window (R50). -/
def busWrite (p : Config.OpenParams) (width : Width) (addr : Nat) (v : Word) : Option Access :=
  (windowOffset p addr).map (.write width · v)

/-- What the next step does. -/
inductive Fetch
  /-- The state goes on so, with no operation issued. -/
  | advance (s : State)
  /-- This operation word is to be decoded: BUSY = 0 and the block is not in reset (R40, R84). -/
  | word (w : Word) (s : State)
  /-- The model has no transition (R54). -/
  | refuse (r : Refusal)
  deriving DecidableEq, Repr

/-- A 32-bit write at an aligned offset. OPWORD: BUSY is checked before the word is decoded (R233, R234); while the
reset input is asserted the registers keep their reset values (R250, log entry 6). -/
def hostWrite (off : BitVec 5) (v : Word) (s : State) : Fetch :=
  if off = 0#5 then
    if s.inReset then .advance s
    else if s.busy then .advance s.flagOvr
    else .word v s
  else .advance (s.regWrite off v)

/-- A host access (R54). -/
def hostAccess (a : Access) (s : State) : Fetch :=
  match a with
  | .read .word off => if aligned off then .advance (s.answerRead off) else .refuse .accessMisaligned
  | .read .half _ => .refuse .accessWidth
  | .read .byte _ => .refuse .accessWidth
  | .write .word off v => if aligned off then hostWrite off v s else .refuse .accessMisaligned
  | .write .half _ _ => .refuse .accessWidth
  | .write .byte _ _ => .refuse .accessWidth

/-- An event of the world, at the present tick. -/
def perform (e : Event) (s : State) : Fetch :=
  match e with
  | .access a => hostAccess a s
  | .resetAssert => .advance s.blockReset
  | .resetRelease => .advance s.releaseReset

/-- Nothing of the world's is due: a running operation goes on; an idle block keeps everything while time passes, to the
next event or by one tick (R22, R243). -/
def passTime (s : State) : State :=
  match s.seq with
  | .exec x => runPhases x.todo x s
  | .idle => match s.host with
    | [] => { s with tick := s.tick + 1 }
    | ev :: _ => { s with tick := ev.tick }

/-- An edge of the block's reset input, and no host access. -/
def Event.isEdge (e : Event) : Bool :=
  match e with
  | .access _ => false
  | .resetAssert => true
  | .resetRelease => true

/-- The first event with `f` among those due at tick `now` at the head of a schedule, and the events left. -/
def takeDue (f : HostEvent → Bool) (now : Nat) : List HostEvent → Option (HostEvent × List HostEvent)
  | [] => none
  | ev :: rest =>
    if ev.tick ≤ now then
      if f ev then some (ev, rest) else (takeDue f now rest).map fun r => (r.1, ev :: r.2)
    else none

/-- The due event that comes next at the present tick, and the events left; none if no event is due. The driver and the
registers change only between ticks (R20, R250): an edge that asserts reset acts before the accesses of its tick, one that
releases it after them, and the accesses come in program order (R61, log entry 8). -/
def State.nextEvent (s : State) : Option (HostEvent × List HostEvent) :=
  match takeDue (fun ev => ev.event.isEdge != s.inReset) s.tick s.host with
  | some r => some r
  | none => takeDue (fun _ => true) s.tick s.host

/-- The next step: the event of the world that comes next if one is due, and else time passes (R61). -/
def fetch (s : State) : Fetch :=
  match s.nextEvent with
  | some r => perform r.1.event { s with host := r.2 }
  | none => .advance (passTime s)

/-- OPWORD holds the last accepted word, with the fields the operation ignores; a reserved word does not change it
(R29, R232). -/
def State.latchWord (w : Word) (s : State) : State :=
  { s with opword := if (decode w).wf then w else s.opword }

/-- The state with one OPWORD write of `w` due now to a block that can take it, and no other event pending. -/
def State.presentWord (w : Word) (s : State) : State :=
  { s with
    host := [{ tick := s.tick, event := .access (.write .word 0#5 w) }]
    seq := .idle
    inReset := false }

end Sys2Proof.Machine
end

