-- ==== Sys2Proof/Machine/Step.lean ====
section
/-! DEFINITION. One step of the machine: one event of the world, an operation with it when the event is the write of an
operation word; or time passes until the next event, or until the running operation's end. -/

namespace Sys2Proof.Machine

/-- One step (R40, R61). -/
def step (s : State) : Host.Outcome State Fault Refusal :=
  match fetch s with
  | .advance t => .next t
  | .refuse r => .refused r
  | .word w t => exec (decode w) (t.latchWord w)

/-- The state whose next step takes the operation word `w` (`nbits` bits, the rest 0): the host writes it to OPWORD now.
A program comes to run from State.reset by such host writes, from outside the machine (log entry 13). -/
def State.withFetchWord (s : State) (nbits w : Nat) : State := s.presentWord (BitVec.ofNat 32 (w % 2 ^ nbits))

end Sys2Proof.Machine
end

