-- ==== Sys2Proof/Machine/Assembler.lean ====
section
/-! DEFINITION. The text of one line of assembly (spec/30_encoding.md R81): `MNEMONIC operand, operand, ...`, numbers
decimal, hex `0x...` or binary `0b...`. Log entry 19 says what the spec leaves open of it. -/

namespace Sys2Proof.Machine

/-- The value of a digit in a base. -/
def digitValue (base : Nat) (c : Char) : Option Nat :=
  let n := if '0' ≤ c ∧ c ≤ '9' then c.toNat - '0'.toNat
    else if 'a' ≤ c ∧ c ≤ 'f' then c.toNat - 'a'.toNat + 10
    else if 'A' ≤ c ∧ c ≤ 'F' then c.toNat - 'A'.toNat + 10
    else base
  if n < base then some n else none

/-- The number with these digits, most significant first. -/
def digitsValue (base : Nat) : Nat → List Char → Option Nat
  | acc, [] => some acc
  | acc, c :: cs => match digitValue base c with
    | some d => digitsValue base (base * acc + d) cs
    | none => none

/-- A number of R81. -/
def parseNumber : List Char → Option Nat
  | '0' :: 'x' :: c :: cs => digitsValue 16 0 (c :: cs)
  | '0' :: 'b' :: c :: cs => digitsValue 2 0 (c :: cs)
  | c :: cs => digitsValue 10 0 (c :: cs)
  | [] => none

/-- Text without the spaces around it. -/
def trim (cs : List Char) : List Char :=
  ((cs.dropWhile (· == ' ')).reverse.dropWhile (· == ' ')).reverse

/-- The pieces of a text between the separators. -/
def splitAtChar (sep : Char) : List Char → List (List Char)
  | [] => [[]]
  | c :: cs =>
    if c == sep then [] :: splitAtChar sep cs
    else match splitAtChar sep cs with
      | [] => [[c]]
      | p :: ps => (c :: p) :: ps

/-- The operands after the mnemonic: none, or a list separated by commas. -/
def operandsOf (cs : List Char) : List (List Char) :=
  if trim cs = [] then [] else (splitAtChar ',' cs).map trim

/-- TALK, LISTEN or FLUSH as an operand of COMPOSE or CMD. -/
def parseBusOp (cs : List Char) : Option BusOp :=
  if cs = "TALK".toList then some .talk
  else if cs = "LISTEN".toList then some .listen
  else if cs = "FLUSH".toList then some .flush
  else none

/-- Lines without operands. -/
def plainLines : List (List Char × Asm) :=
  [("LINE_RELEASE".toList, .lineRelease), ("LINE_LOW".toList, .lineLow), ("LINE_READ".toList, .lineRead),
   ("DECODE_BIT".toList, .decodeBit), ("RESET_BUS".toList, .resetBus), ("ATTENTION".toList, .attention),
   ("SYNC".toList, .sync), ("LINE_HIGH".toList, .lineHigh),
   ("SERVICE_REQUEST_WINDOW".toList, .serviceRequestWindow), ("DECODE_WORD16".toList, .decodeWord16),
   ("NOP".toList, .nop)]

/-- Lines with one number. -/
def unaryLine (m : List Char) (n : Nat) : Option Asm :=
  if m = "WAIT".toList then some (.wait n)
  else if m = "ENCODE_BIT".toList then some (.encodeBit n)
  else if m = "DECODE_FRAME".toList then some (.decodeFrame n)
  else if m = "SEND_COMMAND".toList then some (.sendCommand n)
  else if m = "TURNAROUND".toList then some (.turnaround n)
  else if m = "ENCODE_WORD16".toList then some (.encodeWord16 n)
  else none

/-- Lines with two numbers. -/
def binaryLine (m : List Char) (x y : Nat) : Option Asm :=
  if m = "ENCODE_FRAME".toList then some (.encodeFrame x y)
  else if m = "TALK".toList then some (.talk x y)
  else if m = "FLUSH".toList then some (.flush x y)
  else none

/-- Lines with three operands: LISTEN's numbers, or a bus operation and a target. -/
def ternaryLine (m x y z : List Char) : Option Asm :=
  match parseBusOp x, parseNumber x, parseNumber y, parseNumber z with
  | some op, _, some a, some r =>
    if m = "COMPOSE".toList then some (.compose op a r)
    else if m = "CMD".toList then some (.cmd op a r)
    else none
  | none, some a, some r, some wd => if m = "LISTEN".toList then some (.listen a r wd) else none
  | _, _, _, _ => none

/-- A line of assembly; none when it has no form of R81 or R82. -/
def parseLine (text : List Char) : Option Asm :=
  let body := trim text
  let m := body.takeWhile (· != ' ')
  match operandsOf (body.dropWhile (· != ' ')) with
  | [] => (plainLines.find? fun row => row.1 == m).map (·.2)
  | [x] => (parseNumber x).bind (unaryLine m)
  | [x, y] => match parseNumber x, parseNumber y with
    | some a, some b => binaryLine m a b
    | _, _ => none
  | [x, y, z] => ternaryLine m x y z
  | _ => none

/-- The word of a line of text; none when the assembler refuses it (R81). -/
def assembleLine (text : List Char) : Option Word := (parseLine text).bind assemble

end Sys2Proof.Machine
end

