-- ==== Sys2Proof/Machine/HostProtocol.lean ====
section
/-! DEFINITION. Host software above the block (spec/49_host_protocol.md): not hardware (R210), so no part of `step`. It
calls block operations one after another: "issue the operation, wait for BUSY = 0, then read RESULT and STATUS.OK". -/

namespace Sys2Proof.Machine

/-- Go on with the next state, or stop as the call stopped. -/
def chain {σ : Type} (o : Host.Outcome State Fault Refusal) (k : State → Host.Outcome σ Fault Refusal) :
    Host.Outcome σ Fault Refusal :=
  match o with
  | .next t => k t
  | .fault r => .fault r
  | .refused r => .refused r

/-- The machine runs until at most `later` events of the schedule are pending and BUSY = 0, in at most as many steps as
the second number says. -/
def settle (later : Nat) : Nat → State → Host.Outcome State Fault Refusal
  | 0, s => .next s
  | n + 1, s => if s.host.length ≤ later ∧ s.busy = false then .next s else chain (step s) (settle later n)

/-- The schedule with the OPWORD write of `w` at tick `t`, after the events up to that tick. -/
def insertWrite (t : Nat) (w : Word) (host : List HostEvent) : List HostEvent :=
  host.takeWhile (·.tick ≤ t) ++
    { tick := t, event := .access (.write .word 0#5 w) } :: host.dropWhile (·.tick ≤ t)

/-- Enough steps for `n` events: each is reached, performed, and any operation it issues ended. -/
def settleSteps (n : Nat) : Nat := 3 * n + 3

/-- The host writes the operation's word `gap` ticks from now, which starts it `gap + 1` ticks from now (R264, the gap is
a draw), and waits for BUSY = 0. Its other accesses, and the reset input, are in the schedule. -/
def hostIssue (gap : Nat) (i : Instr) (s : State) : Host.Outcome State Fault Refusal :=
  settle (s.host.dropWhile (·.tick ≤ s.tick + gap)).length (settleSteps (s.host.length + 1))
    { s with host := insertWrite (s.tick + gap) (encode i) s.host }

/-- `nowMicros()`: NOW counts ticks of `TICK_US` µs (R8, R20, R35). -/
def nowMicros (s : State) : Nat := s.now.toNat * Config.tickUs

/-- `merged = (cur & ~m) | (nv & m)` (R212). -/
def mergeMasked (cur nv m : Half) : Half := (cur &&& ~~~m) ||| (nv &&& m)

/-- Only the masked bits are compared (R213). -/
def verifyMasked (rr nv m : Half) : Bool := rr &&& m == nv &&& m

/-- `readRegister3(a)` is `TALK a, 3`; the word is RESULT and the success flag OK (R215). -/
def readRegister3 (gap : Nat) (a : BitVec 4) (s : State) : Host.Outcome State Fault Refusal :=
  hostIssue gap (.talk 3#2 a) s

/-- The fixed delay between register-3 transactions (R211, R261). -/
def interopWait (gap : Nat) (s : State) : Host.Outcome State Fault Refusal :=
  hostIssue gap (.wait (BitVec.ofNat 16 Config.tInterop)) s

/-- `updateRegister3(a, nv, m) -> ok`: read, merge, write, verify; every failure is the same `false` (R211, R214). `gap k` is
what the host lets pass before its operation `k`. -/
def updateRegister3 (gap : Nat → Nat) (a : BitVec 4) (nv m : Half) (s : State) :
    Host.Outcome (State × Bool) Fault Refusal :=
  chain (readRegister3 (gap 0) a s) fun s1 =>
    if s1.ok then
      chain (interopWait (gap 1) s1) fun s2 =>
        chain (hostIssue (gap 2) (.listen 3#2 a (mergeMasked s1.result nv m)) s2) fun s3 =>
          chain (interopWait (gap 3) s3) fun s4 =>
            chain (readRegister3 (gap 4) a s4) fun s5 => .next (s5, s5.ok && verifyMasked s5.result nv m)
    else .next (s1, false)

/-! ### Register 3 (R216, R218) -/

/-- The handler identifier, 8 bits. -/
def reg3Handler (l : Config.Reg3Layout) (r : Half) : BitVec 8 := r.extractLsb' l.handler 8
/-- The device address, 4 bits. -/
def reg3Address (l : Config.Reg3Layout) (r : Half) : BitVec 4 := r.extractLsb' l.address 4
/-- Service-request enable. -/
def reg3ServiceRequestEnable (l : Config.Reg3Layout) (r : Half) : Bool := r.getLsbD l.serviceRequestEnable
/-- Exceptional event. -/
def reg3ExceptionalEvent (l : Config.Reg3Layout) (r : Half) : Bool := r.getLsbD l.exceptionalEvent

/-- The mask that selects just the handler identifier (R218). -/
def handlerMask : Half := 0x00FF#16 <<< Config.reg3Layout.handler

/-- `initializeDevice(a, h) -> present` (R218). -/
def initializeDevice (gap : Nat → Nat) (a : BitVec 4) (h : BitVec 8) (s : State) :
    Host.Outcome (State × Bool) Fault Refusal :=
  updateRegister3 gap a (h.setWidth 16 <<< Config.reg3Layout.handler) handlerMask s

/-! ### Facade formulas (R219, R220) -/

/-- An LED bit as transmitted: requested on is sent as 0 (R219). -/
def ledBit (requestedOn : Bool) : Bool := !requestedOn

/-- A mouse axis: the 7-bit field shifted into the high bits of a signed 8-bit value (R220). -/
def mouseDelta (raw : BitVec 7) : Int := (raw.setWidth 8 <<< 1).toInt

end Sys2Proof.Machine
end

