-- ==== Sys2Proof/Safety.lean ====
section
/-! DEFINITION. What counts as a safe run of the block, and the words the statements use. The words about the line
(`ReadsBit`, `PollEnds`, `cellsDrive`, ...) are written from the rules over `L(t)` and `DRV(t)` alone, not over the
model's sequencer. -/

namespace Sys2Proof.Machine

/-! ### Safe runs -/

/-- No host error was flagged: a run that sets ILL or OVR is treated as faulted (R232, R233). -/
def State.HostSafe (s : State) : Prop := s.errors = []

/-- `T_REINIT` ticks have passed since the last bus reset ended, or there was none (R252); a block reset in between does
not shorten the time. Before this, a claim about a transaction says nothing about the devices. -/
def State.Reinitialized (p : Config.OpenParams) (s : State) : Prop :=
  ∀ e, s.busResetEnd = some e → e + p.tReinit ≤ s.tick

/-- The line was low from tick `p` for at least `T_RESET` ticks: the waveform of a bus reset (R259). -/
def ShowsBusReset (L : Nat → Level) (p : Nat) : Prop := ∀ j, j < Config.tReset → L (p + j) = .low

/-- The tick from which the driver has its present value: now, or the first tick of the phase that runs. -/
def State.heldFrom (s : State) : Nat :=
  match s.seq with
  | .idle => s.tick
  | .exec x => x.phaseStart

/-- `L(t)` of the two traces as they stand (R24). -/
def State.lineTrace (s : State) (t : Nat) : Level := resolve (s.drvAt t) (devLow s.dev t)

/-- The events at the head of the schedule that are due at the present tick. -/
def State.dueEvents (s : State) : List HostEvent := s.host.takeWhile (·.tick ≤ s.tick)

/-- What every step of the block keeps. -/
structure State.Inv (s : State) : Prop where
  /-- The trace reads the driver's value from the tick it was last set (R22). -/
  traceHeld : ∀ u, s.heldFrom ≤ u → s.drvAt u = s.drv
  /-- The phase that runs has begun (R37). -/
  phaseBegun : s.heldFrom ≤ s.tick
  /-- Tick 0 of the block is not in the future (R35, R250). -/
  epochPast : s.epoch ≤ s.heldFrom
  /-- OK = 1 only with ERRKIND = 0 (R32). -/
  okNoError : s.ok = true → s.errkind = .none
  /-- BITVAL is ERROR exactly with BIT_TIMEOUT (R231). -/
  bitTimeout : s.bitval = .error ↔ s.errkind = .bitTimeout
  /-- BITVAL is 1 only after a successful operation (R31). -/
  oneOk : s.bitval = .one → s.ok = true
  /-- LAST_RESET is 0 until a RESET_BUS has completed (R36, R39). -/
  noBusReset : s.rstv = false → s.lastReset = 0#32
  /-- RSTV = 1 only after a RESET_BUS since tick 0, whose end LAST_RESET shows (R36). -/
  busResetSeen : s.rstv = true → ∃ e, s.busResetEnd = some e ∧ s.epoch ≤ e ∧ s.lastReset = s.nowAt e
  /-- The last bus reset has ended (R252). -/
  busResetPast : ∀ e, s.busResetEnd = some e → e ≤ s.heldFrom
  /-- A running operation is inside a phase that has set the driver and has not ended (R37). -/
  phaseRuns : ∀ x, s.seq = .exec x → ∃ p ps, x.todo = p :: ps ∧ beginPhase p x s = s ∧ s.tick < phaseEnd p x s
  /-- A set OVR or ILL was flagged (R33). -/
  flagged : s.ovr = true ∨ s.ill = true → s.errors ≠ []
  /-- While the reset input is asserted, every register has its reset value (R39, R250). -/
  resetHeld : s.inReset = true → s.seq = .idle ∧ s.drv = .rel ∧ s.opword = 0#32 ∧ s.ok = false ∧ s.bitval = .zero ∧
    s.errkind = .none ∧ s.ovr = false ∧ s.ill = false ∧ s.rstv = false ∧ s.result = 0#16 ∧ s.lastReset = 0#32
  /-- What was read was read at a tick that has come (R55). -/
  readsPast : ∀ r ∈ s.reads, r.tick ≤ s.tick
  /-- Every read of STATUS showed the one level the line has at its tick, and the one value the driver has (R20, R25). -/
  readsShowTick : ∀ r ∈ s.reads, r.offset = 0x04#5 →
    (r.value.getLsbD 16 = true ↔ s.lineTrace r.tick = .high) ∧ (r.value.getLsbD 17 = true ↔ s.drvAt r.tick = .low)
  /-- After a read out of reset, no edge of the reset input acts at the read's tick (R20, R250). -/
  edgesFirst : s.inReset = false → (∃ r ∈ s.reads, r.tick = s.tick) → ∀ ev ∈ s.dueEvents, ev.event.isEdge = false

/-! ### Issuing an operation -/

/-- The block can take an operation word now, and no host event comes before tick `e` (R40). -/
def State.ReadyUntil (s : State) (e : Nat) : Prop := s.seq = .idle ∧ s.inReset = false ∧ s.hostBefore e = false

/-- The trace reads the driver's value from now on: part of `Inv` for an idle block. -/
def State.TraceHeld (s : State) : Prop := ∀ u, s.tick ≤ u → s.drvAt u = s.drv

/-- `t` is `s` at the end tick `e` with the default outputs OK = 1, BITVAL = 0, ERRKIND = 0 (R41), driver `d` and RESULT
`r`; every other field but the driver trace is as in `s`. -/
def Succeeds (s t : State) (e : Nat) (d : Drive) (r : Half) : Prop :=
  t = { s with tick := e, drv := d, wave := t.wave, ok := true, bitval := .zero, errkind := .none, result := r }

/-- `t` is `s` at the end tick `e` after a failed frame: OK = 0, ERRKIND = `k`, BITVAL = 0, RESULT the next free word
(R141, R146); every other field but driver and trace is as in `s`. -/
def FailsFrame (s t : State) (e : Nat) (d : Drive) (k : ErrKind) : Prop :=
  t = { s with
    tick := e, drv := d, wave := t.wave, ok := false, bitval := .zero, errkind := k
    result := Config.freeWord s.draws, draws := s.draws + 1 }

/-- From the start tick on, `DRV(u)` is `f u`; before it the trace is as it was. -/
def Drives (s t : State) (f : Nat → Drive) : Prop := ∀ u, t.drvAt u = if u ≤ s.tick then s.drvAt u else f u

/-! ### Runs of several steps -/

/-- `k` steps one after another. -/
def stepN : Nat → State → Host.Outcome State Fault Refusal
  | 0, s => .next s
  | k + 1, s => chain (step s) (stepN k)

/-- The outputs an operation writes at its end tick (R41), and OPWORD. -/
def State.SameOutputs (s t : State) : Prop :=
  t.opword = s.opword ∧ t.ok = s.ok ∧ t.bitval = s.bitval ∧ t.errkind = s.errkind ∧ t.result = s.result ∧
  t.lastReset = s.lastReset ∧ t.rstv = s.rstv

/-- From the state `s`, in which an operation runs or has just ended, some steps lead to `t`, but for the host-error flags,
their record, what was read, and the schedule, of which `rest` is left; until then BUSY = 1 and no output changes. -/
def EndsAs (s t : State) (rest : List HostEvent) : Prop :=
  ∃ (k : Nat) (u : State), stepN k s = .next u ∧
    u = { t with host := rest, ovr := u.ovr, ill := u.ill, reads := u.reads, errors := u.errors } ∧
    ∀ j, j < k → ∃ v, stepN j s = .next v ∧ v.busy = true ∧ s.SameOutputs v

/-! ### Waveforms (R79, R80, R120, R163, R193) -/

/-- The low phase of a cell (R120). -/
def cellLow (b : Bool) : Nat := if b then Config.tShort else Config.tLong

/-- The length of a cell (R120). -/
def cellTicks : Nat := Config.tShort + Config.tLong

/-- `n` cells with bits `bit 0`, ..., `bit (n-1)` from tick `p`, then released. -/
def cellsDrive (n : Nat) (bit : Nat → Bool) (p u : Nat) : Drive :=
  if u < p + n * cellTicks ∧ (u - p) % cellTicks < cellLow (bit ((u - p) / cellTicks)) then .low else .rel

/-- Bit `k` of the frame of the `n`-bit word `wd`: start 1, `wd[n-1]` to `wd[0]`, stop 0 (R79). -/
def frameBit (wd : Half) (n k : Nat) : Bool := if k = 0 then true else if k ≤ n then wd.getLsbD (n - k) else false

/-- Bit `k` of a command: `c[7]` to `c[0]`, then the trailing 0 (R80). -/
def commandBit (c : Byte) (k : Nat) : Bool := if k < 8 then c.getLsbD (7 - k) else false

/-- The ticks of SEND_COMMAND (R163, R167). -/
def commandTicks : Nat := Config.tAttn + Config.tSync + 9 * cellTicks

/-- The driver of a command that starts at `p`: attention, sync, nine cells, then released (R163). -/
def commandDrive (c : Byte) (p u : Nat) : Drive :=
  if u < p + Config.tAttn then .low
  else if u < p + Config.tAttn + Config.tSync then .rel
  else cellsDrive 9 (commandBit c) (p + Config.tAttn + Config.tSync) u

/-! ### What the line says (R122, R123, R144, R164) -/

/-- The line as it is while the driver is released. -/
def State.releasedLine (s : State) (u : Nat) : Level := if devLow s.dev u then .low else .high

/-- A DECODE_BIT of the line `L` started at tick `p` has the value `v` and ends at tick `e` (R122, R123): low for `a`
ticks, then high for `b`, then low, and `v` tells whether `a < b`; or the low or the high phase exceeds MAX_WAIT. -/
def ReadsBit (L : Nat → Level) (p : Nat) (v : LogicalBit) (e : Nat) : Prop :=
  (∃ a b, a ≤ Config.maxWait ∧ 1 ≤ b ∧ b ≤ Config.maxWait ∧ (∀ j, j < a → L (p + j) = .low) ∧
    (∀ j, j < b → L (p + a + j) = .high) ∧ L (p + a + b) = .low ∧
    v = (if a < b then .one else .zero) ∧ e = p + a + b) ∨
  ((∀ j, j ≤ Config.maxWait → L (p + j) = .low) ∧ v = .error ∧ e = p + Config.maxWait) ∨
  (∃ a, a ≤ Config.maxWait ∧ (∀ j, j < a → L (p + j) = .low) ∧
    (∀ j, j ≤ Config.maxWait → L (p + a + j) = .high) ∧ v = .error ∧ e = p + a + Config.maxWait)

/-- Decodes of `L` chained with gap 0 from tick `p` have the values `bits` and end at `e` (R166). -/
def ReadsBits (L : Nat → Level) : Nat → List Bool → Nat → Prop
  | p, [], e => e = p
  | p, b :: bs, e => ∃ m, ReadsBit L p (if b then .one else .zero) m ∧ ReadsBits L m bs e

/-- `Σ v_i · 2^(n-i)`: the value of bits read MSB first (R144). -/
def msbValue (bits : List Bool) : Nat := bits.foldl (fun n b => 2 * n + b.toNat) 0

/-- A decode of an `n`-bit frame of `L` from tick `p` gives the word `wd` and ends at `e` (R141, R144, R145). -/
def ReadsFrame (L : Nat → Level) (p n wd e : Nat) : Prop :=
  ∃ bits m m' v, bits.length = n ∧ wd = msbValue bits ∧ ReadsBit L p .one m ∧ ReadsBits L m bits m' ∧ ReadsBit L m' v e

/-- It fails at its start bit, at tick `e` (R142). -/
def NoStart (L : Nat → Level) (p e : Nat) : Prop := ∃ v, v ≠ .one ∧ ReadsBit L p v e

/-- It fails at a data bit, at tick `e` (R143). -/
def DataTimeout (L : Nat → Level) (p n e : Nat) : Prop :=
  ∃ bits m m', bits.length < n ∧ ReadsBit L p .one m ∧ ReadsBits L m bits m' ∧ ReadsBit L m' .error e

/-- A response poll of `L` from tick `p` ends at `e`; `seen` tells whether a sample was LOW (R164). -/
def PollEnds (L : Nat → Level) (p : Nat) (seen : Bool) (e : Nat) : Prop :=
  (∃ k, k < Config.tPoll ∧ L (p + k) = .low ∧ (∀ j, j < k → L (p + j) = .high) ∧ seen = true ∧ e = p + k) ∨
  ((∀ j, j < Config.tPoll → L (p + j) = .high) ∧ seen = false ∧ e = p + Config.tPoll)

/-! ### Kinds of operation -/

end Sys2Proof.Machine

namespace Sys2Proof

open Machine

/-- The operations that drive the line and never sample it (R106). -/
def Instr.neverSamples : Instr → Bool
  | .lineRelease => true
  | .lineLow => true
  | .lineRead => false
  | .wait _ => true
  | .encodeBit _ => true
  | .decodeBit => false
  | .encodeFrame _ _ => true
  | .decodeFrame _ => false
  | .resetBus => true
  | .attention => true
  | .sync => true
  | .sendCommand _ => true
  | .turnaround x => !x
  | .composeTalk _ _ => true
  | .composeListen _ _ => true
  | .composeFlush _ _ => true
  | .talk _ _ => false
  | .listen _ _ _ => true
  | .flush _ _ => true
  | .reservedOpc0 => true
  | .reservedECmdop => true
  | .reservedFCmdop => true

/-- The operations that write RESULT (R34). -/
def Instr.writesResult : Instr → Bool
  | .lineRelease => false
  | .lineLow => false
  | .lineRead => true
  | .wait _ => false
  | .encodeBit _ => false
  | .decodeBit => false
  | .encodeFrame _ _ => false
  | .decodeFrame _ => true
  | .resetBus => false
  | .attention => false
  | .sync => false
  | .sendCommand _ => false
  | .turnaround _ => true
  | .composeTalk _ _ => true
  | .composeListen _ _ => true
  | .composeFlush _ _ => true
  | .talk _ _ => true
  | .listen _ _ _ => false
  | .flush _ _ => false
  | .reservedOpc0 => false
  | .reservedECmdop => false
  | .reservedFCmdop => false

/-- The longest an operation lasts from its start tick, whatever the devices do (R263). -/
def Instr.maxTicks : Instr → Nat
  | .lineRelease => 0
  | .lineLow => 0
  | .lineRead => 0
  | .wait n => n.toNat
  | .encodeBit _ => cellTicks
  | .decodeBit => 2 * Config.maxWait
  | .encodeFrame lenm1 _ => (lenm1.toNat + 1 + 2) * cellTicks
  | .decodeFrame lenm1 => (lenm1.toNat + 1 + 2) * (2 * Config.maxWait)
  | .resetBus => Config.tReset
  | .attention => Config.tAttn
  | .sync => Config.tSync
  | .sendCommand _ => commandTicks
  | .turnaround x => if x then Config.tTurn + Config.tPoll else Config.tTurn
  | .composeTalk _ _ => 0
  | .composeListen _ _ => 0
  | .composeFlush _ _ => 0
  | .talk _ _ => commandTicks + (Config.tTurn + Config.tPoll) + (Config.talkLen + 2) * (2 * Config.maxWait)
  | .listen _ _ _ => commandTicks + Config.tTurn + (Config.listenLen + 2) * cellTicks
  | .flush _ _ => commandTicks + Config.tTurn
  | .reservedOpc0 => 0
  | .reservedECmdop => 0
  | .reservedFCmdop => 0

/-- The bits of a word that its operation looks at (R71, R73, R74). -/
def Instr.usedBits : Instr → Word
  | .lineRelease => 0xF0000000#32
  | .lineLow => 0xF0000000#32
  | .lineRead => 0xF0000000#32
  | .wait _ => 0xF000FFFF#32
  | .encodeBit _ => 0xF0000001#32
  | .decodeBit => 0xF0000000#32
  | .encodeFrame _ _ => 0xF00FFFFF#32
  | .decodeFrame _ => 0xF00F0000#32
  | .resetBus => 0xF0000000#32
  | .attention => 0xF0000000#32
  | .sync => 0xF0000000#32
  | .sendCommand _ => 0xF00000FF#32
  | .turnaround _ => 0xF0000001#32
  | .composeTalk _ _ => 0xFFF00000#32
  | .composeListen _ _ => 0xFFF00000#32
  | .composeFlush _ _ => 0xFFF00000#32
  | .talk _ _ => 0xFFF00000#32
  | .listen _ _ _ => 0xFFF0FFFF#32
  | .flush _ _ => 0xFFF00000#32
  | .reservedOpc0 => 0xF0000000#32
  | .reservedECmdop => 0xFC000000#32
  | .reservedFCmdop => 0xFC000000#32

end Sys2Proof

namespace Sys2Proof.Machine

/-- A host access the block takes: 32 bits at a multiple of 4 (R54). -/
def Access.legal : Access → Prop
  | .read w off => w = .word ∧ off.toNat % 4 = 0
  | .write w off _ => w = .word ∧ off.toNat % 4 = 0

/-- The schedule `now ++ rest` has legal accesses, any number of them, before tick `e`, and then nothing before `e`. -/
def AccessesBefore (e : Nat) (now rest : List HostEvent) : Prop :=
  (∀ ev ∈ now, ev.tick < e ∧ ∃ a : Access, a.legal ∧ ev.event = .access a) ∧ ∀ ev ∈ rest.head?, e ≤ ev.tick

end Sys2Proof.Machine
end

