-- ==== Sys2Proof/Certificates/Slice0/Obligations.lean ====
section
/-! DEFINITION. The statements for the provers. `s.tick + 1` is the start tick of an operation issued at `s.tick`
(R40); `s.ReadyUntil e` says that the block is idle and out of reset and that the host does nothing before tick `e`;
`s.nextEvent = some (ev, rest)` says that of the due events `ev` comes next, which leaves `rest` (the order of a tick's
events is stated in BlockActsBeforeTheHost, BlockResetValues and ReleasedBlockStartsAtTickZero). -/

open Sys2Proof Sys2Proof.Machine

/-! ### Encoding -/

/-- Decoding what was encoded gives the same operation, with every operand at every value (R71, R75, R76). -/
def Obligations.DecodeOfEncodeIsIdentity : Prop := ∀ i : Instr, decode (encode i) = i

/-- R74: a word whose used bits agree decodes to the same operation, and the encoder writes 0 to all others. -/
def Obligations.IgnoredFieldsNeverMatter : Prop :=
  (∀ w w' : Word, w &&& (decode w).usedBits = w' &&& (decode w).usedBits → decode w' = decode w) ∧
  (∀ i : Instr, encode i &&& ~~~i.usedBits = 0#32)

/-- R83: every word lies in the row of the operation it decodes to, and in no other row of the opcode table. -/
def Obligations.EveryWordHasExactlyOneRow : Prop :=
  ∀ (w : Word) (i : Instr), inRow w i = true ↔ tableRow i = tableRow (decode w)

/-- R84, R232: the reserved words are those with OPC 0, or OPC 0xE or 0xF and a CMDOP that is no bus operation; an
OPWORD write of one by the host, with BUSY = 0, sets ILL and does nothing else; the run then counts as faulted. -/
def Obligations.ReservedWordsFlagIll : Prop :=
  ∀ w : Word,
    ((decode w).wf = false ↔ opc w = 0x0#4 ∨ ((opc w = 0xE#4 ∨ opc w = 0xF#4) ∧ cmdop w ≠ Config.cmdTalk ∧
      cmdop w ≠ Config.cmdListen ∧ cmdop w ≠ Config.cmdFlush)) ∧
    ((decode w).wf = false → ∀ (s : State) (n : Nat) (rest : List HostEvent),
      s.nextEvent = some (⟨n, .access (.write .word 0#5 w)⟩, rest) → s.seq = .idle → s.inReset = false →
      ∃ t, step s = .next t ∧ ¬ t.HostSafe ∧
        t = { s with host := rest, ill := true, errors := ⟨s.tick, .ill⟩ :: s.errors })

/-- R86: the example encodings, from the assembly line to the word and back. -/
def Obligations.EncodingExamples : Prop :=
  (∀ row ∈ ([(.lineRelease, 0x10000000#32), (.lineLow, 0x20000000#32), (.lineRead, 0x30000000#32),
      (.wait 5000, 0x40001388#32), (.encodeBit 1, 0x50000001#32), (.encodeBit 0, 0x50000000#32),
      (.decodeBit, 0x60000000#32), (.encodeFrame 0xA5 8, 0x700700A5#32), (.encodeFrame 0x1234 16, 0x700F1234#32),
      (.decodeFrame 16, 0x800F0000#32), (.decodeFrame 1, 0x80000000#32), (.resetBus, 0x90000000#32),
      (.attention, 0xA0000000#32), (.sync, 0xB0000000#32), (.sendCommand 0x2C, 0xC000002C#32),
      (.turnaround 1, 0xD0000001#32), (.turnaround 0, 0xD0000000#32), (.compose .talk 2 0, 0xEC200000#32),
      (.compose .listen 3 3, 0xEB300000#32), (.compose .flush 2 1, 0xE1200000#32), (.talk 2 0, 0xFC200000#32),
      (.talk 3 3, 0xFF300000#32), (.listen 3 3 0x0500, 0xFB300500#32), (.flush 2 1, 0xF1200000#32)] :
      List (Asm × Word)), assemble row.1 = some row.2 ∧ decode row.2 = row.1.toInstr) ∧
  decode 0x00000000#32 = .reservedOpc0 ∧ decode 0xE4200000#32 = .reservedECmdop ∧
  decode 0xF4200000#32 = .reservedFCmdop

/-- R81: a line with an operand outside its range has no word; every other line has one, and it decodes to the line's
operation. -/
def Obligations.AssemblerChecksRanges : Prop :=
  (∀ a : Asm, a.wf = false → assemble a = none) ∧
  (∀ a : Asm, a.wf = true → ∃ w, assemble a = some w ∧ decode w = a.toInstr) ∧
  (∀ n, (Asm.wait n).wf = true ↔ n ≤ 65535) ∧
  (∀ b, (Asm.encodeBit b).wf = true ↔ b = 0 ∨ b = 1) ∧
  (∀ wd n, (Asm.encodeFrame wd n).wf = true ↔ wd ≤ 0xFFFF ∧ 1 ≤ n ∧ n ≤ 16) ∧
  (∀ n, (Asm.decodeFrame n).wf = true ↔ 1 ≤ n ∧ n ≤ 16) ∧
  (∀ c, (Asm.sendCommand c).wf = true ↔ c ≤ 0xFF) ∧
  (∀ x, (Asm.turnaround x).wf = true ↔ x = 0 ∨ x = 1) ∧
  (∀ op a r, (Asm.compose op a r).wf = true ↔ a ≤ 15 ∧ r ≤ 3) ∧
  (∀ a r, (Asm.talk a r).wf = true ↔ a ≤ 15 ∧ r ≤ 3) ∧
  (∀ a r wd, (Asm.listen a r wd).wf = true ↔ a ≤ 15 ∧ r ≤ 3 ∧ wd ≤ 0xFFFF) ∧
  (∀ a r, (Asm.flush a r).wf = true ↔ a ≤ 15 ∧ r ≤ 3)

/-- R82: a pseudo-instruction assembles to the word of its expansion. -/
def Obligations.PseudoInstructionExpansions : Prop :=
  assemble .lineHigh = assemble .lineRelease ∧ assemble .serviceRequestWindow = assemble .attention ∧
  (∀ op a r, a ≤ 15 → r ≤ 3 →
    assemble (.cmd op a r) = assemble (.sendCommand (a * 16 + (busOpCode op).toNat * 4 + r))) ∧
  (∀ wd, assemble (.encodeWord16 wd) = assemble (.encodeFrame wd 16)) ∧
  assemble .decodeWord16 = assemble (.decodeFrame 16) ∧ assemble .nop = assemble (.wait 0) ∧
  busOpCode .talk = Config.cmdTalk ∧ busOpCode .listen = Config.cmdListen ∧ busOpCode .flush = Config.cmdFlush

/-- R78: the command byte's value and its three fields; `TALK 2, 0` is 0x2C. -/
def Obligations.CommandByteLayout : Prop :=
  (∀ (op : BitVec 2) (a : BitVec 4) (r : BitVec 2),
    (composeByte op a r).toNat = op.toNat * 4 + a.toNat * 16 + r.toNat ∧
    (composeByte op a r).extractLsb' 4 4 = a ∧ (composeByte op a r).extractLsb' 2 2 = op ∧
    (composeByte op a r).extractLsb' 0 2 = r) ∧
  composeByte Config.cmdTalk 2#4 0#2 = 0x2C#8

/-! ### The line, STATUS and the register window -/

/-- R24: `L` at the tick now and at any tick the driver keeps its value to. -/
def Obligations.LineIsWiredAnd : Prop :=
  ∀ (s : State) (t : Nat),
    (s.lineAt t = .low ↔ s.drv = .low ∨ ∃ p ∈ s.dev, p.first ≤ t ∧ t < p.last) ∧
    (s.lineAt t = .high ↔ s.drv = .rel ∧ ∀ p ∈ s.dev, ¬ (p.first ≤ t ∧ t < p.last)) ∧ s.line = s.lineAt s.tick

/-- The STATUS word field by field (the table of R30, with the codes of R31 and R32). -/
def Obligations.StatusWordFields : Prop :=
  ∀ s : State,
    (s.status.getLsbD 0 = true ↔ s.seq ≠ .idle) ∧ s.status.getLsbD 1 = s.ok ∧
    s.status.extractLsb' 2 2 = (match s.bitval with | .zero => 0b00#2 | .one => 0b01#2 | .error => 0b10#2) ∧
    s.status.extractLsb' 4 3 =
      (match s.errkind with | .none => 0#3 | .bitTimeout => 1#3 | .noStart => 2#3 | .dataTimeout => 3#3) ∧
    s.status.getLsbD 8 = s.ovr ∧ s.status.getLsbD 9 = s.ill ∧ s.status.getLsbD 10 = s.rstv ∧
    (s.status.getLsbD 16 = true ↔ s.lineAt s.tick = .high) ∧ (s.status.getLsbD 17 = true ↔ s.drv = .low) ∧
    s.status.getLsbD 7 = false ∧ s.status.extractLsb' 11 5 = 0#5 ∧ s.status.extractLsb' 18 14 = 0#14

/-- R56: a read has no side effect; the host takes the value, and nothing else changes. -/
def Obligations.ReadsHaveNoSideEffect : Prop :=
  ∀ (s : State) (n : Nat) (off : BitVec 5) (rest : List HostEvent),
    s.nextEvent = some (⟨n, .access (.read .word off)⟩, rest) → off.toNat % 4 = 0 →
    step s = .next { s with host := rest, reads := ⟨s.tick, off, s.regRead off⟩ :: s.reads }

/-- What the five registers read as (the table of R28, with R29, R30, R34, R36), and which host addresses reach them: the
32 bytes from `BASE`, whatever `BASE` is (R50). -/
def Obligations.RegisterWindowReads : Prop :=
  (∀ s : State, s.regRead 0x00#5 = s.opword ∧ s.regRead 0x04#5 = s.status ∧
    (s.regRead 0x08#5).toNat = s.result.toNat ∧ s.regRead 0x0C#5 = s.now ∧ s.regRead 0x10#5 = s.lastReset) ∧
  (∀ (p : Config.OpenParams) (off : BitVec 5) (w : Width) (v : Word),
    busRead p w (p.base + off.toNat) = some (.read w off) ∧
    busWrite p w (p.base + off.toNat) v = some (.write w off v)) ∧
  (∀ (p : Config.OpenParams) (addr : Nat) (w : Width) (v : Word), addr < p.base ∨ p.base + 32 ≤ addr →
    busRead p w addr = none ∧ busWrite p w addr v = none)

/-- R51: the reserved offsets read 0, and a write to them does nothing. -/
def Obligations.ReservedOffsetsReadZero : Prop :=
  ∀ (s : State) (n : Nat) (v : Word) (rest : List HostEvent), ∀ off ∈ [0x14#5, 0x18#5, 0x1C#5],
    s.regRead off = 0x00000000#32 ∧
    (s.nextEvent = some (⟨n, .access (.write .word off v)⟩, rest) → step s = .next { s with host := rest })

/-- R35: NOW is the tick count modulo 2^32, 0 at tick 0, and writes to it are ignored. -/
def Obligations.NowCountsTicks : Prop :=
  (∀ s : State, s.inReset = false → s.regRead 0x0C#5 = BitVec.ofNat 32 ((s.tick - s.epoch) % 2 ^ 32)) ∧
  State.reset.regRead 0x0C#5 = 0#32 ∧ State.reset.tick = State.reset.epoch ∧
  (∀ (s : State) (n : Nat) (v : Word) (rest : List HostEvent),
    s.nextEvent = some (⟨n, .access (.write .word 0x0C#5 v)⟩, rest) → step s = .next { s with host := rest })

/-- R54: a due host access is refused exactly when it is no 32-bit access at a multiple of 4. -/
def Obligations.OnlyAlignedWordAccesses : Prop :=
  ∀ (s : State) (n : Nat) (a : Access) (rest : List HostEvent),
    s.nextEvent = some (⟨n, .access a⟩, rest) →
    (a.legal → ∃ t, step s = .next t) ∧ (¬ a.legal → ∃ r, step s = .refused r)

/-- A STATUS write clears OVR by bit 8 and ILL by bit 9 and nothing else; writes to RESULT, NOW and LAST_RESET are
ignored (R30, R57). -/
def Obligations.HostWritesClearOnlyFlags : Prop :=
  ∀ (s : State) (n : Nat) (v : Word) (rest : List HostEvent),
    (s.nextEvent = some (⟨n, .access (.write .word 0x04#5 v)⟩, rest) →
      step s = .next { s with host := rest, ovr := s.ovr && !v.getLsbD 8, ill := s.ill && !v.getLsbD 9 }) ∧
    (∀ off ∈ [0x08#5, 0x0C#5, 0x10#5], s.nextEvent = some (⟨n, .access (.write .word off v)⟩, rest) →
      step s = .next { s with host := rest })

/-! ### The step, issue and host errors -/

/-- When the host's OPWORD write of `w` is due and the block is idle and out of reset, the step is the meaning of the
operation `w` decodes to, with the write taken off the schedule and OPWORD holding `w` if `w` is no reserved word. -/
def Obligations.StepRunsDecodedWord : Prop :=
  ∀ (s : State) (n : Nat) (w : Word) (rest : List HostEvent),
    s.nextEvent = some (⟨n, .access (.write .word 0#5 w)⟩, rest) → s.seq = .idle → s.inReset = false →
    step s = exec (decode w) { s with host := rest, opword := if (decode w).wf then w else s.opword }

/-- R233: an OPWORD write while BUSY is dropped, whatever the word: OVR is set and nothing else changes, neither the
running operation nor OPWORD; the run then counts as faulted. -/
def Obligations.OverlapIsDropped : Prop :=
  ∀ (s : State) (x : Exec) (n : Nat) (w : Word) (rest : List HostEvent),
    s.nextEvent = some (⟨n, .access (.write .word 0#5 w)⟩, rest) → s.seq = .exec x → s.inReset = false →
    ∃ t, step s = .next t ∧ ¬ t.HostSafe ∧
      t = { s with host := rest, ovr := true, errors := ⟨s.tick, .ovr⟩ :: s.errors }

/-- An idle block with no event due keeps everything while time passes, to the next event or by one tick (R22, R243). -/
def Obligations.IdleBlockKeepsItsState : Prop :=
  ∀ s : State, s.seq = .idle →
    (s.host = [] → step s = .next { s with tick := s.tick + 1 }) ∧
    (∀ ev rest, s.host = ev :: rest → s.tick < ev.tick → step s = .next { s with tick := ev.tick })

/-- R33: OVR and ILL, once set, are cleared only by a STATUS write with their bit 1, or by block reset. -/
def Obligations.FlagsAreSticky : Prop :=
  ∀ s t : State, step s = .next t →
    (s.ovr = true → t.ovr = false → ∃ ev rest, s.nextEvent = some (ev, rest) ∧
      (ev.event = .resetAssert ∨ ∃ v : Word, v.getLsbD 8 = true ∧ ev.event = .access (.write .word 0x04#5 v))) ∧
    (s.ill = true → t.ill = false → ∃ ev rest, s.nextEvent = some (ev, rest) ∧
      (ev.event = .resetAssert ∨ ∃ v : Word, v.getLsbD 9 = true ∧ ev.event = .access (.write .word 0x04#5 v)))

/-! ### The line operations -/

/-- R101: LINE_RELEASE. -/
def Obligations.LineReleaseReleases : Prop :=
  (∀ w : Word, opc w = 0x1#4 → decode w = .lineRelease) ∧
  ∀ s : State, s.ReadyUntil (s.tick + 1) → ∃ t, exec .lineRelease s = .next t ∧
    Succeeds s t (s.tick + 1) .rel s.result ∧ (s.TraceHeld → Drives s t fun _ => .rel) ∧
    (t.line = .high ↔ devLow s.dev (s.tick + 1) = false)

/-- R102: LINE_LOW. -/
def Obligations.LineLowPullsLow : Prop :=
  (∀ w : Word, opc w = 0x2#4 → decode w = .lineLow) ∧
  ∀ s : State, s.ReadyUntil (s.tick + 1) → ∃ t, exec .lineLow s = .next t ∧
    Succeeds s t (s.tick + 1) .low s.result ∧ (s.TraceHeld → Drives s t fun _ => .low) ∧ t.line = .low

/-- R103: LINE_READ. The last clause, always 0 while DRV is LOW, the spec derives from R24. -/
def Obligations.LineReadSamplesTheLine : Prop :=
  (∀ w : Word, opc w = 0x3#4 → decode w = .lineRead) ∧
  ∀ s : State, s.ReadyUntil (s.tick + 1) → ∃ t, exec .lineRead s = .next t ∧ t.wave = s.wave ∧
    Succeeds s t (s.tick + 1) s.drv (if s.lineAt (s.tick + 1) = .high then 0x0001#16 else 0x0000#16) ∧
    (s.drv = .low → t.result = 0x0000#16)

/-- R104: WAIT n lasts exactly `n` ticks, and the driver holds. -/
def Obligations.WaitHoldsTheDriver : Prop :=
  (∀ w : Word, opc w = 0x4#4 → decode w = .wait (imm16 w)) ∧
  ∀ (n : BitVec 16) (s : State), s.ReadyUntil (s.tick + 1 + n.toNat) → ∃ t, exec (.wait n) s = .next t ∧
    t.wave = s.wave ∧ Succeeds s t (s.tick + 1 + n.toNat) s.drv s.result

/-! ### The bit codec -/

/-- R121: ENCODE_BIT b, with the phases of R120, ending released after T_SHORT + T_LONG ticks. -/
def Obligations.EncodeBitSendsOneCell : Prop :=
  (∀ w : Word, opc w = 0x5#4 → decode w = .encodeBit ((imm16 w).getLsbD 0)) ∧
  ∀ (b : Bool) (s : State), s.ReadyUntil (s.tick + 1 + Config.tShort + Config.tLong) →
    ∃ t, exec (.encodeBit b) s = .next t ∧
      Succeeds s t (s.tick + 1 + Config.tShort + Config.tLong) .rel s.result ∧
      (s.TraceHeld → Drives s t fun u =>
        if u < s.tick + 1 + (if b then Config.tShort else Config.tLong) then .low else .rel)

/-- R123: DECODE_BIT, for every line: value, end tick and flags. RESULT and the driver are unchanged. -/
def Obligations.DecodeBitMeasuresBothPhases : Prop :=
  (∀ w : Word, opc w = 0x6#4 → decode w = .decodeBit) ∧
  ∀ (s : State) (v : LogicalBit) (e : Nat), ReadsBit s.lineAt (s.tick + 1) v e → s.ReadyUntil e →
    exec .decodeBit s = .next { s with
      tick := e, bitval := v, ok := decide (v ≠ .error)
      errkind := if v = .error then .bitTimeout else .none }

/-- Law L1 (R125, which the spec derives): phases `lo` and `hi` within the bounds, then LOW, decode to whether
`lo < hi`; the cell of a bit `b` decodes to `b`. -/
def Obligations.BitRoundTrip : Prop :=
  ∀ (s : State) (lo hi : Nat), lo ≤ Config.maxWait → 1 ≤ hi → hi ≤ Config.maxWait →
    (∀ j, j < lo → s.lineAt (s.tick + 1 + j) = .low) → (∀ j, j < hi → s.lineAt (s.tick + 1 + lo + j) = .high) →
    s.lineAt (s.tick + 1 + lo + hi) = .low → s.ReadyUntil (s.tick + 1 + lo + hi) →
    ∃ t, exec .decodeBit s = .next t ∧ t.tick = s.tick + 1 + lo + hi ∧ t.ok = true ∧
      t.bitval = (if lo < hi then .one else .zero) ∧
      (∀ b : Bool, lo = lowTicks b → hi = highTicks b → t.bitval = if b then .one else .zero)

/-- Law L2 (R126, which the spec derives): a line that never changes gives ERROR, MAX_WAIT ticks after the start. -/
def Obligations.StuckLineTimesOut : Prop :=
  ∀ s : State, (∀ j, j ≤ Config.maxWait → s.lineAt (s.tick + 1 + j) = s.lineAt (s.tick + 1)) →
    s.ReadyUntil (s.tick + 1 + Config.maxWait) →
    ∃ t, exec .decodeBit s = .next t ∧ t.tick = s.tick + 1 + Config.maxWait ∧ t.bitval = .error ∧
      t.ok = false ∧ t.errkind = .bitTimeout ∧ t.result = s.result

/-- Law L4 (R128, which the spec derives): phases `a`, `b` and the same scaled by `k`, within the bounds, decode to the same
value. -/
def Obligations.DecodedValueIsScaleInvariant : Prop :=
  ∀ (s s' : State) (k a b : Nat), 1 ≤ k → 1 ≤ b → k * a ≤ Config.maxWait → k * b ≤ Config.maxWait →
    (∀ j, j < a → s.lineAt (s.tick + 1 + j) = .low) → (∀ j, j < b → s.lineAt (s.tick + 1 + a + j) = .high) →
    s.lineAt (s.tick + 1 + a + b) = .low → s.ReadyUntil (s.tick + 1 + a + b) →
    (∀ j, j < k * a → s'.lineAt (s'.tick + 1 + j) = .low) →
    (∀ j, j < k * b → s'.lineAt (s'.tick + 1 + k * a + j) = .high) →
    s'.lineAt (s'.tick + 1 + k * a + k * b) = .low → s'.ReadyUntil (s'.tick + 1 + k * a + k * b) →
    ∃ t t', exec .decodeBit s = .next t ∧ exec .decodeBit s' = .next t' ∧ t.bitval = t'.bitval ∧
      t.ok = true ∧ t'.ok = true

/-- Decoding does not drive: DECODE_BIT and DECODE_FRAME leave the driver as it is at every tick, also when the host
interrupts them (R124). -/
def Obligations.DecodingDoesNotDrive : Prop :=
  ∀ (s t : State) (lenm1 : BitVec 4), exec .decodeBit s = .next t ∨ exec (.decodeFrame lenm1) s = .next t →
    t.drv = s.drv ∧ t.wave = s.wave

/-- A decode while DRV is LOW (hazard HZ7, R260): DECODE_BIT reports BIT_TIMEOUT and DECODE_FRAME NO_START, MAX_WAIT
ticks after the start. -/
def Obligations.DecodingWhileDrivingFails : Prop :=
  ∀ (s : State) (lenm1 : BitVec 4), s.drv = .low → s.ReadyUntil (s.tick + 1 + Config.maxWait) →
    (∃ t, exec .decodeBit s = .next t ∧ t.tick = s.tick + 1 + Config.maxWait ∧ t.ok = false ∧
      t.errkind = .bitTimeout) ∧
    (∃ t, exec (.decodeFrame lenm1) s = .next t ∧
      FailsFrame s t (s.tick + 1 + Config.maxWait) .low .noStart)

/-! ### The frame codec -/

/-- R140: ENCODE_FRAME sends start, the low `n` bits MSB first, stop. -/
def Obligations.EncodeFrameSendsCells : Prop :=
  (∀ w : Word, opc w = 0x7#4 → decode w = .encodeFrame (lenm1Field w) (imm16 w)) ∧
  ∀ (lenm1 : BitVec 4) (wd : Half) (s : State) (n e : Nat), n = lenm1.toNat + 1 →
    e = s.tick + 1 + (n + 2) * (Config.tShort + Config.tLong) → s.ReadyUntil e →
    ∃ t, exec (.encodeFrame lenm1 wd) s = .next t ∧ Succeeds s t e .rel s.result ∧
      (s.TraceHeld → Drives s t (cellsDrive (n + 2) (frameBit wd n) (s.tick + 1)))

/-- R141 to R146: DECODE_FRAME, for every line: the word MSB first, or NO_START, or DATA_TIMEOUT, each at its tick; the
stop bit's value is discarded; RESULT after a failure is a free word. -/
def Obligations.DecodeFrameReadsOrFails : Prop :=
  (∀ w : Word, opc w = 0x8#4 → decode w = .decodeFrame (lenm1Field w)) ∧
  ∀ (lenm1 : BitVec 4) (s : State) (n wd e : Nat), n = lenm1.toNat + 1 → s.ReadyUntil e →
    (ReadsFrame s.lineAt (s.tick + 1) n wd e → ∃ t, exec (.decodeFrame lenm1) s = .next t ∧ t.wave = s.wave ∧
      Succeeds s t e s.drv (BitVec.ofNat 16 wd) ∧ t.result.toNat = wd ∧ wd < 2 ^ n) ∧
    (NoStart s.lineAt (s.tick + 1) e → ∃ t, exec (.decodeFrame lenm1) s = .next t ∧ t.wave = s.wave ∧
      FailsFrame s t e s.drv .noStart) ∧
    (DataTimeout s.lineAt (s.tick + 1) n e → ∃ t, exec (.decodeFrame lenm1) s = .next t ∧ t.wave = s.wave ∧
      FailsFrame s t e s.drv .dataTimeout)

/-- Law L5 (R147, which the spec derives): a frame on the line from the start tick decodes to its word, whatever the line
does after the stop cell's low phase. -/
def Obligations.FrameRoundTrip : Prop :=
  ∀ (lenm1 : BitVec 4) (wd : Half) (s : State) (n : Nat), n = lenm1.toNat + 1 → wd.toNat < 2 ^ n →
    (∀ u, s.tick + 1 ≤ u → u < s.tick + 1 + (n + 1) * cellTicks + Config.tLong →
      s.lineAt u = resolve (cellsDrive (n + 2) (frameBit wd n) (s.tick + 1) u) false) →
    s.ReadyUntil (s.tick + 1 + (n + 2) * (2 * Config.maxWait)) →
    ∃ t, exec (.decodeFrame lenm1) s = .next t ∧ t.result = wd ∧ t.ok = true ∧ t.errkind = .none ∧ t.seq = .idle

/-- Law L6 (R148, which the spec derives): a frame that began `g` ticks before the start tick, `0 < g < T_SHORT + T_LONG`,
still decodes to its word. -/
def Obligations.LateFrameStillDecodes : Prop :=
  ∀ (lenm1 : BitVec 4) (wd : Half) (s : State) (n p g : Nat), n = lenm1.toNat + 1 → wd.toNat < 2 ^ n →
    0 < g → g < Config.tShort + Config.tLong → s.tick + 1 = p + g →
    (∀ u, s.tick + 1 ≤ u → u < p + (n + 1) * cellTicks + Config.tLong →
      s.lineAt u = resolve (cellsDrive (n + 2) (frameBit wd n) p u) false) →
    s.ReadyUntil (s.tick + 1 + (n + 2) * (2 * Config.maxWait)) →
    ∃ t, exec (.decodeFrame lenm1) s = .next t ∧ t.result = wd ∧ t.ok = true ∧ t.errkind = .none ∧ t.seq = .idle

/-! ### The bus state machine -/

/-- R160, R36: RESET_BUS is low for T_RESET, then released; at its end tick LAST_RESET takes NOW and RSTV is set; no
other operation writes either; both are 0 at reset, and host writes to LAST_RESET are ignored. The tick is recorded. -/
def Obligations.ResetBusAndLastReset : Prop :=
  (∀ w : Word, opc w = 0x9#4 → decode w = .resetBus) ∧
  (∀ (s : State) (e : Nat), e = s.tick + 1 + Config.tReset → s.ReadyUntil e → ∃ t, exec .resetBus s = .next t ∧
    t = { s with
      tick := e, drv := .rel, wave := t.wave, ok := true, bitval := .zero, errkind := .none
      lastReset := BitVec.ofNat 32 ((e - s.epoch) % 2 ^ 32), rstv := true, busResetEnd := some e } ∧
    (s.TraceHeld → Drives s t fun u => if u < e then .low else .rel)) ∧
  (∀ (i : Instr) (s t : State), i ≠ .resetBus → exec i s = .next t →
    t.lastReset = s.lastReset ∧ t.rstv = s.rstv ∧ t.busResetEnd = s.busResetEnd) ∧
  State.reset.lastReset = 0x00000000#32 ∧ State.reset.rstv = false ∧
  (∀ (s : State) (n : Nat) (v : Word) (rest : List HostEvent),
    s.nextEvent = some (⟨n, .access (.write .word 0x10#5 v)⟩, rest) → step s = .next { s with host := rest })

/-- R161: ATTENTION is low for T_ATTN, then released. -/
def Obligations.AttentionPulse : Prop :=
  (∀ w : Word, opc w = 0xA#4 → decode w = .attention) ∧
  ∀ s : State, s.ReadyUntil (s.tick + 1 + Config.tAttn) → ∃ t, exec .attention s = .next t ∧
    Succeeds s t (s.tick + 1 + Config.tAttn) .rel s.result ∧
    (s.TraceHeld → Drives s t fun u => if u < s.tick + 1 + Config.tAttn then .low else .rel)

/-- R162: SYNC is released for T_SYNC, then low, and the low is held. -/
def Obligations.SyncEndsLow : Prop :=
  (∀ w : Word, opc w = 0xB#4 → decode w = .sync) ∧
  ∀ s : State, s.ReadyUntil (s.tick + 1 + Config.tSync) → ∃ t, exec .sync s = .next t ∧
    Succeeds s t (s.tick + 1 + Config.tSync) .low s.result ∧
    (s.TraceHeld → Drives s t fun u => if u < s.tick + 1 + Config.tSync then .rel else .low)

/-- R163: SEND_COMMAND c, for any byte: attention, sync, nine cells MSB first, in 1770 ticks with the defaults. -/
def Obligations.SendCommandWaveform : Prop :=
  (∀ w : Word, opc w = 0xC#4 → decode w = .sendCommand ((imm16 w).extractLsb' 0 8)) ∧
  ∀ (c : Byte) (s : State) (e : Nat), e = s.tick + 1 + 1770 → s.ReadyUntil e →
    ∃ t, exec (.sendCommand c) s = .next t ∧ Succeeds s t e .rel s.result ∧
      (s.TraceHeld → Drives s t (commandDrive c (s.tick + 1)))

/-- R164: TURNAROUND x: released; RESULT 0 after T_TURN without a response expected; else the poll's outcome. -/
def Obligations.TurnaroundPollsForADevice : Prop :=
  (∀ w : Word, opc w = 0xD#4 → decode w = .turnaround ((imm16 w).getLsbD 0)) ∧
  ∀ s : State,
    (s.ReadyUntil (s.tick + 1 + Config.tTurn) → ∃ t, exec (.turnaround false) s = .next t ∧
      Succeeds s t (s.tick + 1 + Config.tTurn) .rel 0x0000#16 ∧ (s.TraceHeld → Drives s t fun _ => .rel)) ∧
    (∀ seen e, PollEnds s.releasedLine (s.tick + 1 + Config.tTurn) seen e → s.ReadyUntil e →
      ∃ t, exec (.turnaround true) s = .next t ∧
        Succeeds s t e .rel (if seen then 0x0001#16 else 0x0000#16) ∧ (s.TraceHeld → Drives s t fun _ => .rel))

/-- Hazard HZ2 (R255, which the spec derives): SYNC issued alone ends with the line driven low, at tick `p`; a bit cell
written at any later tick `q` starts `g = q + 1 - p` ticks after it, and its low phase is longer by `g`. -/
def Obligations.SyncAloneLengthensTheNextCell : Prop :=
  ∀ (b : Bool) (s : State) (p q g : Nat), p = s.tick + 1 + Config.tSync → p ≤ q → g = q + 1 - p → s.TraceHeld →
    s.ReadyUntil (q + 1 + cellTicks) →
    ∃ s1 t, exec .sync s = .next s1 ∧ s1.tick = p ∧ exec (.encodeBit b) { s1 with tick := q } = .next t ∧
      (∀ u, s.tick < u → u < p → t.drvAt u = .rel) ∧ (∀ u, p ≤ u → u < p + (g + cellLow b) → t.drvAt u = .low) ∧
      (∀ u, p + (g + cellLow b) ≤ u → t.drvAt u = .rel)

/-! ### Composer and transactions -/

/-- R191: COMPOSE for the three bus operations: RESULT is the command byte, in 0 ticks, and nothing on the line. -/
def Obligations.ComposeGivesTheCommandByte : Prop :=
  (∀ w : Word, opc w = 0xE#4 →
    decode w = if cmdop w = Config.cmdTalk then .composeTalk (regField w) (addrField w)
      else if cmdop w = Config.cmdListen then .composeListen (regField w) (addrField w)
      else if cmdop w = Config.cmdFlush then .composeFlush (regField w) (addrField w) else .reservedECmdop) ∧
  ∀ (reg : BitVec 2) (addr : BitVec 4) (s : State), s.ReadyUntil (s.tick + 1) →
    ∀ row ∈ [(Instr.composeTalk reg addr, Config.cmdTalk), (Instr.composeListen reg addr, Config.cmdListen),
        (Instr.composeFlush reg addr, Config.cmdFlush)],
      ∃ t, exec row.1 s = .next t ∧ t.wave = s.wave ∧
        Succeeds s t (s.tick + 1) s.drv (BitVec.ofNat 16 (addr.toNat * 16 + row.2.toNat * 4 + reg.toNat))

/-- R192: TALK: the command byte {ADDR, CMD_TALK, REG}, the turnaround with its poll, and from the poll's end tick `d` a
16-bit frame: its word, or NO_START, or DATA_TIMEOUT. The line stays released after the command. -/
def Obligations.TalkReadsARegister : Prop :=
  (∀ w : Word, opc w = 0xF#4 → cmdop w = Config.cmdTalk → decode w = .talk (regField w) (addrField w)) ∧
  ∀ (reg : BitVec 2) (addr : BitVec 4) (s : State) (seen : Bool) (d wd e : Nat),
    PollEnds s.releasedLine (s.tick + 1 + 1770 + Config.tTurn) seen d → s.ReadyUntil e →
    (ReadsFrame s.releasedLine d 16 wd e → ∃ t, exec (.talk reg addr) s = .next t ∧
      Succeeds s t e .rel (BitVec.ofNat 16 wd) ∧ t.result.toNat = wd ∧
      (s.TraceHeld → Drives s t (commandDrive (composeByte Config.cmdTalk addr reg) (s.tick + 1)))) ∧
    (NoStart s.releasedLine d e → ∃ t, exec (.talk reg addr) s = .next t ∧ FailsFrame s t e .rel .noStart ∧
      (s.TraceHeld → Drives s t (commandDrive (composeByte Config.cmdTalk addr reg) (s.tick + 1)))) ∧
    (DataTimeout s.releasedLine d 16 e → ∃ t, exec (.talk reg addr) s = .next t ∧
      FailsFrame s t e .rel .dataTimeout ∧
      (s.TraceHeld → Drives s t (commandDrive (composeByte Config.cmdTalk addr reg) (s.tick + 1))))

/-- An absent device (the corner case of R192): TALK ends with NO_START, 2235 ticks after its start. -/
def Obligations.AbsentDeviceGivesNoStart : Prop :=
  ∀ (reg : BitVec 2) (addr : BitVec 4) (s : State),
    (∀ u, s.tick + 1 + 1910 ≤ u → u ≤ s.tick + 1 + 2235 → devLow s.dev u = false) →
    s.ReadyUntil (s.tick + 1 + 2235) →
    ∃ t, exec (.talk reg addr) s = .next t ∧ FailsFrame s t (s.tick + 1 + 2235) .rel .noStart

/-- R193: LISTEN: the command, the turnaround without a response expected, then the word's frame, in 3710 ticks with the
defaults; RESULT is unchanged. -/
def Obligations.ListenWritesARegister : Prop :=
  (∀ w : Word, opc w = 0xF#4 → cmdop w = Config.cmdListen →
    decode w = .listen (regField w) (addrField w) (imm16 w)) ∧
  ∀ (reg : BitVec 2) (addr : BitVec 4) (wd : Half) (s : State) (e : Nat), e = s.tick + 1 + 3710 → s.ReadyUntil e →
    ∃ t, exec (.listen reg addr wd) s = .next t ∧ Succeeds s t e .rel s.result ∧
      (s.TraceHeld → Drives s t fun u =>
        if u < s.tick + 1 + 1910 then commandDrive (composeByte Config.cmdListen addr reg) (s.tick + 1) u
        else cellsDrive 18 (frameBit wd 16) (s.tick + 1 + 1910) u)

/-- R194: FLUSH: the command and the turnaround without a response expected, in 1910 ticks with the defaults; RESULT is
unchanged. -/
def Obligations.FlushSendsItsCommand : Prop :=
  (∀ w : Word, opc w = 0xF#4 → cmdop w = Config.cmdFlush → decode w = .flush (regField w) (addrField w)) ∧
  ∀ (reg : BitVec 2) (addr : BitVec 4) (s : State) (e : Nat), e = s.tick + 1 + 1910 → s.ReadyUntil e →
    ∃ t, exec (.flush reg addr) s = .next t ∧ Succeeds s t e .rel s.result ∧
      (s.TraceHeld → Drives s t (commandDrive (composeByte Config.cmdFlush addr reg) (s.tick + 1)))

/-- The three reserved encodings set ILL and do nothing else, with BUSY = 0 (R232). -/
def Obligations.ReservedEncodingsOnlyFlagIll : Prop :=
  ∀ (i : Instr) (s : State), i.wf = false → s.seq = .idle → s.inReset = false →
    exec i s = .next { s with ill := true, errors := ⟨s.tick, .ill⟩ :: s.errors }

/-! ### All operations -/

/-- Whatever the devices do, every operation reaches its end tick, within the bound of R263. -/
def Obligations.EveryOperationEndsInItsBound : Prop :=
  ∀ (i : Instr) (s : State), s.ReadyUntil (s.tick + 1 + i.maxTicks) →
    ∃ t, exec i s = .next t ∧ t.seq = .idle ∧ (i.wf = true → s.tick + 1 ≤ t.tick) ∧
      t.tick ≤ s.tick + 1 + i.maxTicks

/-- R106: an operation that does not sample the line by its own rule does the same for every device trace. -/
def Obligations.TransmissionIgnoresDevices : Prop :=
  ∀ (i : Instr) (s : State) (d : List Pull), i.neverSamples = true →
    ∃ t, exec i s = .next t ∧ exec i { s with dev := d } = .next { t with dev := d }

/-- Until its end tick an operation changes no output (R41): when it is issued only the tick, the driver and the sequencer
change; in any later step that leaves it running, also the schedule, what was read, and the host-error flags. -/
def Obligations.OutputsChangeOnlyAtTheEnd : Prop :=
  (∀ (i : Instr) (s t : State), s.seq = .idle → exec i s = .next t → t.seq ≠ .idle →
    t = { s with tick := t.tick, drv := t.drv, wave := t.wave, seq := t.seq }) ∧
  (∀ (s t : State) (x : Exec), s.Inv → s.seq = .exec x → step s = .next t → t.seq ≠ .idle →
    t = { s with
      tick := t.tick, drv := t.drv, wave := t.wave, seq := t.seq, host := t.host, reads := t.reads, ovr := t.ovr
      ill := t.ill, errors := t.errors })

/-- After every completed operation, OK = 0 exactly when ERRKIND is not 0 (R32, which the spec derives), and BITVAL is 0
unless it was a DECODE_BIT (R31). -/
def Obligations.CompletionSetsOkOrErrkind : Prop :=
  ∀ (i : Instr) (s t : State), i.wf = true → s.seq = .idle → s.inReset = false → exec i s = .next t → t.seq = .idle →
    (t.ok = false ↔ t.errkind ≠ .none) ∧ (i ≠ .decodeBit → t.bitval = .zero)

/-- The frame of every operation: OPWORD, the inputs, the time base, the reads and the reset input never change; RESULT and
the free words change only by the operations of R34; OVR and ILL only as host errors. -/
def Obligations.OperationFrame : Prop :=
  ∀ (i : Instr) (s t : State), exec i s = .next t →
    t.opword = s.opword ∧ t.dev = s.dev ∧ t.host = s.host ∧ t.epoch = s.epoch ∧ t.reads = s.reads ∧
    t.inReset = s.inReset ∧ (i.writesResult = false → t.result = s.result ∧ t.draws = s.draws) ∧
    (s.seq = .idle → i.wf = true → t.ovr = s.ovr ∧ t.ill = s.ill ∧ t.errors = s.errors)

/-- No host access aborts or changes a running operation (R63, R233, R235). Whatever legal accesses `now` the host makes
before the end tick, polls of STATUS for instance, and whatever `rest` comes after: an operation that runs, or is issued,
ends as it would with an empty schedule, changing no output before. -/
def Obligations.HostAccessesDoNotDisturb : Prop :=
  (∀ (s t : State) (x : Exec) (now rest : List HostEvent), s.Inv → s.seq = .exec x → s.host = now ++ rest →
    step { s with host := [] } = .next t → AccessesBefore t.tick now rest → t.seq = .idle ∧ EndsAs s t rest) ∧
  (∀ (i : Instr) (s t : State) (now rest : List HostEvent), i.wf = true → s.Inv → s.seq = .idle →
    s.inReset = false → s.host = now ++ rest → exec i { s with host := [] } = .next t →
    AccessesBefore t.tick now rest → t.seq = .idle ∧ ∃ s1, exec i s = .next s1 ∧ EndsAs s1 t rest)

/-- Within a tick the block acts first (R61): an operation that ends at or before the next event's tick, just issued or
running for long, ends as if there were none, so at its end tick the host finds BUSY = 0 and the new outputs, and the block
takes a next word. The host's accesses of one tick, out of reset, come in program order. -/
def Obligations.BlockActsBeforeTheHost : Prop :=
  (∀ (i : Instr) (s t : State) (ev : HostEvent) (rest : List HostEvent), s.seq = .idle → s.inReset = false →
    exec i { s with host := [] } = .next t → t.tick ≤ ev.tick →
    exec i { s with host := ev :: rest } = .next { t with host := ev :: rest } ∧ t.seq = .idle) ∧
  (∀ (s t : State) (x : Exec) (ev : HostEvent) (rest : List HostEvent), s.Inv → s.seq = .exec x →
    step { s with host := [] } = .next t → t.tick ≤ ev.tick →
    step { s with host := ev :: rest } = .next { t with host := ev :: rest } ∧ t.seq = .idle) ∧
  (∀ (s : State) (ev : HostEvent) (rest : List HostEvent), s.inReset = false → s.host = ev :: rest → ev.tick ≤ s.tick →
    (∀ e ∈ s.dueEvents, ∃ a : Access, e.event = .access a) → s.nextEvent = some (ev, rest))

/-! ### Reset and invariant -/

/-- R39: the reset values, right after reset and whenever the reset input is asserted; a running operation is abandoned and
its outputs are not written. The driver trace is cut there and released (R250, R251); time, inputs and records go on, and
the devices' re-initialization time still runs (R252). The driver changes between ticks (R20), so reset acts before the
accesses of its tick, whatever their place in the schedule (log entry 8). -/
def Obligations.BlockResetValues : Prop :=
  (∀ r : State, (r = State.reset ∨ ∃ (s : State) (n : Nat) (rest : List HostEvent),
      s.nextEvent = some (⟨n, .resetAssert⟩, rest) ∧ step s = .next r) →
    r.drv = .rel ∧ r.opword = 0x00000000#32 ∧ r.seq = .idle ∧ r.ok = false ∧ r.bitval = .zero ∧ r.errkind = .none ∧
    r.ovr = false ∧ r.ill = false ∧ r.rstv = false ∧ r.result = 0x0000#16 ∧ r.lastReset = 0x00000000#32 ∧
    r.now = 0#32 ∧ (r.line = .high ↔ devLow r.dev r.tick = false) ∧
    r.status = (if devLow r.dev r.tick then 0x00000000#32 else 0x00010000#32)) ∧
  (∀ (s : State) (n : Nat) (rest : List HostEvent), s.nextEvent = some (⟨n, .resetAssert⟩, rest) →
    ∃ r, step s = .next r ∧ r.inReset = true ∧ r.tick = s.tick ∧ r.epoch = s.epoch ∧ r.dev = s.dev ∧ r.host = rest ∧
      r.reads = s.reads ∧ r.errors = s.errors ∧ r.busResetEnd = s.busResetEnd ∧ r.draws = s.draws ∧
      (∀ p, r.Reinitialized p ↔ s.Reinitialized p) ∧
      (s.Inv → ∀ u, r.drvAt u = if u < s.tick then s.drvAt u else .rel)) ∧
  (∀ (s : State) (accesses : List HostEvent) (n : Nat) (rest : List HostEvent), s.inReset = false →
    s.host = accesses ++ ⟨n, .resetAssert⟩ :: rest → n ≤ s.tick →
    (∀ e ∈ accesses, e.tick ≤ s.tick ∧ ∃ a : Access, e.event = .access a) →
    s.nextEvent = some (⟨n, .resetAssert⟩, accesses ++ rest))

/-- The release of the reset input (R250): the next tick is the block's tick 0, with NOW = 0. That the tick of the release
still counts as reset is the model's reading (log entry 7); so the accesses of that tick come before it. -/
def Obligations.ReleasedBlockStartsAtTickZero : Prop :=
  (∀ (s : State) (n : Nat) (rest : List HostEvent), s.nextEvent = some (⟨n, .resetRelease⟩, rest) →
    s.inReset = true →
    ∃ t, step s = .next t ∧ t.now = 0#32 ∧
      t = { s with host := rest, inReset := false, tick := s.tick + 1, epoch := s.tick + 1 }) ∧
  (∀ (s : State) (edges : List HostEvent) (n : Nat) (a : Access) (rest : List HostEvent), s.inReset = true →
    s.host = edges ++ ⟨n, .access a⟩ :: rest → n ≤ s.tick →
    (∀ e ∈ edges, e.tick ≤ s.tick ∧ (e.event = .resetAssert ∨ e.event = .resetRelease)) →
    s.nextEvent = some (⟨n, .access a⟩, edges ++ rest))

/-- The invariant holds right after reset. -/
def Obligations.ResetHasInvariant : Prop := State.reset.Inv

/-- Every step keeps the invariant, from every state that has it. -/
def Obligations.StepKeepsInvariant : Prop := ∀ s t : State, s.Inv → step s = .next t → t.Inv

/-! ### Host software above the block -/

/-- R212: a masked merge leaves every bit outside the mask as it was, and takes every bit inside from the new value. -/
def Obligations.MaskedMergePreservesOtherBits : Prop :=
  ∀ (cur nv m : Half) (i : Nat), i < 16 →
    (m.getLsbD i = false → (mergeMasked cur nv m).getLsbD i = cur.getLsbD i) ∧
    (m.getLsbD i = true → (mergeMasked cur nv m).getLsbD i = nv.getLsbD i)

/-- The register-3 update (R211, R213, R214), whatever time the host lets pass before each operation and whatever else is
in the schedule: an answer `true` is given in a state with BUSY = 0 whose OK and RESULT say that the masked bits read back
as the new ones. If no device answers the first read, the answer is the plain `false` at that read's end tick, and nothing
more is sent. -/
def Obligations.UpdateRegister3FailsFastOrVerifies : Prop :=
  (∀ (gap : Nat → Nat) (a : BitVec 4) (nv m : Half) (s t : State), updateRegister3 gap a nv m s = .next (t, true) →
    t.seq = .idle ∧ t.ok = true ∧ t.result &&& m = nv &&& m) ∧
  (∀ (gap : Nat → Nat) (a : BitVec 4) (nv m : Half) (s : State) (p : Nat), p = s.tick + gap 0 + 1 →
    (∀ u, p + 1910 ≤ u → u ≤ p + 2235 → devLow s.dev u = false) → s.ReadyUntil (p + 2235) →
    ∃ t, updateRegister3 gap a nv m s = .next (t, false) ∧ t.tick = p + 2235 ∧ t.errkind = .noStart ∧
      t.opword = encode (.talk 3#2 a) ∧ t.host = s.host)
end

