-- ==== Sys2Proof/Laws/State.lean ====
section
/-! SUPPORT. What each update of State does to each field: one lemma per field per update. -/

namespace Sys2Proof.Machine

/-! ### setDrv -/

@[simp] theorem setDrv_tick (t : Nat) (d : Drive) (s : State) : (s.setDrv t d).tick = s.tick := rfl
@[simp] theorem setDrv_epoch (t : Nat) (d : Drive) (s : State) : (s.setDrv t d).epoch = s.epoch := rfl
@[simp] theorem setDrv_inReset (t : Nat) (d : Drive) (s : State) : (s.setDrv t d).inReset = s.inReset := rfl
@[simp] theorem setDrv_drv (t : Nat) (d : Drive) (s : State) : (s.setDrv t d).drv = d := rfl
@[simp] theorem setDrv_opword (t : Nat) (d : Drive) (s : State) : (s.setDrv t d).opword = s.opword := rfl
@[simp] theorem setDrv_ok (t : Nat) (d : Drive) (s : State) : (s.setDrv t d).ok = s.ok := rfl
@[simp] theorem setDrv_bitval (t : Nat) (d : Drive) (s : State) : (s.setDrv t d).bitval = s.bitval := rfl
@[simp] theorem setDrv_errkind (t : Nat) (d : Drive) (s : State) : (s.setDrv t d).errkind = s.errkind := rfl
@[simp] theorem setDrv_ovr (t : Nat) (d : Drive) (s : State) : (s.setDrv t d).ovr = s.ovr := rfl
@[simp] theorem setDrv_ill (t : Nat) (d : Drive) (s : State) : (s.setDrv t d).ill = s.ill := rfl
@[simp] theorem setDrv_rstv (t : Nat) (d : Drive) (s : State) : (s.setDrv t d).rstv = s.rstv := rfl
@[simp] theorem setDrv_result (t : Nat) (d : Drive) (s : State) : (s.setDrv t d).result = s.result := rfl
@[simp] theorem setDrv_lastReset (t : Nat) (d : Drive) (s : State) : (s.setDrv t d).lastReset = s.lastReset := rfl
@[simp] theorem setDrv_seq (t : Nat) (d : Drive) (s : State) : (s.setDrv t d).seq = s.seq := rfl
@[simp] theorem setDrv_dev (t : Nat) (d : Drive) (s : State) : (s.setDrv t d).dev = s.dev := rfl
@[simp] theorem setDrv_host (t : Nat) (d : Drive) (s : State) : (s.setDrv t d).host = s.host := rfl
@[simp] theorem setDrv_wave (t : Nat) (d : Drive) (s : State) : (s.setDrv t d).wave = (if s.drv = d then s.wave else { tick := t, drive := d } :: s.wave) := rfl
@[simp] theorem setDrv_reads (t : Nat) (d : Drive) (s : State) : (s.setDrv t d).reads = s.reads := rfl
@[simp] theorem setDrv_errors (t : Nat) (d : Drive) (s : State) : (s.setDrv t d).errors = s.errors := rfl
@[simp] theorem setDrv_draws (t : Nat) (d : Drive) (s : State) : (s.setDrv t d).draws = s.draws := rfl
@[simp] theorem setDrv_busResetEnd (t : Nat) (d : Drive) (s : State) : (s.setDrv t d).busResetEnd = s.busResetEnd := rfl

/-! ### flagOvr -/

@[simp] theorem flagOvr_tick (s : State) : s.flagOvr.tick = s.tick := rfl
@[simp] theorem flagOvr_epoch (s : State) : s.flagOvr.epoch = s.epoch := rfl
@[simp] theorem flagOvr_inReset (s : State) : s.flagOvr.inReset = s.inReset := rfl
@[simp] theorem flagOvr_drv (s : State) : s.flagOvr.drv = s.drv := rfl
@[simp] theorem flagOvr_opword (s : State) : s.flagOvr.opword = s.opword := rfl
@[simp] theorem flagOvr_ok (s : State) : s.flagOvr.ok = s.ok := rfl
@[simp] theorem flagOvr_bitval (s : State) : s.flagOvr.bitval = s.bitval := rfl
@[simp] theorem flagOvr_errkind (s : State) : s.flagOvr.errkind = s.errkind := rfl
@[simp] theorem flagOvr_ovr (s : State) : s.flagOvr.ovr = true := rfl
@[simp] theorem flagOvr_ill (s : State) : s.flagOvr.ill = s.ill := rfl
@[simp] theorem flagOvr_rstv (s : State) : s.flagOvr.rstv = s.rstv := rfl
@[simp] theorem flagOvr_result (s : State) : s.flagOvr.result = s.result := rfl
@[simp] theorem flagOvr_lastReset (s : State) : s.flagOvr.lastReset = s.lastReset := rfl
@[simp] theorem flagOvr_seq (s : State) : s.flagOvr.seq = s.seq := rfl
@[simp] theorem flagOvr_dev (s : State) : s.flagOvr.dev = s.dev := rfl
@[simp] theorem flagOvr_host (s : State) : s.flagOvr.host = s.host := rfl
@[simp] theorem flagOvr_wave (s : State) : s.flagOvr.wave = s.wave := rfl
@[simp] theorem flagOvr_reads (s : State) : s.flagOvr.reads = s.reads := rfl
@[simp] theorem flagOvr_errors (s : State) : s.flagOvr.errors = ({ tick := s.tick, error := .ovr } :: s.errors) := rfl
@[simp] theorem flagOvr_draws (s : State) : s.flagOvr.draws = s.draws := rfl
@[simp] theorem flagOvr_busResetEnd (s : State) : s.flagOvr.busResetEnd = s.busResetEnd := rfl

/-! ### flagIll -/

@[simp] theorem flagIll_tick (s : State) : s.flagIll.tick = s.tick := rfl
@[simp] theorem flagIll_epoch (s : State) : s.flagIll.epoch = s.epoch := rfl
@[simp] theorem flagIll_inReset (s : State) : s.flagIll.inReset = s.inReset := rfl
@[simp] theorem flagIll_drv (s : State) : s.flagIll.drv = s.drv := rfl
@[simp] theorem flagIll_opword (s : State) : s.flagIll.opword = s.opword := rfl
@[simp] theorem flagIll_ok (s : State) : s.flagIll.ok = s.ok := rfl
@[simp] theorem flagIll_bitval (s : State) : s.flagIll.bitval = s.bitval := rfl
@[simp] theorem flagIll_errkind (s : State) : s.flagIll.errkind = s.errkind := rfl
@[simp] theorem flagIll_ovr (s : State) : s.flagIll.ovr = s.ovr := rfl
@[simp] theorem flagIll_ill (s : State) : s.flagIll.ill = true := rfl
@[simp] theorem flagIll_rstv (s : State) : s.flagIll.rstv = s.rstv := rfl
@[simp] theorem flagIll_result (s : State) : s.flagIll.result = s.result := rfl
@[simp] theorem flagIll_lastReset (s : State) : s.flagIll.lastReset = s.lastReset := rfl
@[simp] theorem flagIll_seq (s : State) : s.flagIll.seq = s.seq := rfl
@[simp] theorem flagIll_dev (s : State) : s.flagIll.dev = s.dev := rfl
@[simp] theorem flagIll_host (s : State) : s.flagIll.host = s.host := rfl
@[simp] theorem flagIll_wave (s : State) : s.flagIll.wave = s.wave := rfl
@[simp] theorem flagIll_reads (s : State) : s.flagIll.reads = s.reads := rfl
@[simp] theorem flagIll_errors (s : State) : s.flagIll.errors = ({ tick := s.tick, error := .ill } :: s.errors) := rfl
@[simp] theorem flagIll_draws (s : State) : s.flagIll.draws = s.draws := rfl
@[simp] theorem flagIll_busResetEnd (s : State) : s.flagIll.busResetEnd = s.busResetEnd := rfl

/-! ### clearFlags -/

@[simp] theorem clearFlags_tick (v : Word) (s : State) : (s.clearFlags v).tick = s.tick := rfl
@[simp] theorem clearFlags_epoch (v : Word) (s : State) : (s.clearFlags v).epoch = s.epoch := rfl
@[simp] theorem clearFlags_inReset (v : Word) (s : State) : (s.clearFlags v).inReset = s.inReset := rfl
@[simp] theorem clearFlags_drv (v : Word) (s : State) : (s.clearFlags v).drv = s.drv := rfl
@[simp] theorem clearFlags_opword (v : Word) (s : State) : (s.clearFlags v).opword = s.opword := rfl
@[simp] theorem clearFlags_ok (v : Word) (s : State) : (s.clearFlags v).ok = s.ok := rfl
@[simp] theorem clearFlags_bitval (v : Word) (s : State) : (s.clearFlags v).bitval = s.bitval := rfl
@[simp] theorem clearFlags_errkind (v : Word) (s : State) : (s.clearFlags v).errkind = s.errkind := rfl
@[simp] theorem clearFlags_ovr (v : Word) (s : State) : (s.clearFlags v).ovr = (s.ovr && !v.getLsbD 8) := rfl
@[simp] theorem clearFlags_ill (v : Word) (s : State) : (s.clearFlags v).ill = (s.ill && !v.getLsbD 9) := rfl
@[simp] theorem clearFlags_rstv (v : Word) (s : State) : (s.clearFlags v).rstv = s.rstv := rfl
@[simp] theorem clearFlags_result (v : Word) (s : State) : (s.clearFlags v).result = s.result := rfl
@[simp] theorem clearFlags_lastReset (v : Word) (s : State) : (s.clearFlags v).lastReset = s.lastReset := rfl
@[simp] theorem clearFlags_seq (v : Word) (s : State) : (s.clearFlags v).seq = s.seq := rfl
@[simp] theorem clearFlags_dev (v : Word) (s : State) : (s.clearFlags v).dev = s.dev := rfl
@[simp] theorem clearFlags_host (v : Word) (s : State) : (s.clearFlags v).host = s.host := rfl
@[simp] theorem clearFlags_wave (v : Word) (s : State) : (s.clearFlags v).wave = s.wave := rfl
@[simp] theorem clearFlags_reads (v : Word) (s : State) : (s.clearFlags v).reads = s.reads := rfl
@[simp] theorem clearFlags_errors (v : Word) (s : State) : (s.clearFlags v).errors = s.errors := rfl
@[simp] theorem clearFlags_draws (v : Word) (s : State) : (s.clearFlags v).draws = s.draws := rfl
@[simp] theorem clearFlags_busResetEnd (v : Word) (s : State) : (s.clearFlags v).busResetEnd = s.busResetEnd := rfl

/-! ### answerRead -/

@[simp] theorem answerRead_tick (off : BitVec 5) (s : State) : (s.answerRead off).tick = s.tick := rfl
@[simp] theorem answerRead_epoch (off : BitVec 5) (s : State) : (s.answerRead off).epoch = s.epoch := rfl
@[simp] theorem answerRead_inReset (off : BitVec 5) (s : State) : (s.answerRead off).inReset = s.inReset := rfl
@[simp] theorem answerRead_drv (off : BitVec 5) (s : State) : (s.answerRead off).drv = s.drv := rfl
@[simp] theorem answerRead_opword (off : BitVec 5) (s : State) : (s.answerRead off).opword = s.opword := rfl
@[simp] theorem answerRead_ok (off : BitVec 5) (s : State) : (s.answerRead off).ok = s.ok := rfl
@[simp] theorem answerRead_bitval (off : BitVec 5) (s : State) : (s.answerRead off).bitval = s.bitval := rfl
@[simp] theorem answerRead_errkind (off : BitVec 5) (s : State) : (s.answerRead off).errkind = s.errkind := rfl
@[simp] theorem answerRead_ovr (off : BitVec 5) (s : State) : (s.answerRead off).ovr = s.ovr := rfl
@[simp] theorem answerRead_ill (off : BitVec 5) (s : State) : (s.answerRead off).ill = s.ill := rfl
@[simp] theorem answerRead_rstv (off : BitVec 5) (s : State) : (s.answerRead off).rstv = s.rstv := rfl
@[simp] theorem answerRead_result (off : BitVec 5) (s : State) : (s.answerRead off).result = s.result := rfl
@[simp] theorem answerRead_lastReset (off : BitVec 5) (s : State) : (s.answerRead off).lastReset = s.lastReset := rfl
@[simp] theorem answerRead_seq (off : BitVec 5) (s : State) : (s.answerRead off).seq = s.seq := rfl
@[simp] theorem answerRead_dev (off : BitVec 5) (s : State) : (s.answerRead off).dev = s.dev := rfl
@[simp] theorem answerRead_host (off : BitVec 5) (s : State) : (s.answerRead off).host = s.host := rfl
@[simp] theorem answerRead_wave (off : BitVec 5) (s : State) : (s.answerRead off).wave = s.wave := rfl
@[simp] theorem answerRead_reads (off : BitVec 5) (s : State) : (s.answerRead off).reads = ({ tick := s.tick, offset := off, value := s.regRead off } :: s.reads) := rfl
@[simp] theorem answerRead_errors (off : BitVec 5) (s : State) : (s.answerRead off).errors = s.errors := rfl
@[simp] theorem answerRead_draws (off : BitVec 5) (s : State) : (s.answerRead off).draws = s.draws := rfl
@[simp] theorem answerRead_busResetEnd (off : BitVec 5) (s : State) : (s.answerRead off).busResetEnd = s.busResetEnd := rfl

/-! ### latchWord -/

@[simp] theorem latchWord_tick (w : Word) (s : State) : (s.latchWord w).tick = s.tick := rfl
@[simp] theorem latchWord_epoch (w : Word) (s : State) : (s.latchWord w).epoch = s.epoch := rfl
@[simp] theorem latchWord_inReset (w : Word) (s : State) : (s.latchWord w).inReset = s.inReset := rfl
@[simp] theorem latchWord_drv (w : Word) (s : State) : (s.latchWord w).drv = s.drv := rfl
@[simp] theorem latchWord_opword (w : Word) (s : State) : (s.latchWord w).opword = (if (decode w).wf then w else s.opword) := rfl
@[simp] theorem latchWord_ok (w : Word) (s : State) : (s.latchWord w).ok = s.ok := rfl
@[simp] theorem latchWord_bitval (w : Word) (s : State) : (s.latchWord w).bitval = s.bitval := rfl
@[simp] theorem latchWord_errkind (w : Word) (s : State) : (s.latchWord w).errkind = s.errkind := rfl
@[simp] theorem latchWord_ovr (w : Word) (s : State) : (s.latchWord w).ovr = s.ovr := rfl
@[simp] theorem latchWord_ill (w : Word) (s : State) : (s.latchWord w).ill = s.ill := rfl
@[simp] theorem latchWord_rstv (w : Word) (s : State) : (s.latchWord w).rstv = s.rstv := rfl
@[simp] theorem latchWord_result (w : Word) (s : State) : (s.latchWord w).result = s.result := rfl
@[simp] theorem latchWord_lastReset (w : Word) (s : State) : (s.latchWord w).lastReset = s.lastReset := rfl
@[simp] theorem latchWord_seq (w : Word) (s : State) : (s.latchWord w).seq = s.seq := rfl
@[simp] theorem latchWord_dev (w : Word) (s : State) : (s.latchWord w).dev = s.dev := rfl
@[simp] theorem latchWord_host (w : Word) (s : State) : (s.latchWord w).host = s.host := rfl
@[simp] theorem latchWord_wave (w : Word) (s : State) : (s.latchWord w).wave = s.wave := rfl
@[simp] theorem latchWord_reads (w : Word) (s : State) : (s.latchWord w).reads = s.reads := rfl
@[simp] theorem latchWord_errors (w : Word) (s : State) : (s.latchWord w).errors = s.errors := rfl
@[simp] theorem latchWord_draws (w : Word) (s : State) : (s.latchWord w).draws = s.draws := rfl
@[simp] theorem latchWord_busResetEnd (w : Word) (s : State) : (s.latchWord w).busResetEnd = s.busResetEnd := rfl

/-! ### park -/

@[simp] theorem park_tick (todo : List Phase) (x : Exec) (s : State) : (park todo x s).tick = s.hostTick := rfl
@[simp] theorem park_epoch (todo : List Phase) (x : Exec) (s : State) : (park todo x s).epoch = s.epoch := rfl
@[simp] theorem park_inReset (todo : List Phase) (x : Exec) (s : State) : (park todo x s).inReset = s.inReset := rfl
@[simp] theorem park_drv (todo : List Phase) (x : Exec) (s : State) : (park todo x s).drv = s.drv := rfl
@[simp] theorem park_opword (todo : List Phase) (x : Exec) (s : State) : (park todo x s).opword = s.opword := rfl
@[simp] theorem park_ok (todo : List Phase) (x : Exec) (s : State) : (park todo x s).ok = s.ok := rfl
@[simp] theorem park_bitval (todo : List Phase) (x : Exec) (s : State) : (park todo x s).bitval = s.bitval := rfl
@[simp] theorem park_errkind (todo : List Phase) (x : Exec) (s : State) : (park todo x s).errkind = s.errkind := rfl
@[simp] theorem park_ovr (todo : List Phase) (x : Exec) (s : State) : (park todo x s).ovr = s.ovr := rfl
@[simp] theorem park_ill (todo : List Phase) (x : Exec) (s : State) : (park todo x s).ill = s.ill := rfl
@[simp] theorem park_rstv (todo : List Phase) (x : Exec) (s : State) : (park todo x s).rstv = s.rstv := rfl
@[simp] theorem park_result (todo : List Phase) (x : Exec) (s : State) : (park todo x s).result = s.result := rfl
@[simp] theorem park_lastReset (todo : List Phase) (x : Exec) (s : State) : (park todo x s).lastReset = s.lastReset := rfl
@[simp] theorem park_seq (todo : List Phase) (x : Exec) (s : State) : (park todo x s).seq = .exec { x with todo := todo } := rfl
@[simp] theorem park_dev (todo : List Phase) (x : Exec) (s : State) : (park todo x s).dev = s.dev := rfl
@[simp] theorem park_host (todo : List Phase) (x : Exec) (s : State) : (park todo x s).host = s.host := rfl
@[simp] theorem park_wave (todo : List Phase) (x : Exec) (s : State) : (park todo x s).wave = s.wave := rfl
@[simp] theorem park_reads (todo : List Phase) (x : Exec) (s : State) : (park todo x s).reads = s.reads := rfl
@[simp] theorem park_errors (todo : List Phase) (x : Exec) (s : State) : (park todo x s).errors = s.errors := rfl
@[simp] theorem park_draws (todo : List Phase) (x : Exec) (s : State) : (park todo x s).draws = s.draws := rfl
@[simp] theorem park_busResetEnd (todo : List Phase) (x : Exec) (s : State) : (park todo x s).busResetEnd = s.busResetEnd := rfl

/-! ### commit -/

@[simp] theorem commit_tick (v : Verdict) (acc : Half) (e : Nat) (s : State) : (commit v acc e s).tick = e := rfl
@[simp] theorem commit_epoch (v : Verdict) (acc : Half) (e : Nat) (s : State) : (commit v acc e s).epoch = s.epoch := rfl
@[simp] theorem commit_inReset (v : Verdict) (acc : Half) (e : Nat) (s : State) : (commit v acc e s).inReset = s.inReset := rfl
@[simp] theorem commit_drv (v : Verdict) (acc : Half) (e : Nat) (s : State) : (commit v acc e s).drv = s.drv := rfl
@[simp] theorem commit_opword (v : Verdict) (acc : Half) (e : Nat) (s : State) : (commit v acc e s).opword = s.opword := rfl
@[simp] theorem commit_ok (v : Verdict) (acc : Half) (e : Nat) (s : State) : (commit v acc e s).ok = v.ok := rfl
@[simp] theorem commit_bitval (v : Verdict) (acc : Half) (e : Nat) (s : State) : (commit v acc e s).bitval = v.bitval := rfl
@[simp] theorem commit_errkind (v : Verdict) (acc : Half) (e : Nat) (s : State) : (commit v acc e s).errkind = v.errkind := rfl
@[simp] theorem commit_ovr (v : Verdict) (acc : Half) (e : Nat) (s : State) : (commit v acc e s).ovr = s.ovr := rfl
@[simp] theorem commit_ill (v : Verdict) (acc : Half) (e : Nat) (s : State) : (commit v acc e s).ill = s.ill := rfl
@[simp] theorem commit_rstv (v : Verdict) (acc : Half) (e : Nat) (s : State) : (commit v acc e s).rstv = (s.rstv || v = .busReset) := rfl
@[simp] theorem commit_result (v : Verdict) (acc : Half) (e : Nat) (s : State) : (commit v acc e s).result = v.result acc s.result s.draws := rfl
@[simp] theorem commit_lastReset (v : Verdict) (acc : Half) (e : Nat) (s : State) : (commit v acc e s).lastReset = (if v = .busReset then s.nowAt e else s.lastReset) := rfl
@[simp] theorem commit_seq (v : Verdict) (acc : Half) (e : Nat) (s : State) : (commit v acc e s).seq = .idle := rfl
@[simp] theorem commit_dev (v : Verdict) (acc : Half) (e : Nat) (s : State) : (commit v acc e s).dev = s.dev := rfl
@[simp] theorem commit_host (v : Verdict) (acc : Half) (e : Nat) (s : State) : (commit v acc e s).host = s.host := rfl
@[simp] theorem commit_wave (v : Verdict) (acc : Half) (e : Nat) (s : State) : (commit v acc e s).wave = s.wave := rfl
@[simp] theorem commit_reads (v : Verdict) (acc : Half) (e : Nat) (s : State) : (commit v acc e s).reads = s.reads := rfl
@[simp] theorem commit_errors (v : Verdict) (acc : Half) (e : Nat) (s : State) : (commit v acc e s).errors = s.errors := rfl
@[simp] theorem commit_draws (v : Verdict) (acc : Half) (e : Nat) (s : State) : (commit v acc e s).draws = (if v.failsFrame then s.draws + 1 else s.draws) := rfl
@[simp] theorem commit_busResetEnd (v : Verdict) (acc : Half) (e : Nat) (s : State) : (commit v acc e s).busResetEnd = (if v = .busReset then some e else s.busResetEnd) := rfl

/-! ### blockReset -/

@[simp] theorem blockReset_tick (s : State) : s.blockReset.tick = s.tick := rfl
@[simp] theorem blockReset_epoch (s : State) : s.blockReset.epoch = s.epoch := rfl
@[simp] theorem blockReset_inReset (s : State) : s.blockReset.inReset = true := rfl
@[simp] theorem blockReset_drv (s : State) : s.blockReset.drv = .rel := rfl
@[simp] theorem blockReset_opword (s : State) : s.blockReset.opword = 0#32 := rfl
@[simp] theorem blockReset_ok (s : State) : s.blockReset.ok = false := rfl
@[simp] theorem blockReset_bitval (s : State) : s.blockReset.bitval = .zero := rfl
@[simp] theorem blockReset_errkind (s : State) : s.blockReset.errkind = .none := rfl
@[simp] theorem blockReset_ovr (s : State) : s.blockReset.ovr = false := rfl
@[simp] theorem blockReset_ill (s : State) : s.blockReset.ill = false := rfl
@[simp] theorem blockReset_rstv (s : State) : s.blockReset.rstv = false := rfl
@[simp] theorem blockReset_result (s : State) : s.blockReset.result = 0#16 := rfl
@[simp] theorem blockReset_lastReset (s : State) : s.blockReset.lastReset = 0#32 := rfl
@[simp] theorem blockReset_seq (s : State) : s.blockReset.seq = .idle := rfl
@[simp] theorem blockReset_dev (s : State) : s.blockReset.dev = s.dev := rfl
@[simp] theorem blockReset_host (s : State) : s.blockReset.host = s.host := rfl
@[simp] theorem blockReset_wave (s : State) : s.blockReset.wave = (if s.drv = .rel then s.wave else { tick := s.tick, drive := .rel } :: s.wave) := rfl
@[simp] theorem blockReset_reads (s : State) : s.blockReset.reads = s.reads := rfl
@[simp] theorem blockReset_errors (s : State) : s.blockReset.errors = s.errors := rfl
@[simp] theorem blockReset_draws (s : State) : s.blockReset.draws = s.draws := rfl
@[simp] theorem blockReset_busResetEnd (s : State) : s.blockReset.busResetEnd = s.busResetEnd := rfl

/-! ### releaseReset -/

@[simp] theorem releaseReset_tick (s : State) : s.releaseReset.tick = (if s.inReset then s.tick + 1 else s.tick) := rfl
@[simp] theorem releaseReset_epoch (s : State) : s.releaseReset.epoch = (if s.inReset then s.tick + 1 else s.epoch) := rfl
@[simp] theorem releaseReset_inReset (s : State) : s.releaseReset.inReset = false := rfl
@[simp] theorem releaseReset_drv (s : State) : s.releaseReset.drv = s.drv := rfl
@[simp] theorem releaseReset_opword (s : State) : s.releaseReset.opword = s.opword := rfl
@[simp] theorem releaseReset_ok (s : State) : s.releaseReset.ok = s.ok := rfl
@[simp] theorem releaseReset_bitval (s : State) : s.releaseReset.bitval = s.bitval := rfl
@[simp] theorem releaseReset_errkind (s : State) : s.releaseReset.errkind = s.errkind := rfl
@[simp] theorem releaseReset_ovr (s : State) : s.releaseReset.ovr = s.ovr := rfl
@[simp] theorem releaseReset_ill (s : State) : s.releaseReset.ill = s.ill := rfl
@[simp] theorem releaseReset_rstv (s : State) : s.releaseReset.rstv = s.rstv := rfl
@[simp] theorem releaseReset_result (s : State) : s.releaseReset.result = s.result := rfl
@[simp] theorem releaseReset_lastReset (s : State) : s.releaseReset.lastReset = s.lastReset := rfl
@[simp] theorem releaseReset_seq (s : State) : s.releaseReset.seq = s.seq := rfl
@[simp] theorem releaseReset_dev (s : State) : s.releaseReset.dev = s.dev := rfl
@[simp] theorem releaseReset_host (s : State) : s.releaseReset.host = s.host := rfl
@[simp] theorem releaseReset_wave (s : State) : s.releaseReset.wave = s.wave := rfl
@[simp] theorem releaseReset_reads (s : State) : s.releaseReset.reads = s.reads := rfl
@[simp] theorem releaseReset_errors (s : State) : s.releaseReset.errors = s.errors := rfl
@[simp] theorem releaseReset_draws (s : State) : s.releaseReset.draws = s.draws := rfl
@[simp] theorem releaseReset_busResetEnd (s : State) : s.releaseReset.busResetEnd = s.busResetEnd := rfl

/-! ### Accessors of a reset state (R39) -/

@[simp] theorem reset_busy : State.reset.busy = false := rfl
@[simp] theorem reset_inReset : State.reset.inReset = false := rfl
@[simp] theorem reset_drv : State.reset.drv = .rel := rfl

end Sys2Proof.Machine
end

