-- ==== Sys2Proof/Laws/Line.lean ====
section
/-! SUPPORT. The line, the driver trace and phase measurement: what each function can answer. -/

namespace Sys2Proof.Machine

/-! ### Line resolution (R24) -/

theorem lineAt_of_low {s : State} (h : s.drv = .low) (t : Nat) : s.lineAt t = .low := by
  simp [State.lineAt, resolve, h]

theorem lineAt_of_rel {s : State} (h : s.drv = .rel) (t : Nat) :
    s.lineAt t = if devLow s.dev t then .low else .high := by
  simp [State.lineAt, resolve, h]

theorem lineAt_congr {s s' : State} (hdrv : s.drv = s'.drv) (hdev : s.dev = s'.dev) (t : Nat) :
    s.lineAt t = s'.lineAt t := by
  simp [State.lineAt, hdrv, hdev]

theorem Level.ne_low {l : Level} : l ≠ .low ↔ l = .high := by cases l <;> simp

theorem Level.ne_high {l : Level} : l ≠ .high ↔ l = .low := by cases l <;> simp

/-- STATUS.LINE and STATUS.DRVLOW show the line and the driver (R30). -/
theorem status_line (s : State) : (s.status.getLsbD 16 = true ↔ s.line = .high) ∧
    (s.status.getLsbD 17 = true ↔ s.drv = .low) := by
  simp [State.status, bitAt, place]

/-! ### The driver trace (R19, R22) -/

theorem driveAt_cons (c : DriveChange) (cs : List DriveChange) (u : Nat) :
    driveAt (c :: cs) u = if c.tick ≤ u then c.drive else driveAt cs u := rfl

/-- Setting the driver at tick `t`, where the trace reads the driver's value from `p ≤ t` on. -/
theorem drvAt_setDrv {s : State} {p t : Nat} (hp : p ≤ t) (h : ∀ u, p ≤ u → s.drvAt u = s.drv) (d : Drive) (u : Nat) :
    (s.setDrv t d).drvAt u = if t ≤ u then d else s.drvAt u := by
  unfold State.drvAt State.setDrv
  by_cases hd : s.drv = d
  · simp only [hd, if_true]
    split
    · rw [← hd]; exact h u (by omega)
    · rfl
  · simp only [hd, if_false, driveAt_cons]

/-! ### The first tick with a property -/

theorem firstAt_some {f : Nat → Bool} {n j k : Nat} :
    firstAt f n j = some k ↔ j ≤ k ∧ k < j + n ∧ f k = true ∧ ∀ i, j ≤ i → i < k → f i = false := by
  induction n generalizing j with
  | zero => simp only [firstAt]; constructor
            · intro h; cases h
            · rintro ⟨h1, h2, _⟩; omega
  | succ n ih =>
    simp only [firstAt]
    split
    · next hj =>
      constructor
      · intro h
        cases h
        exact ⟨Nat.le_refl _, by omega, hj, fun i h1 h2 => by omega⟩
      · rintro ⟨h1, -, -, h4⟩
        rcases Nat.eq_or_lt_of_le h1 with h | h
        · rw [h]
        · rw [h4 j (Nat.le_refl _) h] at hj; cases hj
    · next hj =>
      rw [ih]
      constructor
      · rintro ⟨h1, h2, h3, h4⟩
        refine ⟨by omega, by omega, h3, fun i hi1 hi2 => ?_⟩
        rcases Nat.eq_or_lt_of_le hi1 with h | h
        · rw [← h]; simpa using hj
        · exact h4 i h hi2
      · rintro ⟨h1, h2, h3, h4⟩
        rcases Nat.eq_or_lt_of_le h1 with h | h
        · rw [← h] at h3; exact absurd h3 hj
        · exact ⟨h, by omega, h3, fun i hi1 hi2 => h4 i (by omega) hi2⟩

theorem firstAt_none {f : Nat → Bool} {n j : Nat} :
    firstAt f n j = none ↔ ∀ i, j ≤ i → i < j + n → f i = false := by
  induction n generalizing j with
  | zero => simp only [firstAt, true_iff]; intro i h1 h2; omega
  | succ n ih =>
    simp only [firstAt]
    split
    · next hj =>
      constructor
      · intro h; cases h
      · intro h; rw [h j (Nat.le_refl _) (by omega)] at hj; cases hj
    · next hj =>
      rw [ih]
      constructor
      · intro h i h1 h2
        rcases Nat.eq_or_lt_of_le h1 with e | e
        · rw [← e]; simpa using hj
        · exact h i e (by omega)
      · intro h i h1 h2; exact h i (by omega) (by omega)

theorem firstAt_congr {f g : Nat → Bool} {n j : Nat} (h : ∀ i, f i = g i) : firstAt f n j = firstAt g n j := by
  rw [funext h]

/-! ### Phase measurement (R122) -/

/-- `measure` answers DONE `k` exactly when the line stays at `v` for `k ≤ MAX_WAIT` ticks and then leaves it. -/
theorem measure_some {s : State} {p k : Nat} {v : Level} :
    s.measure p v = some k ↔ k ≤ Config.maxWait ∧ s.lineAt (p + k) ≠ v ∧ ∀ j, j < k → s.lineAt (p + j) = v := by
  unfold State.measure
  rw [firstAt_some]
  constructor
  · rintro ⟨-, h2, h3, h4⟩
    exact ⟨by omega, by simpa using h3, fun j hj => by simpa using h4 j (Nat.zero_le _) hj⟩
  · rintro ⟨h1, h2, h3⟩
    exact ⟨Nat.zero_le _, by omega, by simpa using h2, fun j _ hj => by simpa using h3 j hj⟩

/-- `measure` answers TIMEOUT exactly when the line is at `v` at ticks `p` to `p + MAX_WAIT`. -/
theorem measure_none {s : State} {p : Nat} {v : Level} :
    s.measure p v = none ↔ ∀ j, j ≤ Config.maxWait → s.lineAt (p + j) = v := by
  unfold State.measure
  rw [firstAt_none]
  constructor
  · intro h j hj; simpa using h j (Nat.zero_le _) (by omega)
  · intro h j _ hj; simpa using h j (by omega)

theorem measure_le {s : State} {p k : Nat} {v : Level} (h : s.measure p v = some k) : k ≤ Config.maxWait :=
  (measure_some.1 h).1

theorem measure_congr {s s' : State} (hdrv : s.drv = s'.drv) (hdev : s.dev = s'.dev) (p : Nat) (v : Level) :
    s.measure p v = s'.measure p v :=
  firstAt_congr fun j => by rw [lineAt_congr hdrv hdev]

/-! ### The response poll (R164) -/

theorem pollLow_some {s : State} {p n k : Nat} :
    s.pollLow p n = some k ↔ k < n ∧ s.lineAt (p + k) = .low ∧ ∀ j, j < k → s.lineAt (p + j) = .high := by
  unfold State.pollLow
  rw [firstAt_some]
  constructor
  · rintro ⟨-, h2, h3, h4⟩
    refine ⟨by omega, by simpa using h3, fun j hj => Level.ne_low.1 ?_⟩
    simpa using h4 j (Nat.zero_le _) hj
  · rintro ⟨h1, h2, h3⟩
    exact ⟨Nat.zero_le _, by omega, by simpa using h2, fun j _ hj => by simp [h3 j hj]⟩

theorem pollLow_none {s : State} {p n : Nat} :
    s.pollLow p n = none ↔ ∀ j, j < n → s.lineAt (p + j) = .high := by
  unfold State.pollLow
  rw [firstAt_none]
  constructor
  · intro h j hj
    refine Level.ne_low.1 ?_
    simpa using h j (Nat.zero_le _) (by omega)
  · intro h j _ hj; simp [h j (by omega)]

theorem pollLow_congr {s s' : State} (hdrv : s.drv = s'.drv) (hdev : s.dev = s'.dev) (p n : Nat) :
    s.pollLow p n = s'.pollLow p n :=
  firstAt_congr fun j => by rw [lineAt_congr hdrv hdev]

end Sys2Proof.Machine
end

