-- ==== Sys2Proof/Laws/Sequencer.lean ====
section
/-! SUPPORT. What the sequencer can do: each phase once, and what a whole run keeps. -/

namespace Sys2Proof.Machine

/-! ### The next host event -/

theorem hostBefore_congr {s s' : State} (h : s.host = s'.host) (e : Nat) : s.hostBefore e = s'.hostBefore e := by
  simp [State.hostBefore, h]

@[simp] theorem hostBefore_setDrv (s : State) (t : Nat) (d : Drive) (e : Nat) :
    (s.setDrv t d).hostBefore e = s.hostBefore e := rfl

/-- No event before `e` means none before an earlier tick. -/
theorem hostBefore_mono {s : State} {e e' : Nat} (h : s.hostBefore e = false) (hle : e' ≤ e) :
    s.hostBefore e' = false := by
  unfold State.hostBefore at *
  cases hh : s.host with
  | nil => rfl
  | cons ev _ =>
    simp only [hh, decide_eq_false_iff_not] at *
    omega

/-! ### The driver at a phase's first tick -/

/-- A phase begins by leaving the state alone or by setting the driver. -/
theorem beginPhase_cases (p : Phase) (x : Exec) (s : State) :
    beginPhase p x s = s ∨ ∃ d n, p = .drive d n ∧ beginPhase p x s = s.setDrv x.phaseStart d := by
  cases p with
  | drive d n => exact .inr ⟨d, n, rfl, rfl⟩
  | _ => exact .inl rfl

@[simp] theorem beginPhase_host (p : Phase) (x : Exec) (s : State) : (beginPhase p x s).host = s.host := by
  cases p <;> rfl

@[simp] theorem beginPhase_tick (p : Phase) (x : Exec) (s : State) : (beginPhase p x s).tick = s.tick := by
  cases p <;> rfl

@[simp] theorem beginPhase_dev (p : Phase) (x : Exec) (s : State) : (beginPhase p x s).dev = s.dev := by
  cases p <;> rfl

@[simp] theorem beginPhase_hostBefore (p : Phase) (x : Exec) (s : State) (e : Nat) :
    (beginPhase p x s).hostBefore e = s.hostBefore e :=
  hostBefore_congr (beginPhase_host p x s) e

/-! ### One phase -/

theorem runPhases_nil (x : Exec) (s : State) : runPhases [] x s = commit x.ending x.acc x.phaseStart s := rfl

/-- A phase that no host event interrupts: it ends the operation, or the next one begins where it ended (R166). -/
theorem runPhases_cons {p : Phase} {ps : List Phase} {x : Exec} {s : State}
    (h : s.hostBefore (phaseEnd p x (beginPhase p x s)) = false) :
    runPhases (p :: ps) x s =
      match endPhase p x (beginPhase p x s) with
      | .inl v => commit v x.acc (phaseEnd p x (beginPhase p x s)) (beginPhase p x s)
      | .inr x' => runPhases ps { x' with phaseStart := phaseEnd p x (beginPhase p x s) } (beginPhase p x s) := by
  rw [runPhases, beginPhase_hostBefore, h]
  rfl

/-- A phase that a host event interrupts: time stops there. -/
theorem runPhases_parks {p : Phase} {ps : List Phase} {x : Exec} {s : State}
    (h : s.hostBefore (phaseEnd p x (beginPhase p x s)) = true) :
    runPhases (p :: ps) x s = park (p :: ps) x (beginPhase p x s) := by
  rw [runPhases, beginPhase_hostBefore, h]
  rfl

theorem runPhases_drive {d : Drive} {n : Nat} {ps : List Phase} {x : Exec} {s : State}
    (h : s.hostBefore (x.phaseStart + n) = false) :
    runPhases (.drive d n :: ps) x s =
      runPhases ps { x with phaseStart := x.phaseStart + n } (s.setDrv x.phaseStart d) := by
  rw [runPhases_cons (by simpa [phaseEnd, phaseTicks] using h)]
  simp [endPhase, phaseEnd, phaseTicks, beginPhase]

theorem runPhases_wait {n : Nat} {ps : List Phase} {x : Exec} {s : State}
    (h : s.hostBefore (x.phaseStart + n) = false) :
    runPhases (.wait n :: ps) x s = runPhases ps { x with phaseStart := x.phaseStart + n } s := by
  rw [runPhases_cons (by simpa [phaseEnd, phaseTicks] using h)]
  simp [endPhase, phaseEnd, phaseTicks, beginPhase]

theorem runPhases_sub {ps : List Phase} {x : Exec} {s : State} (h : s.hostBefore x.phaseStart = false) :
    runPhases (.sub :: ps) x s = runPhases ps { x with index := x.index + 1, subStart := x.phaseStart } s := by
  rw [runPhases_cons (by simpa [phaseEnd, phaseTicks] using h)]
  simp [endPhase, phaseEnd, phaseTicks, beginPhase]

theorem runPhases_sample {ps : List Phase} {x : Exec} {s : State} (h : s.hostBefore x.phaseStart = false) :
    runPhases (.sample :: ps) x s = runPhases ps { x with acc := levelWord (s.lineAt x.phaseStart) } s := by
  rw [runPhases_cons (by simpa [phaseEnd, phaseTicks] using h)]
  simp [endPhase, phaseEnd, phaseTicks, beginPhase]

/-- The poll sees a LOW sample at `k` (R164). -/
theorem runPhases_poll_some {n k : Nat} {ps : List Phase} {x : Exec} {s : State}
    (hk : s.pollLow x.phaseStart n = some k) (h : s.hostBefore (x.phaseStart + k) = false) :
    runPhases (.poll n :: ps) x s =
      runPhases ps { x with acc := 1#16, phaseStart := x.phaseStart + k } s := by
  rw [runPhases_cons (by simpa [phaseEnd, phaseTicks, beginPhase, hk] using h)]
  simp [endPhase, phaseEnd, phaseTicks, beginPhase, hk]

/-- The poll sees none (R164). -/
theorem runPhases_poll_none {n : Nat} {ps : List Phase} {x : Exec} {s : State}
    (hk : s.pollLow x.phaseStart n = none) (h : s.hostBefore (x.phaseStart + n) = false) :
    runPhases (.poll n :: ps) x s =
      runPhases ps { x with acc := 0#16, phaseStart := x.phaseStart + n } s := by
  rw [runPhases_cons (by simpa [phaseEnd, phaseTicks, beginPhase, hk] using h)]
  simp [endPhase, phaseEnd, phaseTicks, beginPhase, hk]

/-- A received bit with phases `a` and `b` (R123): the bit is taken at the first LOW sample after its high phase. -/
theorem runPhases_bit {role : BitRole} {a b : Nat} {ps : List Phase} {x : Exec} {s : State}
    (ha : s.measure x.phaseStart .low = some a) (hb : s.measure (x.phaseStart + a) .high = some b)
    (h : s.hostBefore (x.phaseStart + a + b) = false) :
    runPhases (.low :: .high role :: ps) x s =
      match takeBit role (compareBit a b) { x with low := none, phaseStart := x.phaseStart + a } with
      | .inl v => commit v x.acc (x.phaseStart + a + b) s
      | .inr x' => runPhases ps { x' with phaseStart := x.phaseStart + a + b } s := by
  rw [runPhases_cons (by
    simpa [phaseEnd, phaseTicks, beginPhase, ha] using hostBefore_mono h (by omega : x.phaseStart + a ≤ _))]
  simp only [endPhase, beginPhase, ha, phaseEnd, phaseTicks, Option.getD_some]
  rw [runPhases_cons (by simpa [phaseEnd, phaseTicks, beginPhase, hb] using h)]
  simp [endPhase, phaseEnd, phaseTicks, beginPhase, hb, cellBit]

/-- A received bit whose low phase times out (R122, R123). -/
theorem runPhases_bit_low_timeout {role : BitRole} {ps : List Phase} {x : Exec} {s : State}
    (ha : s.measure x.phaseStart .low = none)
    (h : s.hostBefore (x.phaseStart + Config.maxWait) = false) :
    runPhases (.low :: .high role :: ps) x s =
      match takeBit role .error { x with low := none, phaseStart := x.phaseStart + Config.maxWait } with
      | .inl v => commit v x.acc (x.phaseStart + Config.maxWait) s
      | .inr x' => runPhases ps { x' with phaseStart := x.phaseStart + Config.maxWait } s := by
  rw [runPhases_cons (by simpa [phaseEnd, phaseTicks, beginPhase, ha] using h)]
  simp only [endPhase, beginPhase, ha, phaseEnd, phaseTicks, Option.getD_none]
  rw [runPhases_cons (by simpa [phaseEnd, phaseTicks, beginPhase] using h)]
  simp [endPhase, phaseEnd, phaseTicks, beginPhase, cellBit]

/-- A received bit whose high phase times out (R122, R123). -/
theorem runPhases_bit_high_timeout {role : BitRole} {a : Nat} {ps : List Phase} {x : Exec} {s : State}
    (ha : s.measure x.phaseStart .low = some a) (hb : s.measure (x.phaseStart + a) .high = none)
    (h : s.hostBefore (x.phaseStart + a + Config.maxWait) = false) :
    runPhases (.low :: .high role :: ps) x s =
      match takeBit role .error { x with low := none, phaseStart := x.phaseStart + a } with
      | .inl v => commit v x.acc (x.phaseStart + a + Config.maxWait) s
      | .inr x' => runPhases ps { x' with phaseStart := x.phaseStart + a + Config.maxWait } s := by
  rw [runPhases_cons (by
    simpa [phaseEnd, phaseTicks, beginPhase, ha] using hostBefore_mono h (by omega : x.phaseStart + a ≤ _))]
  simp only [endPhase, beginPhase, ha, phaseEnd, phaseTicks, Option.getD_some]
  rw [runPhases_cons (by simpa [phaseEnd, phaseTicks, beginPhase, hb] using h)]
  simp [endPhase, phaseEnd, phaseTicks, beginPhase, hb, cellBit]

/-! ### Issue -/

theorem issue_ready {phases : List Phase} {v : Verdict} {acc : Half} {s : State} (hr : s.inReset = false)
    (hi : s.seq = .idle) :
    issue phases v acc s = .next (runPhases (.wait 1 :: phases) (accepted s v acc) s) := by
  simp [issue, hr, State.busy, hi]

/-- The sequencer at the start tick, the issue tick behind it. -/
def started (s : State) (v : Verdict) (acc : Half) : Exec := { accepted s v acc with phaseStart := s.tick + 1 }

@[simp] theorem started_phaseStart (s : State) (v : Verdict) (acc : Half) :
    (started s v acc).phaseStart = s.tick + 1 := rfl
@[simp] theorem started_low (s : State) (v : Verdict) (acc : Half) : (started s v acc).low = none := rfl
@[simp] theorem started_acc (s : State) (v : Verdict) (acc : Half) : (started s v acc).acc = acc := rfl
@[simp] theorem started_ending (s : State) (v : Verdict) (acc : Half) : (started s v acc).ending = v := rfl

/-- With no host event up to the start tick, the operation's own phases run from there. -/
theorem issue_starts {phases : List Phase} {v : Verdict} {acc : Half} {s : State} (hr : s.inReset = false)
    (hi : s.seq = .idle) (hh : s.hostBefore (s.tick + 1) = false) :
    issue phases v acc s = .next (runPhases phases (started s v acc) s) := by
  rw [issue_ready hr hi, runPhases_wait (by simpa [accepted] using hh)]
  rfl

theorem issue_busy {phases : List Phase} {v : Verdict} {acc : Half} {s : State} (hr : s.inReset = false)
    (hb : s.busy = true) : issue phases v acc s = .next s.flagOvr := by
  simp [issue, hr, hb]

theorem issue_inReset {phases : List Phase} {v : Verdict} {acc : Half} {s : State} (hr : s.inReset = true) :
    issue phases v acc s = .next s := by
  simp [issue, hr]

/-- `issue` answers a next state, one of three. -/
theorem issue_cases {phases : List Phase} {v : Verdict} {acc : Half} {s t : State} (h : issue phases v acc s = .next t) :
    (s.inReset = true ∧ t = s) ∨ (s.inReset = false ∧ s.busy = true ∧ t = s.flagOvr) ∨
    (s.inReset = false ∧ s.seq = .idle ∧ t = runPhases (.wait 1 :: phases) (accepted s v acc) s) := by
  unfold issue at h
  split at h
  · next hr => cases h; exact .inl ⟨hr, rfl⟩
  · next hr =>
    have hr : s.inReset = false := by simpa using hr
    split at h
    · next hb => cases h; exact .inr (.inl ⟨hr, hb, rfl⟩)
    · next hb => cases h; exact .inr (.inr ⟨hr, by simpa [State.busy] using hb, rfl⟩)

/-! ### What a whole run keeps -/

/-- A property kept by setting the driver, by completion and by stopping at a host event is kept by a run. -/
theorem runPhases_keeps {P : State → Prop} (hdrv : ∀ t d s, P s → P (s.setDrv t d))
    (hcommit : ∀ v acc e s, P s → P (commit v acc e s)) (hpark : ∀ todo x s, P s → P (park todo x s))
    (ps : List Phase) (x : Exec) (s : State) (h : P s) : P (runPhases ps x s) := by
  induction ps generalizing x s with
  | nil => exact hcommit _ _ _ _ h
  | cons p ps ih =>
    have hb : P (beginPhase p x s) := by
      rcases beginPhase_cases p x s with e | ⟨d, n, -, e⟩ <;> rw [e]
      · exact h
      · exact hdrv _ _ _ h
    by_cases hh : s.hostBefore (phaseEnd p x (beginPhase p x s)) = true
    · rw [runPhases_parks hh]; exact hpark _ _ _ hb
    · rw [runPhases_cons (by simpa using hh)]
      split
      · exact hcommit _ _ _ _ hb
      · exact ih _ _ hb

/-- A run ends with the sequencer idle, or stopped by a host event with its outputs as they were (R41). -/
theorem runPhases_busy {ps : List Phase} {x : Exec} {s : State} (h : (runPhases ps x s).busy = true) :
    ∃ todo x' s', runPhases ps x s = park todo x' s' ∧ ∃ d w, s' = { s with drv := d, wave := w } := by
  induction ps generalizing x s with
  | nil => simp [runPhases_nil, State.busy] at h
  | cons p ps ih =>
    have hs : ∃ d w, beginPhase p x s = { s with drv := d, wave := w } := by
      rcases beginPhase_cases p x s with e | ⟨d, n, -, e⟩ <;> rw [e]
      · exact ⟨s.drv, s.wave, rfl⟩
      · exact ⟨_, _, rfl⟩
    by_cases hh : s.hostBefore (phaseEnd p x (beginPhase p x s)) = true
    · exact ⟨_, _, _, runPhases_parks hh, hs⟩
    · rw [runPhases_cons (by simpa using hh)] at h ⊢
      split at h
      · simp [State.busy] at h
      · obtain ⟨todo, x', s', e, d, w, e'⟩ := ih h
        obtain ⟨d', w', e''⟩ := hs
        exact ⟨todo, x', s', e, d, w, by rw [e', e'']⟩

/-! ### How long a run can take (R168, R263) -/

/-- The longest a phase lasts. -/
def phaseBound : Phase → Nat
  | .sub => 0
  | .drive _ n => n
  | .wait n => n
  | .sample => 0
  | .poll n => n
  | .low => Config.maxWait
  | .high _ => Config.maxWait

/-- The longest a script lasts. -/
def scriptBound (ps : List Phase) : Nat := (ps.map phaseBound).sum

theorem phaseTicks_le (p : Phase) (x : Exec) (s : State) : phaseTicks p x s ≤ phaseBound p := by
  have hm : ∀ q v, (s.measure q v).getD Config.maxWait ≤ Config.maxWait := fun q v => by
    cases h : s.measure q v with
    | none => exact Nat.le_refl _
    | some k => exact measure_le h
  cases p with
  | sub => exact Nat.le_refl _
  | drive d n => exact Nat.le_refl _
  | wait n => exact Nat.le_refl _
  | sample => exact Nat.le_refl _
  | poll n =>
    simp only [phaseTicks, phaseBound]
    cases h : s.pollLow x.phaseStart n with
    | none => exact Nat.le_refl _
    | some k => exact Nat.le_of_lt (pollLow_some.1 h).1
  | low => exact hm _ _
  | high role =>
    simp only [phaseTicks, phaseBound]
    cases x.low with
    | none => exact Nat.zero_le _
    | some a => exact hm _ _

/-- A run that no host event interrupts reaches its end tick within the script's bound. -/
theorem runPhases_bounded {ps : List Phase} {x : Exec} {s : State}
    (h : s.hostBefore (x.phaseStart + scriptBound ps) = false) :
    (runPhases ps x s).seq = .idle ∧ x.phaseStart ≤ (runPhases ps x s).tick ∧
      (runPhases ps x s).tick ≤ x.phaseStart + scriptBound ps := by
  induction ps generalizing x s with
  | nil => exact ⟨rfl, Nat.le_refl _, Nat.le_refl _⟩
  | cons p ps ih =>
    have hp := phaseTicks_le p x (beginPhase p x s)
    have ht : scriptBound (p :: ps) = phaseBound p + scriptBound ps := rfl
    have he : phaseEnd p x (beginPhase p x s) = x.phaseStart + phaseTicks p x (beginPhase p x s) := rfl
    rw [ht] at h ⊢
    rw [runPhases_cons (hostBefore_mono h (by omega))]
    cases endPhase p x (beginPhase p x s) with
    | inl v => exact ⟨rfl, by simp only [commit_tick]; omega, by simp only [commit_tick]; omega⟩
    | inr x' =>
      obtain ⟨h1, h2, h3⟩ := ih (x := { x' with phaseStart := phaseEnd p x (beginPhase p x s) })
        (s := beginPhase p x s) (by rw [beginPhase_hostBefore]; exact hostBefore_mono h (by simp only; omega))
      simp only at h2 h3
      exact ⟨h1, by simp only; omega, by simp only; omega⟩

/-! ### A run that is interrupted and goes on (R233, R235) -/

theorem beginPhase_beginPhase (p : Phase) (x : Exec) (s : State) :
    beginPhase p x (beginPhase p x s) = beginPhase p x s := by
  cases p with
  | drive d n => simp [beginPhase, State.setDrv]
  | _ => rfl

/-- A phase that had begun goes on as it was. -/
theorem runPhases_begun (p : Phase) (ps : List Phase) (x : Exec) (s : State) :
    runPhases (p :: ps) x (beginPhase p x s) = runPhases (p :: ps) x s := by
  rw [runPhases, runPhases, beginPhase_beginPhase]

/-- The run does not look at the script kept in the sequencer. -/
theorem runPhases_todo (todo ps : List Phase) (x : Exec) (s : State) :
    runPhases ps { x with todo := todo } s = runPhases ps x s := by
  induction ps generalizing x s with
  | nil => rfl
  | cons p ps ih =>
    have hb : beginPhase p { x with todo := todo } s = beginPhase p x s := by cases p <;> rfl
    have he : phaseEnd p { x with todo := todo } (beginPhase p x s) = phaseEnd p x (beginPhase p x s) := by
      cases p <;> rfl
    have ht : endPhase p { x with todo := todo } (beginPhase p x s) =
        match endPhase p x (beginPhase p x s) with
        | .inl v => .inl v
        | .inr x' => .inr { x' with todo := todo } := by
      cases p with
      | high role =>
        simp only [endPhase]
        generalize cellBit x.low ((beginPhase (.high role) x s).measure x.phaseStart .high) = v
        cases role <;> cases v <;> rfl
      | _ => rfl
    rw [runPhases, runPhases, hb, he, ht]
    split
    · rfl
    · cases endPhase p x (beginPhase p x s) with
      | inl v => rfl
      | inr x' => exact ih { x' with phaseStart := phaseEnd p x (beginPhase p x s) } _

/-- With a host event before the end of the run, and not before its first tick unless a phase is left, the run stops
there, and what is left of it leads, without events, to the state it would have led to. -/
theorem runPhases_interrupted (ev : HostEvent) (rest : List HostEvent) {ps : List Phase} {x : Exec} {s : State}
    (hh : s.host = []) (hx : ps ≠ [] ∨ x.phaseStart ≤ ev.tick) (hlt : ev.tick < (runPhases ps x s).tick) :
    ∃ todo x' s', runPhases ps x { s with host := ev :: rest } = park todo x' { s' with host := ev :: rest } ∧
      s'.host = [] ∧ s'.tick = s.tick ∧ s'.inReset = s.inReset ∧ runPhases todo x' s' = runPhases ps x s := by
  have hnil : ∀ {s : State}, s.host = [] → ∀ e, s.hostBefore e = false := fun h e => by simp [State.hostBefore, h]
  induction ps generalizing x s with
  | nil =>
    rw [runPhases_nil, commit_tick] at hlt
    rcases hx with hx | hx
    · exact absurd rfl hx
    · omega
  | cons p ps ih =>
    have hb : beginPhase p x { s with host := ev :: rest } = { beginPhase p x s with host := ev :: rest } := by
      cases p <;> rfl
    have he : ∀ s : State, phaseEnd p x { s with host := ev :: rest } = phaseEnd p x s := fun _ => by cases p <;> rfl
    have ht : ∀ s : State, endPhase p x { s with host := ev :: rest } = endPhase p x s := fun _ => by cases p <;> rfl
    have hr : (beginPhase p x s).inReset = s.inReset := by cases p <;> rfl
    by_cases hc : ev.tick < phaseEnd p x (beginPhase p x s)
    · refine ⟨p :: ps, x, beginPhase p x s, ?_, by rw [beginPhase_host, hh], beginPhase_tick _ _ _, hr,
        runPhases_begun _ _ _ _⟩
      rw [runPhases_parks (by rw [hb, he]; simp [State.hostBefore, hc]), hb]
    · rw [runPhases_cons (hnil hh _)] at hlt ⊢
      rw [runPhases_cons (by rw [hb, he]; simp [State.hostBefore]; omega), hb, he, ht]
      cases hcase : endPhase p x (beginPhase p x s) with
      | inl v => rw [hcase] at hlt; simp only [commit_tick] at hlt; omega
      | inr x' =>
        rw [hcase] at hlt
        obtain ⟨todo, x1, s1, h1, h2, h3, h4, h5⟩ := ih
          (x := { x' with phaseStart := phaseEnd p x (beginPhase p x s) }) (s := beginPhase p x s)
          (by rw [beginPhase_host, hh]) (.inr (by simp only; omega)) hlt
        exact ⟨todo, x1, s1, h1, h2, by rw [h3, beginPhase_tick], by rw [h4, hr], h5⟩

/-- With an empty schedule a run ends, not before its first tick. -/
theorem runPhases_ends {ps : List Phase} {x : Exec} {s : State} (hh : s.host = []) :
    (runPhases ps x s).seq = .idle ∧ x.phaseStart ≤ (runPhases ps x s).tick :=
  let h := runPhases_bounded (ps := ps) (x := x) (s := s) (by simp [State.hostBefore, hh])
  ⟨h.1, h.2.1⟩

/-- A schedule with no event before the end of the run changes nothing of it (R61). -/
theorem runPhases_undisturbed (hs : List HostEvent) {ps : List Phase} {x : Exec} {s : State} (hh : s.host = [])
    (hx : State.hostBefore { s with host := hs } (runPhases ps x s).tick = false) :
    runPhases ps x { s with host := hs } = { runPhases ps x s with host := hs } := by
  induction ps generalizing x s with
  | nil => rfl
  | cons p ps ih =>
    have hb : beginPhase p x { s with host := hs } = { beginPhase p x s with host := hs } := by cases p <;> rfl
    have he : ∀ s : State, phaseEnd p x { s with host := hs } = phaseEnd p x s := fun _ => by cases p <;> rfl
    have ht : ∀ s : State, endPhase p x { s with host := hs } = endPhase p x s := fun _ => by cases p <;> rfl
    have hn : s.hostBefore (phaseEnd p x (beginPhase p x s)) = false := by simp [State.hostBefore, hh]
    rw [runPhases_cons hn] at hx ⊢
    cases hc : endPhase p x (beginPhase p x s) with
    | inl v =>
      rw [hc] at hx
      rw [runPhases_cons (by rw [hb, he]; exact hx), hb, he, ht, hc]
      rfl
    | inr x' =>
      rw [hc] at hx
      have hle := (runPhases_ends (ps := ps) (x := { x' with phaseStart := phaseEnd p x (beginPhase p x s) })
        (s := beginPhase p x s) (by rw [beginPhase_host, hh])).2
      rw [runPhases_cons (by rw [hb, he]; exact hostBefore_mono hx hle), hb, he, ht, hc]
      exact ih (by rw [beginPhase_host, hh]) hx

/-- A run does not look at the host-error flags, their record or what was read, and changes none of them. -/
theorem runPhases_records (ovr ill : Bool) (reads : List ReadBack) (errors : List ErrorRecord) (ps : List Phase)
    (x : Exec) (s : State) :
    runPhases ps x { s with ovr := ovr, ill := ill, reads := reads, errors := errors } =
      { runPhases ps x s with ovr := ovr, ill := ill, reads := reads, errors := errors } := by
  induction ps generalizing x s with
  | nil => rfl
  | cons p ps ih =>
    have hb : beginPhase p x { s with ovr := ovr, ill := ill, reads := reads, errors := errors } =
        { beginPhase p x s with ovr := ovr, ill := ill, reads := reads, errors := errors } := by cases p <;> rfl
    have he : ∀ s : State, phaseEnd p x { s with ovr := ovr, ill := ill, reads := reads, errors := errors } =
        phaseEnd p x s := fun _ => by cases p <;> rfl
    have ht : ∀ s : State, endPhase p x { s with ovr := ovr, ill := ill, reads := reads, errors := errors } =
        endPhase p x s := fun _ => by cases p <;> rfl
    have hk : ∀ (s : State) e, State.hostBefore { s with ovr := ovr, ill := ill, reads := reads, errors := errors } e =
        s.hostBefore e := fun _ _ => rfl
    rw [runPhases, runPhases, hb, he, ht, hk]
    by_cases hc : (beginPhase p x s).hostBefore (phaseEnd p x (beginPhase p x s)) = true
    · rw [if_pos hc, if_pos hc]
      rfl
    · rw [if_neg hc, if_neg hc]
      cases endPhase p x (beginPhase p x s) with
      | inl v => rfl
      | inr x' => exact ih _ _

/-- A run does not look at the tick it is taken up at, nor at the sequencer: with an empty schedule it ends as if taken up
at another. -/
theorem runPhases_resumed (tick : Nat) (seq : Seq) {ps : List Phase} {x : Exec} {s : State} (hh : s.host = []) :
    runPhases ps x { s with tick := tick, seq := seq } = runPhases ps x s := by
  induction ps generalizing x s with
  | nil => rfl
  | cons p ps ih =>
    have hb : beginPhase p x { s with tick := tick, seq := seq } =
        { beginPhase p x s with tick := tick, seq := seq } := by cases p <;> rfl
    have he : ∀ s : State, phaseEnd p x { s with tick := tick, seq := seq } = phaseEnd p x s :=
      fun _ => by cases p <;> rfl
    have ht : ∀ s : State, endPhase p x { s with tick := tick, seq := seq } = endPhase p x s :=
      fun _ => by cases p <;> rfl
    have hn : ∀ e, s.hostBefore e = false := fun e => by simp [State.hostBefore, hh]
    have hn' : ∀ e, State.hostBefore { s with tick := tick, seq := seq } e = false := hn
    rw [runPhases_cons (hn _), runPhases_cons (hn' _), hb, he, ht]
    cases endPhase p x (beginPhase p x s) with
    | inl v => rfl
    | inr x' => exact ih (by rw [beginPhase_host, hh])

/-! ### The meanings -/

/-- Every operation issues a script; a reserved encoding is rejected. -/
theorem exec_issues (i : Instr) (h : i.wf = true) : ∃ phs v acc, ∀ s, exec i s = issue phs v acc s := by
  cases i <;> first | exact ⟨_, _, _, fun _ => rfl⟩ | exact absurd h (by decide)

theorem exec_rejects (i : Instr) (h : i.wf = false) (s : State) : exec i s = reject s := by
  cases i <;> first | rfl | exact absurd h (by simp [Instr.wf])

end Sys2Proof.Machine
end

