-- ==== Sys2Proof/Laws/Access.lean ====
section
/-! SUPPORT. What a step does with the world's events. -/

namespace Sys2Proof.Machine

/-! ### The event that comes next -/

theorem takeDue_some {f : HostEvent → Bool} {now : Nat} {l : List HostEvent} {ev : HostEvent} {rest : List HostEvent}
    (h : takeDue f now l = some (ev, rest)) : ∃ before after, l = before ++ ev :: after ∧ rest = before ++ after ∧
      f ev = true ∧ ev.tick ≤ now ∧ ∀ e ∈ before, e.tick ≤ now ∧ f e = false := by
  induction l generalizing rest with
  | nil => simp [takeDue] at h
  | cons e l ih =>
    by_cases hd : e.tick ≤ now
    · by_cases hf : f e = true
      · simp only [takeDue, hd, hf, if_true, Option.some.injEq, Prod.mk.injEq] at h
        obtain ⟨rfl, rfl⟩ := h
        exact ⟨[], l, rfl, rfl, hf, hd, by simp⟩
      · simp only [takeDue, hd, hf, if_true, Bool.false_eq_true, if_false, Option.map_eq_some_iff, Prod.mk.injEq,
          Prod.exists] at h
        obtain ⟨ev', rest', h', rfl, rfl⟩ := h
        obtain ⟨before, after, rfl, rfl, h3, h4, h5⟩ := ih h'
        refine ⟨e :: before, after, rfl, rfl, h3, h4, ?_⟩
        simpa using ⟨⟨hd, by simpa using hf⟩, h5⟩
    · simp [takeDue, hd] at h

theorem takeDue_none {f : HostEvent → Bool} {now : Nat} {l : List HostEvent} (h : takeDue f now l = none) :
    ∀ e ∈ l.takeWhile (·.tick ≤ now), f e = false := by
  induction l with
  | nil => simp
  | cons e l ih =>
    by_cases hd : e.tick ≤ now
    · by_cases hf : f e = true
      · simp [takeDue, hd, hf] at h
      · simp only [takeDue, hd, hf, if_true, Bool.false_eq_true, if_false, Option.map_eq_none_iff] at h
        simpa [hd] using ⟨by simpa using hf, by simpa using ih h⟩
    · simp [hd]

theorem takeDue_first {f : HostEvent → Bool} {now : Nat} {before : List HostEvent} {ev : HostEvent}
    {after : List HostEvent} (hb : ∀ e ∈ before, e.tick ≤ now ∧ f e = false) (hd : ev.tick ≤ now) (hf : f ev = true) :
    takeDue f now (before ++ ev :: after) = some (ev, before ++ after) := by
  induction before with
  | nil => simp [takeDue, hd, hf]
  | cons e before ih =>
    have h := hb e (by simp)
    simp [takeDue, h, ih fun e' h' => hb e' (by simp [h'])]

theorem takeDue_eq_none {f : HostEvent → Bool} {now : Nat} {l : List HostEvent}
    (h : ∀ e ∈ l.takeWhile (·.tick ≤ now), f e = false) : takeDue f now l = none := by
  cases hr : takeDue f now l with
  | none => rfl
  | some r =>
    obtain ⟨before, after, rfl, -, h3, h4, h5⟩ := takeDue_some (ev := r.1) (rest := r.2) hr
    have := h r.1 (by
      rw [List.takeWhile_append_of_pos fun e he => by simpa using (h5 e he).1]
      simp [h4])
    simp [h3] at this

/-- What comes next is due, as is all before it in the schedule. If it is not of the kind that comes first, no due event
is: out of reset the edges of the reset input come first, in reset the accesses. -/
theorem nextEvent_some {s : State} {ev : HostEvent} {rest : List HostEvent} (h : s.nextEvent = some (ev, rest)) :
    ∃ before after, s.host = before ++ ev :: after ∧ rest = before ++ after ∧ ev.tick ≤ s.tick ∧
      (∀ e ∈ before, e.tick ≤ s.tick) ∧
      (ev.event.isEdge = s.inReset → before = [] ∧ ∀ e ∈ s.host.takeWhile (·.tick ≤ s.tick), e.event.isEdge = s.inReset) := by
  unfold State.nextEvent at h
  split at h
  · next r hr =>
    cases h
    obtain ⟨before, after, h1, h2, h3, h4, h5⟩ := takeDue_some hr
    exact ⟨before, after, h1, h2, h4, fun e he => (h5 e he).1, fun he => by simp [he] at h3⟩
  · next hr =>
    obtain ⟨before, after, h1, h2, -, h4, h5⟩ := takeDue_some h
    have hb : before = [] := by
      cases before with
      | nil => rfl
      | cons e _ => exact absurd (h5 e (by simp)).2 (by simp)
    subst hb
    exact ⟨[], after, h1, h2, h4, by simp, fun _ => ⟨rfl, fun e he => by simpa using takeDue_none hr e he⟩⟩

/-- With a due event at the head of the schedule, some event comes next. -/
theorem nextEvent_due {s : State} {ev : HostEvent} {rest : List HostEvent} (hh : s.host = ev :: rest)
    (hd : ev.tick ≤ s.tick) : ∃ ev' rest', s.nextEvent = some (ev', rest') := by
  unfold State.nextEvent
  split
  · next r hr => exact ⟨_, _, rfl⟩
  · exact ⟨ev, rest, by simp [takeDue, hh, hd]⟩

/-- An event of the kind that comes first, behind due events of the other kind. -/
theorem nextEvent_first {s : State} {before after : List HostEvent} {ev : HostEvent} (hh : s.host = before ++ ev :: after)
    (hb : ∀ e ∈ before, e.tick ≤ s.tick ∧ e.event.isEdge = s.inReset) (hd : ev.tick ≤ s.tick)
    (he : ev.event.isEdge ≠ s.inReset) : s.nextEvent = some (ev, before ++ after) := by
  unfold State.nextEvent
  rw [hh, takeDue_first (f := fun ev => ev.event.isEdge != s.inReset)
    (fun e h => ⟨(hb e h).1, by simp [(hb e h).2]⟩) hd (by simpa using he)]

/-- The head of the schedule, if no due event is of the kind that comes first. -/
theorem nextEvent_head {s : State} {ev : HostEvent} {rest : List HostEvent} (hh : s.host = ev :: rest)
    (hd : ev.tick ≤ s.tick) (hk : ∀ e ∈ s.host.takeWhile (·.tick ≤ s.tick), e.event.isEdge = s.inReset) :
    s.nextEvent = some (ev, rest) := by
  unfold State.nextEvent
  rw [takeDue_eq_none fun e h => by simp [hk e h]]
  simp [takeDue, hh, hd]

/-- No event comes next if the head of the schedule is not due. -/
theorem nextEvent_none {s : State} (h : ∀ ev rest, s.host = ev :: rest → s.tick < ev.tick) : s.nextEvent = none := by
  have hw : s.host.takeWhile (·.tick ≤ s.tick) = [] := by
    cases hh : s.host with
    | nil => rfl
    | cons ev rest => simp [Nat.not_le.2 (h ev rest hh)]
  unfold State.nextEvent
  rw [takeDue_eq_none (by simp [hw]), takeDue_eq_none (by simp [hw])]

/-- The due events left when one is taken were due before. -/
theorem nextEvent_left {s : State} {ev : HostEvent} {rest : List HostEvent} (h : s.nextEvent = some (ev, rest)) :
    ∀ e ∈ State.dueEvents { s with host := rest }, e ∈ s.dueEvents := by
  obtain ⟨before, after, h1, rfl, hd, hb, -⟩ := nextEvent_some h
  intro e he
  simp only [State.dueEvents, h1] at he ⊢
  rw [List.takeWhile_append_of_pos fun e he => by simpa using hb e he] at he ⊢
  simp only [hd, decide_true, List.takeWhile_cons_of_pos, List.mem_append, List.mem_cons] at he ⊢
  exact he.imp id .inr

/-- If an access comes next out of reset, only accesses are due. -/
theorem nextEvent_access {s : State} {ev : HostEvent} {rest : List HostEvent} (h : s.nextEvent = some (ev, rest))
    (he : ev.event.isEdge = false) (hr : s.inReset = false) : ∀ e ∈ s.dueEvents, e.event.isEdge = false := by
  obtain ⟨_, _, -, -, -, -, hk⟩ := nextEvent_some h
  have := (hk (by rw [he, hr])).2
  rwa [hr] at this

/-- The event that comes next is performed, and leaves the schedule. -/
theorem fetch_due {s : State} {ev : HostEvent} {rest : List HostEvent} (h : s.nextEvent = some (ev, rest)) :
    fetch s = perform ev.event { s with host := rest } := by
  simp [fetch, h]

/-- With no event due, time passes. -/
theorem fetch_notDue {s : State} (h : ∀ ev rest, s.host = ev :: rest → s.tick < ev.tick) :
    fetch s = .advance (passTime s) := by
  simp [fetch, nextEvent_none h]

/-! ### A step -/

/-- With no event due, a running operation goes on. -/
theorem step_running {s : State} {x : Exec} (hx : s.seq = .exec x)
    (hn : ∀ ev rest, s.host = ev :: rest → s.tick < ev.tick) : step s = .next (runPhases x.todo x s) := by
  simp [step, fetch_notDue hn, passTime, hx]

/-- A step is an advance, a refusal, or the meaning of a word. -/
theorem step_cases {s t : State} (h : step s = .next t) :
    fetch s = .advance t ∨ ∃ w u, fetch s = .word w u ∧ exec (decode w) (u.latchWord w) = .next t := by
  unfold step at h
  split at h
  · next he => cases h; exact .inl he
  · cases h
  · next w u he => exact .inr ⟨w, u, he, h⟩

/-- An access a running block takes changes the host-error flags, their record and what was read, and nothing else. -/
theorem hostAccess_busy {a : Access} (ha : a.legal) {s : State} (hr : s.inReset = false) (hb : s.busy = true) :
    ∃ o l r e, hostAccess a s = .advance { s with ovr := o, ill := l, reads := r, errors := e } := by
  cases a with
  | read w off =>
    obtain ⟨rfl, h4⟩ := ha
    simp only [hostAccess, aligned, h4]
    exact ⟨_, _, _, _, rfl⟩
  | write w off v =>
    obtain ⟨rfl, h4⟩ := ha
    simp only [hostAccess, aligned, h4, hostWrite, beq_self_eq_true, if_true]
    by_cases h0 : off = 0#5
    · refine ⟨true, s.ill, s.reads, { tick := s.tick, error := .ovr } :: s.errors, ?_⟩
      simp [h0, hr, hb, State.flagOvr]
    · by_cases h5 : off.toNat = 4
      · refine ⟨s.ovr && !v.getLsbD 8, s.ill && !v.getLsbD 9, s.reads, s.errors, ?_⟩
        simp [h0, State.regWrite, h5, State.clearFlags]
      · exact ⟨s.ovr, s.ill, s.reads, s.errors, by simp [h0, State.regWrite]⟩

/-! ### The host's addresses (R50) -/

/-- Every address from `BASE` on has its offset. -/
theorem windowOffset_inside (p : Config.OpenParams) (off : BitVec 5) :
    windowOffset p (p.base + off.toNat) = some off := by
  have := off.isLt
  rw [windowOffset, if_pos ⟨by omega, by omega⟩]
  simp

/-- An address below the window or above it has none. -/
theorem windowOffset_outside {p : Config.OpenParams} {addr : Nat} (h : addr < p.base ∨ p.base + 32 ≤ addr) :
    windowOffset p addr = none := by
  rw [windowOffset, if_neg (by omega)]

end Sys2Proof.Machine
end

