-- ==== Sys2Proof/Laws/HostProtocol.lean ====
section
/-! SUPPORT. What the host's software can count on: it waits long enough, so BUSY = 0 when it goes on; and an operation that
nothing else delays is its meaning, a gap later. -/

namespace Sys2Proof.Machine

theorem chain_next {σ : Type} {o : Host.Outcome State Fault Refusal} {k : State → Host.Outcome σ Fault Refusal} {r : σ}
    (h : chain o k = .next r) : ∃ t, o = .next t ∧ k t = .next r := by
  cases o with
  | next t => exact ⟨t, rfl, h⟩
  | fault f => simp [chain] at h
  | refused f => simp [chain] at h

/-- No operation changes the schedule. -/
theorem exec_host {i : Instr} {s t : State} (h : exec i s = .next t) : t.host = s.host := by
  cases hw : i.wf with
  | true =>
    obtain ⟨phs, v, acc, hf⟩ := exec_issues i hw
    rw [hf] at h
    rcases issue_cases h with ⟨-, rfl⟩ | ⟨-, -, rfl⟩ | ⟨-, -, rfl⟩
    · rfl
    · rfl
    · exact runPhases_keeps (P := fun u => u.host = s.host) (by simp) (by simp) (by simp) _ _ _ rfl
  | false =>
    rw [exec_rejects i hw] at h
    unfold reject at h
    split at h
    · cases h; rfl
    · split at h <;> cases h <;> rfl

/-! ### Waiting for BUSY = 0 -/

/-- The event that comes next leaves the schedule, and no other does. -/
theorem step_due {s t : State} {ev : HostEvent} {rest : List HostEvent} (hn : s.nextEvent = some (ev, rest))
    (h : step s = .next t) : t.host = rest := by
  rcases step_cases h with hf | ⟨w, u, hf, he⟩ <;> rw [fetch_due hn] at hf
  · cases hev : ev.event with
    | access a =>
      rw [hev] at hf
      cases a with
      | read wd off =>
        cases wd <;> simp only [perform, hostAccess] at hf <;> try cases hf
        split at hf <;> cases hf
        rfl
      | write wd off v =>
        cases wd <;> simp only [perform, hostAccess] at hf <;> try cases hf
        split at hf
        · unfold hostWrite at hf
          split at hf
          · split at hf
            · cases hf; rfl
            · split at hf <;> cases hf
              rfl
          · cases hf
            unfold State.regWrite
            split <;> rfl
        · cases hf
    | resetAssert => rw [hev] at hf; cases hf; rfl
    | resetRelease => rw [hev] at hf; cases hf; rfl
  · rw [exec_host he]
    cases hev : ev.event with
    | access a =>
      rw [hev] at hf
      cases a with
      | read wd off =>
        cases wd <;> simp only [perform, hostAccess] at hf <;> try cases hf
        split at hf <;> cases hf
      | write wd off v =>
        cases wd <;> simp only [perform, hostAccess] at hf <;> try cases hf
        split at hf
        · unfold hostWrite at hf
          split at hf
          · split at hf
            · cases hf
            · split at hf <;> cases hf
              rfl
          · cases hf
        · cases hf
    | resetAssert => rw [hev] at hf; cases hf
    | resetRelease => rw [hev] at hf; cases hf

/-- 1 while the next event of the schedule is still to come. -/
def eventAhead (s : State) : Nat :=
  match s.host with
  | [] => 0
  | ev :: _ => if s.tick < ev.tick then 1 else 0

/-- How many steps the schedule and the running operation can still take: each event is reached, performed, and what it
issues is ended. -/
def stepsLeft (s : State) : Nat := 3 * s.host.length + eventAhead s + s.busy.toNat

theorem eventAhead_le (s : State) : eventAhead s ≤ 1 := by
  unfold eventAhead
  split
  · omega
  · split <;> omega

/-- A step makes fewer of them, but for an idle block with nothing scheduled. -/
theorem step_stepsLeft {s t : State} (h : step s = .next t) (hne : s.host ≠ [] ∨ s.busy = true) :
    stepsLeft t < stepsLeft s := by
  have hb : t.busy.toNat ≤ 1 := Bool.toNat_le _
  have ha := eventAhead_le t
  by_cases hn : ∀ ev rest, s.host = ev :: rest → s.tick < ev.tick
  · simp only [step, fetch_notDue hn, passTime] at h
    cases hq : s.seq with
    | idle =>
      cases hh : s.host with
      | nil => simp [hh, State.busy, hq] at hne
      | cons ev rest =>
        simp only [hq, hh, Host.Outcome.next.injEq] at h
        subst h
        simp [stepsLeft, eventAhead, hh, State.busy, hq, hn ev rest hh]
    | exec x =>
      simp only [hq, Host.Outcome.next.injEq] at h
      have hk : t.host = s.host := by
        rw [← h]
        exact runPhases_keeps (P := fun u => u.host = s.host) (by simp) (by simp) (by simp) _ _ _ rfl
      have hs : s.busy = true := by simp [State.busy, hq]
      cases hh : s.host with
      | nil =>
        have ht : t.busy = false := by
          rw [← h]
          simp [State.busy, (runPhases_ends (ps := x.todo) (x := x) hh).1]
        simp [stepsLeft, eventAhead, hk, hh, hs, ht]
      | cons ev rest =>
        have hlt := hn ev rest hh
        cases ht : t.busy with
        | false =>
          simp only [stepsLeft, hk, hh, hs, ht, Bool.toNat_true, Bool.toNat_false]
          have : eventAhead s = 1 := by simp [eventAhead, hh, hlt]
          omega
        | true =>
          obtain ⟨todo, x', s', e, d, w, e'⟩ := runPhases_busy (ps := x.todo) (x := x) (s := s) (by rw [h]; exact ht)
          have hle : ev.tick ≤ t.tick := by
            rw [← h, e, e']
            simp [park, State.hostTick, hh]
          simp [stepsLeft, eventAhead, hk, hh, hs, ht, hlt, Nat.not_lt.2 hle]
  · push Not at hn
    obtain ⟨ev, rest, hh, hd⟩ := hn
    obtain ⟨ev', rest', he⟩ := nextEvent_due hh hd
    have hlen : s.host.length = t.host.length + 1 := by
      obtain ⟨before, after, h1, h2, -⟩ := nextEvent_some he
      rw [step_due he h, h1, h2]
      simp only [List.length_append, List.length_cons]
      omega
    unfold stepsLeft
    omega

/-- With steps enough, the wait ends with BUSY = 0 and no more than `later` events pending. -/
theorem settle_settled {later n : Nat} {s t : State} (hn : stepsLeft s ≤ n) (h : settle later n s = .next t) :
    t.host.length ≤ later ∧ t.busy = false := by
  induction n generalizing s with
  | zero =>
    rw [settle, Host.Outcome.next.injEq] at h
    subst h
    unfold stepsLeft at hn
    exact ⟨by omega, by cases hb : s.busy <;> simp_all⟩
  | succ n ih =>
    rw [settle] at h
    split at h
    · next hs => cases h; exact hs
    · next hs =>
      obtain ⟨u, h1, h2⟩ := chain_next h
      refine ih ?_ h2
      have := step_stepsLeft h1 (by
        by_contra hc
        simp only [not_or, Decidable.not_not, Bool.not_eq_true] at hc
        exact hs ⟨by simp [hc.1], hc.2⟩)
      omega

/-- Whatever is in the schedule, an operation the host issues has ended when the host goes on: BUSY = 0. -/
theorem hostIssue_idle {gap : Nat} {i : Instr} {s t : State} (h : hostIssue gap i s = .next t) : t.seq = .idle := by
  have hb : ∀ u : State, stepsLeft u ≤ 3 * u.host.length + 2 := fun u => by
    have := eventAhead_le u
    have := Bool.toNat_le u.busy
    unfold stepsLeft
    omega
  have hl : (insertWrite (s.tick + gap) (encode i) s.host).length = s.host.length + 1 := by
    have := congrArg List.length (List.takeWhile_append_dropWhile (p := (·.tick ≤ s.tick + gap)) (l := s.host))
    simp only [insertWrite, List.length_append, List.length_cons] at this ⊢
    omega
  have := (settle_settled (Nat.le_trans (hb _) (by simp only [settleSteps, hl]; omega)) h).2
  simpa [State.busy] using this

/-! ### An operation that nothing delays -/

/-- If the host does nothing else up to the start tick and the operation ends before the next event, the host goes on with
what the operation leaves. -/
theorem hostIssue_completes {gap : Nat} {i : Instr} {s t : State} (hw : i.wf = true) (hd : decode (encode i) = i)
    (hi : s.seq = .idle) (hr : s.inReset = false) (hh : s.hostBefore (s.tick + gap + 1) = false)
    (he : exec i { s with tick := s.tick + gap, opword := encode i } = .next t) (ht : t.seq = .idle) :
    hostIssue gap i s = .next t := by
  have hk : s.host.takeWhile (·.tick ≤ s.tick + gap) = [] ∧ s.host.dropWhile (·.tick ≤ s.tick + gap) = s.host := by
    cases hs : s.host with
    | nil => simp
    | cons ev rest =>
      simp only [State.hostBefore, hs, decide_eq_false_iff_not] at hh
      have : ¬ ev.tick ≤ s.tick + gap := by omega
      simp [this]
  have hrun : ∀ m, settle s.host.length (m + 2) { s with
      tick := s.tick + gap
      host := { tick := s.tick + gap, event := .access (.write .word 0#5 (encode i)) } :: s.host } = .next t := by
    intro m
    rw [settle, if_neg (by simp), step, fetch_due (nextEvent_head rfl (Nat.le_refl _) (by
      simp only [Nat.le_refl, decide_true, List.takeWhile_cons_of_pos, hk.1]
      simp [Event.isEdge, hr]))]
    simp only [perform, hostAccess, aligned, hostWrite, State.busy, hi, hr] at he ⊢
    simp only [State.latchWord, hd, hw, he, if_true, chain, beq_self_eq_true, bne_self_eq_false, Bool.false_eq_true,
      if_false, BitVec.toNat_zero, Nat.zero_mod]
    rw [settle, if_pos ⟨by rw [exec_host he], by simp [State.busy, ht]⟩]
  simp only [hostIssue, insertWrite, hk, List.nil_append]
  rw [show settleSteps (s.host.length + 1) = 3 * s.host.length + 3 + 1 + 2 by simp only [settleSteps]; omega]
  cases gap with
  | zero => exact hrun (3 * s.host.length + 3 + 1)
  | succ g =>
    rw [settle, if_neg (by simp), step, fetch_notDue (by
      intro ev rest h
      cases h
      simp only
      omega)]
    simp only [passTime, hi, chain]
    simpa only [hi] using hrun (3 * s.host.length + 3)

end Sys2Proof.Machine
end

