-- ==== Sys2Proof/Laws/Invariant.lean ====
section
/-! SUPPORT. What keeps the invariant of a safe run: the inputs and records, a run of the sequencer, an operation, and
time that passes. -/

namespace Sys2Proof.Machine

/-! ### The inputs and the records -/

/-- Of the schedule, the invariant looks at what is due. -/
theorem Inv_withHost {s : State} (h : s.Inv) {rest : List HostEvent}
    (hr : ∀ e ∈ State.dueEvents { s with host := rest }, e ∈ s.dueEvents) : State.Inv { s with host := rest } := by
  refine { h with phaseRuns := fun x hx => ?_, edgesFirst := fun h1 h2 e he => h.edgesFirst h1 h2 e (hr e he) }
  obtain ⟨p, ps, h1, h2, h3⟩ := h.phaseRuns x hx
  have hb : beginPhase p x { s with host := rest } = { beginPhase p x s with host := rest } := by cases p <;> rfl
  have he : phaseEnd p x { s with host := rest } = phaseEnd p x s := by cases p <;> rfl
  exact ⟨p, ps, h1, by rw [hb, h2], by rw [he]; exact h3⟩

/-- The host-error flags may change with their record, but are clear in reset. -/
theorem Inv_withFlags {s : State} (h : s.Inv) {o l : Bool} {e : List ErrorRecord}
    (hf : o = true ∨ l = true → e ≠ []) (hr : s.inReset = true → o = false ∧ l = false) :
    State.Inv { s with ovr := o, ill := l, errors := e } := by
  refine { h with flagged := hf, phaseRuns := fun x hx => ?_, resetHeld := fun h2 => ?_ }
  · obtain ⟨p, ps, h1, h2, h3⟩ := h.phaseRuns x hx
    have hb : beginPhase p x { s with ovr := o, ill := l, errors := e } =
        { beginPhase p x s with ovr := o, ill := l, errors := e } := by cases p <;> rfl
    have he : phaseEnd p x { s with ovr := o, ill := l, errors := e } = phaseEnd p x s := by cases p <;> rfl
    exact ⟨p, ps, h1, by rw [hb, h2], by rw [he]; exact h3⟩
  · have h3 := h.resetHeld h2
    have h4 := hr h2
    simp_all

/-- The trace shows the line of the present tick. -/
theorem Inv_lineTrace {s : State} (h : s.Inv) : s.lineTrace s.tick = s.line := by
  rw [State.lineTrace, h.traceHeld _ h.phaseBegun]
  rfl

/-- The record of reads may change if it shows the line and the driver. -/
theorem Inv_withReads {s : State} (h : s.Inv) {rs : List ReadBack} (h1 : ∀ r ∈ rs, r.tick ≤ s.tick)
    (h2 : ∀ r ∈ rs, r.offset = 0x04#5 →
      (r.value.getLsbD 16 = true ↔ s.lineTrace r.tick = .high) ∧ (r.value.getLsbD 17 = true ↔ s.drvAt r.tick = .low))
    (h3 : s.inReset = false → ∀ e ∈ s.dueEvents, e.event.isEdge = false) : State.Inv { s with reads := rs } := by
  refine { h with phaseRuns := fun x hx => ?_, readsPast := h1, readsShowTick := h2, edgesFirst := fun hr _ => h3 hr }
  obtain ⟨p, ps, h4, h5, h6⟩ := h.phaseRuns x hx
  have hb : beginPhase p x { s with reads := rs } = { beginPhase p x s with reads := rs } := by cases p <;> rfl
  have he : phaseEnd p x { s with reads := rs } = phaseEnd p x s := by cases p <;> rfl
  exact ⟨p, ps, h4, by rw [hb, h5], by rw [he]; exact h6⟩

/-- A read shows the line and the driver of its tick, which out of reset no due edge can change any more. -/
theorem Inv_answerRead {s : State} (h : s.Inv) (off : BitVec 5)
    (hk : s.inReset = false → ∀ e ∈ s.dueEvents, e.event.isEdge = false) : (s.answerRead off).Inv := by
  refine Inv_withReads h (fun r hr => ?_) (fun r hr ho => ?_) hk <;> rcases List.mem_cons.1 hr with rfl | hr
  · exact Nat.le_refl _
  · exact h.readsPast r hr
  · have h4 : s.regRead off = s.status := by rw [show off = 4#5 from ho]; rfl
    show ((s.regRead off).getLsbD 16 = true ↔ s.lineTrace s.tick = .high) ∧
      ((s.regRead off).getLsbD 17 = true ↔ s.drvAt s.tick = .low)
    rw [h4, Inv_lineTrace h, h.traceHeld _ h.phaseBegun]
    exact status_line s
  · exact h.readsShowTick r hr ho

/-- A running block is not in reset. -/
theorem Inv_notInReset {s : State} {x : Exec} (h : s.Inv) (hx : s.seq = .exec x) : s.inReset = false := by
  cases hr : s.inReset with
  | false => rfl
  | true => exact absurd (h.resetHeld hr).1 (by simp [hx])

/-! ### A run -/

/-- What a run keeps of the invariant: all but where it stands in its script. -/
structure RunInv (x : Exec) (s : State) : Prop where
  traceHeld : ∀ u, x.phaseStart ≤ u → s.drvAt u = s.drv
  phaseBegun : ∀ ev ∈ s.host.head?, x.phaseStart ≤ max s.tick ev.tick
  epochPast : s.epoch ≤ x.phaseStart
  okNoError : s.ok = true → s.errkind = .none
  bitTimeout : s.bitval = .error ↔ s.errkind = .bitTimeout
  oneOk : s.bitval = .one → s.ok = true
  noBusReset : s.rstv = false → s.lastReset = 0#32
  busResetSeen : s.rstv = true → ∃ e, s.busResetEnd = some e ∧ s.epoch ≤ e ∧ s.lastReset = s.nowAt e
  busResetPast : ∀ e, s.busResetEnd = some e → e ≤ x.phaseStart
  flagged : s.ovr = true ∨ s.ill = true → s.errors ≠ []
  notReset : s.inReset = false
  readsPast : ∀ r ∈ s.reads, r.tick ≤ s.tick
  readsShowTick : ∀ r ∈ s.reads, r.offset = 0x04#5 →
    (r.value.getLsbD 16 = true ↔ s.lineTrace r.tick = .high) ∧ (r.value.getLsbD 17 = true ↔ s.drvAt r.tick = .low)
  edgesFirst : (∃ r ∈ s.reads, r.tick = s.tick) → ∀ ev ∈ s.dueEvents, ev.event.isEdge = false

/-- A phase that sets the driver after the present tick leaves what was read. -/
theorem RunInv_begin {p : Phase} {x : Exec} {s : State} (h : RunInv x s)
    (hp : beginPhase p x s = s ∨ s.tick < x.phaseStart) : RunInv x (beginPhase p x s) := by
  rcases beginPhase_cases p x s with e | ⟨d, n, -, e⟩
  · rw [e]; exact h
  · rcases hp with hp | hp
    · rw [hp]; exact h
    rw [e]
    have hd := drvAt_setDrv (Nat.le_refl _) h.traceHeld d
    refine { h with
      traceHeld := fun u hu => by rw [hd, if_pos hu]; rfl
      readsShowTick := fun r hr ho => ?_ }
    have hu : (s.setDrv x.phaseStart d).drvAt r.tick = s.drvAt r.tick := by
      have := h.readsPast r hr
      rw [hd, if_neg (by omega)]
    simpa only [State.lineTrace, hu, setDrv_dev] using h.readsShowTick r hr ho

theorem RunInv_later {x x' : Exec} {s : State} (h : RunInv x s) (hle : x.phaseStart ≤ x'.phaseStart)
    (hh : s.hostBefore x'.phaseStart = false) : RunInv x' s :=
  { h with
    traceHeld := fun u hu => h.traceHeld u (Nat.le_trans hle hu)
    phaseBegun := fun ev he => by
      cases hs : s.host with
      | nil => simp [hs] at he
      | cons e rest =>
        simp only [hs, List.head?_cons, Option.mem_def, Option.some.injEq] at he
        subst he
        simp only [State.hostBefore, hs, decide_eq_false_iff_not] at hh
        omega
    epochPast := Nat.le_trans h.epochPast hle
    busResetPast := fun e he => Nat.le_trans (h.busResetPast e he) hle }

theorem Inv_commit {x : Exec} {e : Nat} {v : Verdict} {acc : Half} {s : State} (h : RunInv x s)
    (he : x.phaseStart ≤ e) (hs : s.tick < e) : (commit v acc e s).Inv where
  traceHeld u hu := h.traceHeld u (Nat.le_trans he hu)
  phaseBegun := Nat.le_refl _
  epochPast := Nat.le_trans h.epochPast he
  okNoError := by cases v <;> simp [commit, Verdict.ok, Verdict.errkind]
  bitTimeout := by cases v <;> simp [commit, Verdict.bitval, Verdict.errkind]
  oneOk := by
    cases v <;> simp [commit, Verdict.ok, Verdict.bitval]
    intro hv
    simp [hv]
  noBusReset := by
    intro h1
    obtain ⟨h1, h2⟩ : s.rstv = false ∧ v ≠ .busReset := by simpa using h1
    simpa [h2] using h.noBusReset h1
  busResetSeen := by
    by_cases hv : v = .busReset
    · exact fun _ => ⟨e, by simp [hv], Nat.le_trans h.epochPast he, by simp [hv]; rfl⟩
    · intro hr
      simp only [commit_rstv, hv, decide_false, Bool.or_false] at hr
      rw [commit_busResetEnd, commit_lastReset, if_neg hv, if_neg hv]
      exact h.busResetSeen hr
  busResetPast := by
    intro e' h'
    by_cases hv : v = .busReset
    · simp only [commit_busResetEnd, hv, if_true, Option.some.injEq] at h'
      exact Nat.le_of_eq h'.symm
    · simp only [commit_busResetEnd, hv, if_false] at h'
      exact Nat.le_trans (h.busResetPast e' h') he
  phaseRuns := by intro x hx; simp at hx
  flagged := h.flagged
  resetHeld := by simp [h.notReset]
  readsPast r hr := Nat.le_of_lt (Nat.lt_of_le_of_lt (h.readsPast r hr) hs)
  readsShowTick := h.readsShowTick
  edgesFirst := by
    rintro - ⟨r, hr, he⟩
    have := h.readsPast r hr
    simp only [commit_tick] at he
    omega

/-- The run is taken up inside its first phase, which has begun, or before that phase's first tick. -/
def Ahead (ps : List Phase) (x : Exec) (s : State) : Prop :=
  (∃ p ps', ps = p :: ps' ∧ beginPhase p x s = s ∧ s.tick < phaseEnd p x s) ∨
  (s.tick < x.phaseStart ∧ s.hostBefore x.phaseStart = false)

/-- A run that ends, or stops at a host event, leaves the invariant. -/
theorem Inv_runPhases {ps : List Phase} {x : Exec} {s : State} (h : RunInv x s) (ha : Ahead ps x s) :
    (runPhases ps x s).Inv := by
  induction ps generalizing x s with
  | nil =>
    rcases ha with ⟨_, _, e, -⟩ | ⟨ha, -⟩
    · cases e
    · exact Inv_commit h (Nat.le_refl _) ha
  | cons p ps ih =>
    have hb : RunInv x (beginPhase p x s) := RunInv_begin h (by
      rcases ha with ⟨_, _, e, ha, -⟩ | ⟨ha, -⟩
      · cases e; exact .inl ha
      · exact .inr ha)
    have hle : x.phaseStart ≤ phaseEnd p x (beginPhase p x s) := Nat.le_add_right _ _
    have htick : s.tick < phaseEnd p x (beginPhase p x s) := by
      rcases ha with ⟨_, _, e, ha, hlt⟩ | ⟨ha, -⟩
      · cases e; rwa [ha]
      · omega
    by_cases hh : s.hostBefore (phaseEnd p x (beginPhase p x s)) = true
    · rw [runPhases_parks hh]
      obtain ⟨ev, rest, hs, hlt⟩ : ∃ ev rest, s.host = ev :: rest ∧ ev.tick < phaseEnd p x (beginPhase p x s) := by
        cases hs : s.host with
        | nil => simp [State.hostBefore, hs] at hh
        | cons ev rest => exact ⟨ev, rest, rfl, by simpa [State.hostBefore, hs] using hh⟩
      have ht : (beginPhase p x s).hostTick = max s.tick ev.tick := by simp [State.hostTick, hs]
      refine { hb with
        traceHeld := hb.traceHeld, epochPast := hb.epochPast, busResetPast := hb.busResetPast
        phaseBegun := ?_, phaseRuns := ?_, resetHeld := fun h2 => by simp [hb.notReset] at h2
        readsPast := fun r hr => ?_, readsShowTick := hb.readsShowTick, edgesFirst := ?_ }
      · show x.phaseStart ≤ (beginPhase p x s).hostTick
        rw [ht]
        exact h.phaseBegun ev (by simp [hs])
      · intro y hy
        cases hy
        refine ⟨p, ps, rfl, by cases p <;> simp [park, beginPhase, State.setDrv], ?_⟩
        have he : phaseEnd p { x with todo := p :: ps } (park (p :: ps) x (beginPhase p x s)) =
            phaseEnd p x (beginPhase p x s) := by cases p <;> rfl
        show (beginPhase p x s).hostTick < _
        rw [ht, he]
        omega
      · have := hb.readsPast r hr
        rw [beginPhase_tick] at this
        show r.tick ≤ (beginPhase p x s).hostTick
        rw [ht]
        omega
      · rintro - ⟨r, hr, he⟩ e' he'
        have hp := hb.readsPast r hr
        rw [beginPhase_tick] at hp
        have he : r.tick = (beginPhase p x s).hostTick := he
        rw [ht] at he
        have hk : (beginPhase p x s).hostTick = (beginPhase p x s).tick := by rw [ht, beginPhase_tick]; omega
        refine hb.edgesFirst ⟨r, hr, by rw [beginPhase_tick]; omega⟩ e' ?_
        simpa only [State.dueEvents, park, hk] using he'
    · have hh : s.hostBefore (phaseEnd p x (beginPhase p x s)) = false := by simpa using hh
      rw [runPhases_cons hh]
      cases endPhase p x (beginPhase p x s) with
      | inl v => exact Inv_commit hb hle (by simpa using htick)
      | inr x' =>
        exact ih (RunInv_later hb hle (by rw [beginPhase_hostBefore]; exact hh))
          (.inr ⟨by simpa using htick, by rw [beginPhase_hostBefore]; exact hh⟩)

/-! ### An operation, and time -/

theorem Inv_issue {phs : List Phase} {v : Verdict} {acc : Half} {s t : State} (h : s.Inv)
    (he : issue phs v acc s = .next t) : t.Inv := by
  rcases issue_cases he with ⟨-, rfl⟩ | ⟨hr, -, rfl⟩ | ⟨hr, hi, rfl⟩
  · exact h
  · exact Inv_withFlags h (o := true) (by simp) (fun h2 => by simp [hr] at h2)
  · have e : s.heldFrom = (accepted s v acc).phaseStart := by simp [State.heldFrom, hi, accepted]
    exact Inv_runPhases
      { h with
        traceHeld := fun u hu => h.traceHeld u (by rw [e]; exact hu)
        phaseBegun := fun ev _ => Nat.le_max_left _ _
        epochPast := e ▸ h.epochPast
        busResetPast := fun b hb => e ▸ h.busResetPast b hb
        notReset := hr, edgesFirst := h.edgesFirst hr }
      (.inl ⟨_, _, rfl, rfl, by simp [phaseEnd, phaseTicks, accepted]⟩)

/-- Every operation, issued or rejected, keeps the invariant. -/
theorem Inv_exec {i : Instr} {s t : State} (h : s.Inv) (he : exec i s = .next t) : t.Inv := by
  cases hw : i.wf with
  | true =>
    obtain ⟨phs, v, acc, hf⟩ := exec_issues i hw
    rw [hf] at he
    exact Inv_issue h he
  | false =>
    rw [exec_rejects i hw] at he
    unfold reject at he
    split at he
    · cases he; exact h
    · have hr : s.inReset = false := by simp_all
      split at he <;> cases he
      · exact Inv_withFlags h (o := true) (by simp) (fun h2 => by simp [hr] at h2)
      · exact Inv_withFlags h (l := true) (by simp) (fun h2 => by simp [hr] at h2)

/-- With no event due, time that passes keeps the invariant. -/
theorem Inv_passTime {s : State} (h : s.Inv) (hn : ∀ ev rest, s.host = ev :: rest → s.tick < ev.tick) :
    (passTime s).Inv := by
  unfold passTime
  cases hq : s.seq with
  | exec x =>
    have e : s.heldFrom = x.phaseStart := by simp [State.heldFrom, hq]
    obtain ⟨p, ps, h5, h6, h7⟩ := h.phaseRuns x hq
    refine Inv_runPhases
      { h with
        traceHeld := fun u hu => h.traceHeld u (by rw [e]; exact hu)
        phaseBegun := fun ev _ => Nat.le_trans (e ▸ h.phaseBegun) (Nat.le_max_left _ _)
        epochPast := e ▸ h.epochPast
        busResetPast := fun b hb => e ▸ h.busResetPast b hb
        notReset := Inv_notInReset h hq, edgesFirst := h.edgesFirst (Inv_notInReset h hq) }
      (.inl ⟨p, ps, h5, h6, h7⟩)
  | idle =>
    have e : s.heldFrom = s.tick := by simp [State.heldFrom, hq]
    have later : ∀ k, s.tick < k → State.Inv { s with tick := k, seq := .idle } := fun k hk =>
      { h with
        traceHeld := fun u hu => h.traceHeld u (by rw [e]; exact Nat.le_trans (Nat.le_of_lt hk) hu)
        phaseBegun := Nat.le_refl _
        epochPast := Nat.le_trans (e ▸ h.epochPast) (Nat.le_of_lt hk)
        busResetPast := fun b hb => Nat.le_trans (e ▸ h.busResetPast b hb) (Nat.le_of_lt hk)
        readsPast := fun r hr => Nat.le_of_lt (Nat.lt_of_le_of_lt (h.readsPast r hr) hk)
        edgesFirst := fun _ ⟨r, hr, he⟩ => by
          have := h.readsPast r hr
          have he : r.tick = k := he
          omega
        phaseRuns := fun x hx => by simp at hx
        resetHeld := fun hr => ⟨rfl, (h.resetHeld hr).2⟩ }
    cases hh : s.host with
    | nil => simpa only [hq, hh] using later (s.tick + 1) (Nat.lt_succ_self _)
    | cons ev rest => simpa only [hq, hh] using later ev.tick (hn ev rest hh)

/-! ### The reset input -/

/-- Reset keeps the invariant if it asserts before what is read at its tick (R20, R250). -/
theorem Inv_blockReset {s : State} (h : s.Inv) (hk : s.inReset = false → ∀ r ∈ s.reads, r.tick ≠ s.tick) :
    s.blockReset.Inv := by
  have hd := drvAt_setDrv h.phaseBegun h.traceHeld .rel
  have hp : ∀ r ∈ s.reads, s.blockReset.drvAt r.tick = s.drvAt r.tick := by
    intro r hr
    have hle := h.readsPast r hr
    show (s.setDrv s.tick .rel).drvAt r.tick = _
    rw [hd]
    split
    · next he =>
      have he : r.tick = s.tick := Nat.le_antisymm hle he
      cases hq : s.inReset with
      | false => exact absurd he (hk hq r hr)
      | true => rw [he, h.traceHeld _ h.phaseBegun, (h.resetHeld hq).2.1]
    · rfl
  constructor
  case traceHeld =>
    intro u hu
    exact (hd u).trans (if_pos hu)
  case epochPast => exact Nat.le_trans h.epochPast h.phaseBegun
  case busResetPast => exact fun e he => Nat.le_trans (h.busResetPast e he) h.phaseBegun
  case readsPast => exact h.readsPast
  case readsShowTick =>
    intro r hr ho
    rw [State.lineTrace, hp r hr]
    exact h.readsShowTick r hr ho
  all_goals simp [State.heldFrom]

/-- So does its release. -/
theorem Inv_releaseReset {s : State} (h : s.Inv) : s.releaseReset.Inv := by
  cases hr : s.inReset with
  | false =>
    have e : s.releaseReset = s := by
      obtain ⟨⟩ := s
      simp_all [State.releaseReset]
    rw [e]
    exact h
  | true =>
    have hq := (h.resetHeld hr).1
    have hf : s.heldFrom = s.tick := by simp [State.heldFrom, hq]
    have e : s.releaseReset = { s with inReset := false, tick := s.tick + 1, epoch := s.tick + 1, seq := .idle } := by
      simp [State.releaseReset, hr, hq]
    rw [e]
    exact { h with
      traceHeld := fun u hu => h.traceHeld u (by rw [hf]; exact Nat.le_trans (Nat.le_succ _) hu)
      phaseBegun := Nat.le_refl _
      epochPast := Nat.le_refl _
      busResetSeen := fun h2 => by simp [h.resetHeld hr] at h2
      busResetPast := fun b hb => Nat.le_trans (hf ▸ h.busResetPast b hb) (Nat.le_succ _)
      phaseRuns := fun x hx => by simp at hx
      resetHeld := fun h2 => by simp at h2
      readsPast := fun r hr => Nat.le_succ_of_le (h.readsPast r hr)
      edgesFirst := fun _ ⟨r, hr, he⟩ => by
        have := h.readsPast r hr
        have he : r.tick = s.tick + 1 := he
        omega }

/-! ### A running operation -/

/-- Without events, a running operation ends at a later tick. -/
theorem running_endsLater {s : State} {x : Exec} (h : s.Inv) (hx : s.seq = .exec x) (hh : s.host = []) :
    s.tick < (runPhases x.todo x s).tick := by
  obtain ⟨p, ps, h1, h2, h3⟩ := h.phaseRuns x hx
  rw [h1, runPhases_cons (by simp [State.hostBefore, hh]), h2]
  cases endPhase p x s with
  | inl v => exact h3
  | inr x' => exact Nat.lt_of_lt_of_le h3 (runPhases_ends (x := { x' with phaseStart := phaseEnd p x s }) hh).2

end Sys2Proof.Machine
end

