-- ==== Sys2Proof/Laws/PerInstr.lean ====
section
/-! SUPPORT. Statements about every operation as syntax, one lemma per constructor: the encoder writes a word of the
operation's own row of the opcode table. -/

namespace Sys2Proof.Laws.EncodesTableRow

open Sys2Proof

/-- The encoded word lies in the operation's row (R75, R76). -/
def Statement (i : Instr) : Prop := inRow (encode i) i = true

/-- Bits 31:28 of a packed word are OPC alone. -/
theorem pack_and_opc (o : BitVec 4) (c r : BitVec 2) (a l : BitVec 4) (imm : BitVec 16) :
    pack o c r a l imm &&& 0xF0000000#32 = place o 28 := by
  apply BitVec.eq_of_getLsbD_eq
  intro k hk
  interval_cases k <;> simp [pack, place]

/-- Bits 31:26 of a packed word are OPC and CMDOP alone. -/
theorem pack_and_cmdop (o : BitVec 4) (c r : BitVec 2) (a l : BitVec 4) (imm : BitVec 16) :
    pack o c r a l imm &&& 0xFC000000#32 = place o 28 ||| place c 26 := by
  apply BitVec.eq_of_getLsbD_eq
  intro k hk
  interval_cases k <;> simp [pack, place]

theorem lineRelease : Statement .lineRelease := rfl
theorem lineLow : Statement .lineLow := rfl
theorem lineRead : Statement .lineRead := rfl
theorem wait (n : BitVec 16) : Statement (.wait n) := beq_iff_eq.2 (pack_and_opc 0x4#4 0 0 0 0 n)
theorem encodeBit (b : Bool) : Statement (.encodeBit b) := beq_iff_eq.2 (pack_and_opc 0x5#4 0 0 0 0 _)
theorem decodeBit : Statement .decodeBit := rfl
theorem encodeFrame (lenm1 : BitVec 4) (wd : BitVec 16) : Statement (.encodeFrame lenm1 wd) :=
  beq_iff_eq.2 (pack_and_opc 0x7#4 0 0 0 lenm1 wd)
theorem decodeFrame (lenm1 : BitVec 4) : Statement (.decodeFrame lenm1) :=
  beq_iff_eq.2 (pack_and_opc 0x8#4 0 0 0 lenm1 0)
theorem resetBus : Statement .resetBus := rfl
theorem attention : Statement .attention := rfl
theorem sync : Statement .sync := rfl
theorem sendCommand (c : BitVec 8) : Statement (.sendCommand c) := beq_iff_eq.2 (pack_and_opc 0xC#4 0 0 0 0 _)
theorem turnaround (x : Bool) : Statement (.turnaround x) := beq_iff_eq.2 (pack_and_opc 0xD#4 0 0 0 0 _)
theorem composeTalk (reg : BitVec 2) (addr : BitVec 4) : Statement (.composeTalk reg addr) :=
  beq_iff_eq.2 (pack_and_cmdop 0xE#4 Config.cmdTalk reg addr 0 0)
theorem composeListen (reg : BitVec 2) (addr : BitVec 4) : Statement (.composeListen reg addr) :=
  beq_iff_eq.2 (pack_and_cmdop 0xE#4 Config.cmdListen reg addr 0 0)
theorem composeFlush (reg : BitVec 2) (addr : BitVec 4) : Statement (.composeFlush reg addr) :=
  beq_iff_eq.2 (pack_and_cmdop 0xE#4 Config.cmdFlush reg addr 0 0)
theorem talk (reg : BitVec 2) (addr : BitVec 4) : Statement (.talk reg addr) :=
  beq_iff_eq.2 (pack_and_cmdop 0xF#4 Config.cmdTalk reg addr 0 0)
theorem listen (reg : BitVec 2) (addr : BitVec 4) (wd : BitVec 16) : Statement (.listen reg addr wd) :=
  beq_iff_eq.2 (pack_and_cmdop 0xF#4 Config.cmdListen reg addr 0 wd)
theorem flush (reg : BitVec 2) (addr : BitVec 4) : Statement (.flush reg addr) :=
  beq_iff_eq.2 (pack_and_cmdop 0xF#4 Config.cmdFlush reg addr 0 0)
theorem reservedOpc0 : Statement .reservedOpc0 := rfl
theorem reservedECmdop : Statement .reservedECmdop := rfl
theorem reservedFCmdop : Statement .reservedFCmdop := rfl

end Sys2Proof.Laws.EncodesTableRow
end

