-- ==== Sys2Proof/Laws/Receive.lean ====
section
/-! SUPPORT. Scripts that measure the line: what the sequencer does with a bit, a run of data bits and a poll, said over
what the line says (`ReadsBit`, `ReadsBits`, `PollEnds`). -/

namespace Sys2Proof.Machine

/-- A received bit with value `v` and end tick `e` (R123): it is taken in its role, and the next phase begins at `e`. -/
theorem runPhases_readsBit {role : BitRole} {v : LogicalBit} {e : Nat} {ps : List Phase} {x : Exec} {s : State}
    (hv : ReadsBit s.lineAt x.phaseStart v e) (hl : x.low = none) (hh : s.hostBefore e = false) :
    runPhases (.low :: .high role :: ps) x s =
      match takeBit role v x with
      | .inl v => commit v x.acc e s
      | .inr x' => runPhases ps { x' with phaseStart := e } s := by
  have hx : ∀ q, { x with low := none, phaseStart := q } = { x with phaseStart := q } := fun q => by rw [← hl]
  have htake : ∀ w q, (match takeBit role w { x with phaseStart := q } with
      | .inl v => commit v x.acc e s
      | .inr x' => runPhases ps { x' with phaseStart := e } s) = (match takeBit role w x with
      | .inl v => commit v x.acc e s
      | .inr x' => runPhases ps { x' with phaseStart := e } s) := by
    intro w q
    cases role <;> cases w <;> rfl
  rcases hv with ⟨a, b, ha, hb1, hb, hlow, hhigh, hend, rfl, rfl⟩ | ⟨hlow, rfl, rfl⟩ | ⟨a, ha, hlow, hhigh, rfl, rfl⟩
  · have hma : s.measure x.phaseStart .low = some a :=
      measure_some.2 ⟨ha, by have := hhigh 0 (by omega); simp only [Nat.add_zero] at this; simp [this], hlow⟩
    have hmb : s.measure (x.phaseStart + a) .high = some b := measure_some.2 ⟨hb, by simp [hend], hhigh⟩
    rw [runPhases_bit hma hmb hh, hx]
    exact htake _ _
  · have hma : s.measure x.phaseStart .low = none := measure_none.2 hlow
    rw [runPhases_bit_low_timeout hma hh, hx]
    exact htake _ _
  · have hma : s.measure x.phaseStart .low = some a :=
      measure_some.2 ⟨ha, by have := hhigh 0 (by omega); simp only [Nat.add_zero] at this; simp [this], hlow⟩
    have hmb : s.measure (x.phaseStart + a) .high = none := measure_none.2 hhigh
    rw [runPhases_bit_high_timeout hma hmb hh, hx]
    exact htake _ _

/-- A decode ends after its start and within two bounds (R127). -/
theorem ReadsBit.bounds {L : Nat → Level} {p e : Nat} {v : LogicalBit} (h : ReadsBit L p v e) :
    p + 1 ≤ e ∧ e ≤ p + 2 * Config.maxWait := by
  have : Config.maxWait = 85 := rfl
  rcases h with ⟨a, b, ha, hb1, hb, -, -, -, -, rfl⟩ | ⟨-, -, rfl⟩ | ⟨a, ha, -, -, -, rfl⟩ <;> omega

/-- The same for a bit that is a sub-operation, with its start tick named. -/
theorem runPhases_subBit {role : BitRole} {v : LogicalBit} {p e : Nat} {ps : List Phase} {x : Exec} {s : State}
    (hp : x.phaseStart = p) (hv : ReadsBit s.lineAt p v e) (hl : x.low = none)
    (hh : s.hostBefore e = false) :
    runPhases (.sub :: .low :: .high role :: ps) x s =
      match takeBit role v { x with index := x.index + 1, subStart := p } with
      | .inl v => commit v x.acc e s
      | .inr x' => runPhases ps { x' with phaseStart := e } s := by
  subst hp
  rw [runPhases_sub (hostBefore_mono hh (by have := hv.bounds; omega))]
  exact runPhases_readsBit (x := { x with index := x.index + 1, subStart := x.phaseStart }) hv hl hh

/-- The first tick up to a bound at which the line is not at a level. -/
theorem exists_phase (L : Nat → Level) (p : Nat) (v : Level) (n : Nat) :
    (∀ j, j ≤ n → L (p + j) = v) ∨ ∃ a, a ≤ n ∧ (∀ j, j < a → L (p + j) = v) ∧ L (p + a) ≠ v := by
  induction n with
  | zero =>
    by_cases h : L (p + 0) = v
    · exact .inl fun j hj => by rw [Nat.le_zero.1 hj]; exact h
    · exact .inr ⟨0, Nat.le_refl _, fun j hj => by omega, h⟩
  | succ n ih =>
    rcases ih with h | ⟨a, ha, h1, h2⟩
    · by_cases h' : L (p + (n + 1)) = v
      · refine .inl fun j hj => ?_
        rcases Nat.lt_or_ge j (n + 1) with hj' | hj'
        · exact h j (by omega)
        · rw [show j = n + 1 by omega]; exact h'
      · exact .inr ⟨n + 1, Nat.le_refl _, fun j hj => h j (by omega), h'⟩
    · exact .inr ⟨a, by omega, h1, h2⟩

/-- Every line gives every decode a value and an end tick (R123). -/
theorem exists_readsBit (L : Nat → Level) (p : Nat) : ∃ v e, ReadsBit L p v e := by
  rcases exists_phase L p .low Config.maxWait with h | ⟨a, ha, h1, h2⟩
  · exact ⟨_, _, .inr (.inl ⟨h, rfl, rfl⟩)⟩
  · rcases exists_phase L (p + a) .high Config.maxWait with h | ⟨b, hb, h3, h4⟩
    · exact ⟨_, _, .inr (.inr ⟨a, ha, h1, h, rfl, rfl⟩)⟩
    · have hb1 : 1 ≤ b := by
        rcases Nat.eq_zero_or_pos b with h0 | h0
        · subst h0; exact absurd (Level.ne_low.1 h2) h4
        · exact h0
      exact ⟨_, _, .inl ⟨a, b, ha, hb1, hb, h1, h3, Level.ne_high.1 h4, rfl, rfl⟩⟩

/-! ### Data bits -/

theorem ReadsBits.le {L : Nat → Level} {p e : Nat} {bits : List Bool} (h : ReadsBits L p bits e) : p ≤ e := by
  induction bits generalizing p with
  | nil => exact Nat.le_of_eq h.symm
  | cons b bs ih =>
    obtain ⟨m, h1, h2⟩ := h
    have := h1.bounds
    have := ih h2
    omega

/-- Data bits shifted into the accumulator, MSB first (R144). -/
def shiftAll (acc : Half) (bits : List Bool) : Half := bits.foldl shiftIn acc

/-- The phases of `n` data bits. -/
def dataPhases (n : Nat) : List Phase := (List.replicate n (.sub :: decodeBitPhases .data)).flatten

theorem dataPhases_succ (n : Nat) : dataPhases (n + 1) = .sub :: .low :: .high .data :: dataPhases n := by
  simp [dataPhases, List.replicate_succ, decodeBitPhases]

/-- Data bits that are read without ERROR are shifted in one after another (R141, R144). -/
theorem runPhases_readsBits {bits : List Bool} {k m : Nat} {ps : List Phase} {x : Exec} {s : State}
    (hv : ReadsBits s.lineAt x.phaseStart bits m) (hl : x.low = none) (hh : s.hostBefore m = false) :
    ∃ i u, runPhases (dataPhases (bits.length + k) ++ ps) x s = runPhases (dataPhases k ++ ps)
      { x with
        index := i, subStart := u, phaseStart := m, bitIndex := x.bitIndex + bits.length
        acc := shiftAll x.acc bits } s := by
  induction bits generalizing x with
  | nil =>
    refine ⟨x.index, x.subStart, ?_⟩
    rw [show m = x.phaseStart from hv]
    simp [shiftAll]
  | cons b bs ih =>
    obtain ⟨m', h1, h2⟩ := hv
    have hm := h2.le
    have hb := h1.bounds
    rw [show (b :: bs).length + k = bs.length + k + 1 by simp only [List.length_cons]; omega, dataPhases_succ]
    simp only [List.cons_append]
    rw [runPhases_sub (hostBefore_mono hh (by omega)), runPhases_readsBit
      (x := { x with index := x.index + 1, subStart := x.phaseStart }) h1 hl (hostBefore_mono hh hm)]
    have ht : takeBit .data (if b then .one else .zero) { x with index := x.index + 1, subStart := x.phaseStart } =
        .inr { x with
          index := x.index + 1, subStart := x.phaseStart, acc := shiftIn x.acc b, bitIndex := x.bitIndex + 1 } := by
      cases b <;> simp [takeBit]
    rw [ht]
    obtain ⟨i, u, e⟩ := ih (x := { x with
      index := x.index + 1, subStart := x.phaseStart, acc := shiftIn x.acc b, bitIndex := x.bitIndex + 1
      phaseStart := m' }) h2 hl
    refine ⟨i, u, ?_⟩
    simp only at e ⊢
    rw [e]
    simp [shiftAll, Nat.add_assoc, Nat.add_comm 1]

/-- `decodeFramePhases` with its data bits named. -/
theorem decodeFramePhases_eq (n : Nat) : decodeFramePhases n =
    .sub :: .low :: .high .start :: (dataPhases n ++ [.sub, .low, .high .stop]) := by
  simp [decodeFramePhases, decodeBitPhases, dataPhases]

/-! ### The accumulator's value (R144) -/

theorem msbValue_append_foldl (bits : List Bool) (a : Nat) :
    bits.foldl (fun n b => 2 * n + b.toNat) a = a * 2 ^ bits.length + msbValue bits := by
  unfold msbValue
  induction bits generalizing a with
  | nil => simp
  | cons b bs ih =>
    simp only [List.foldl_cons, List.length_cons]
    rw [ih (2 * a + b.toNat), ih (2 * 0 + b.toNat)]
    ring

theorem msbValue_lt (bits : List Bool) : msbValue bits < 2 ^ bits.length := by
  induction bits with
  | nil => simp [msbValue]
  | cons b bs ih =>
    have : msbValue (b :: bs) = b.toNat * 2 ^ bs.length + msbValue bs := by
      have := msbValue_append_foldl bs (2 * 0 + b.toNat)
      simpa [msbValue] using this
    rw [this, List.length_cons, pow_succ]
    cases b <;> simp <;> omega

theorem shiftIn_ofNat (a : Nat) (b : Bool) : shiftIn (BitVec.ofNat 16 a) b = BitVec.ofNat 16 (2 * a + b.toNat) := by
  apply BitVec.eq_of_getLsbD_eq
  intro i hi
  cases i with
  | zero =>
    rw [BitVec.getLsbD_ofNat]
    cases b <;> simp [shiftIn, Nat.add_mod]
  | succ i =>
    have h1 : (2 * a + b.toNat) / 2 = a := by (cases b <;> simp); omega
    simp only [shiftIn, BitVec.getLsbD_or, BitVec.getLsbD_shiftLeft, BitVec.getLsbD_ofNat, BitVec.getLsbD_setWidth,
      Nat.testBit_succ, h1]
    have h2 : i < 16 := by omega
    simp [hi, h2]

/-- The accumulator after the data bits is their value (R144). -/
theorem shiftAll_eq (bits : List Bool) : shiftAll 0#16 bits = BitVec.ofNat 16 (msbValue bits) := by
  suffices h : ∀ a, shiftAll (BitVec.ofNat 16 a) bits = BitVec.ofNat 16 (bits.foldl (fun n b => 2 * n + b.toNat) a) by
    simpa [msbValue] using h 0
  induction bits with
  | nil => intro a; rfl
  | cons b bs ih =>
    intro a
    have e : shiftAll (BitVec.ofNat 16 a) (b :: bs) = shiftAll (shiftIn (BitVec.ofNat 16 a) b) bs := rfl
    rw [e, shiftIn_ofNat, ih]
    rfl

/-! ### A received frame (R141 to R145) -/

/-- A frame that is read: its word is in the accumulator at its end tick. -/
theorem runPhases_readsFrame {n wd e : Nat} {x : Exec} {s : State} (hv : ReadsFrame s.lineAt x.phaseStart n wd e)
    (hl : x.low = none) (hh : s.hostBefore e = false) :
    runPhases (decodeFramePhases n) x s = commit x.ending (BitVec.ofNat 16 wd) e s := by
  obtain ⟨bits, m, m', v, hn, hwd, h1, h2, h3⟩ := hv
  have b1 := h1.bounds
  have b2 := h2.le
  have b3 := h3.bounds
  rw [decodeFramePhases_eq]
  refine Eq.trans (runPhases_subBit rfl h1 hl (hostBefore_mono hh (by omega))) ?_
  simp only [takeBit, if_true]
  obtain ⟨i, u, h4⟩ := runPhases_readsBits (k := 0) (ps := [.sub, .low, .high .stop])
    (x := { x with
      index := x.index + 1, subStart := x.phaseStart, acc := 0#16, bitIndex := 0, phaseStart := m })
    h2 hl (hostBefore_mono hh (by omega))
  rw [Nat.add_zero, hn] at h4
  rw [h4, show dataPhases 0 ++ [.sub, .low, .high .stop] = [.sub, .low, .high .stop] from rfl]
  refine Eq.trans (runPhases_subBit rfl h3 hl hh) ?_
  simp [takeBit, runPhases_nil, shiftAll_eq, hwd]

/-- A frame whose start bit is not 1 (R142). -/
theorem runPhases_noStart {n e : Nat} {x : Exec} {s : State} (hv : NoStart s.lineAt x.phaseStart e)
    (hl : x.low = none) (hh : s.hostBefore e = false) :
    runPhases (decodeFramePhases n) x s = commit .noStart x.acc e s := by
  obtain ⟨v, hne, h1⟩ := hv
  have b1 := h1.bounds
  rw [decodeFramePhases_eq]
  refine Eq.trans (runPhases_subBit rfl h1 hl hh) ?_
  simp [takeBit, hne]

/-- A frame with a data bit that is ERROR (R143). -/
theorem runPhases_dataTimeout {n e : Nat} {x : Exec} {s : State} (hv : DataTimeout s.lineAt x.phaseStart n e)
    (hl : x.low = none) (hh : s.hostBefore e = false) :
    ∃ acc, runPhases (decodeFramePhases n) x s = commit .dataTimeout acc e s := by
  obtain ⟨bits, m, m', hn, h1, h2, h3⟩ := hv
  have b1 := h1.bounds
  have b2 := h2.le
  have b3 := h3.bounds
  refine ⟨shiftAll 0#16 bits, ?_⟩
  rw [decodeFramePhases_eq]
  refine Eq.trans (runPhases_subBit rfl h1 hl (hostBefore_mono hh (by omega))) ?_
  simp only [takeBit, if_true]
  obtain ⟨i, u, h4⟩ := runPhases_readsBits (k := n - bits.length) (ps := [.sub, .low, .high .stop])
    (x := { x with
      index := x.index + 1, subStart := x.phaseStart, acc := 0#16, bitIndex := 0, phaseStart := m })
    h2 hl (hostBefore_mono hh (by omega))
  rw [show bits.length + (n - bits.length) = n by omega] at h4
  obtain ⟨k, hk⟩ : ∃ k, n - bits.length = k + 1 := ⟨n - bits.length - 1, by omega⟩
  rw [hk] at h4
  rw [h4, dataPhases_succ]
  simp only [List.cons_append]
  refine Eq.trans (runPhases_subBit rfl h3 hl hh) ?_
  simp [takeBit]

/-- Every line gives a frame decode one of the three outcomes. -/
theorem exists_readsBits (L : Nat → Level) (n p : Nat) :
    (∃ bits m, bits.length = n ∧ ReadsBits L p bits m) ∨
    ∃ bits m e, bits.length < n ∧ ReadsBits L p bits m ∧ ReadsBit L m .error e := by
  induction n generalizing p with
  | zero => exact .inl ⟨[], p, rfl, rfl⟩
  | succ n ih =>
    obtain ⟨v, m, h⟩ := exists_readsBit L p
    have hb : v = .error ∨ ∃ b : Bool, v = (if b then .one else .zero) := by
      cases v
      · exact .inr ⟨false, rfl⟩
      · exact .inr ⟨true, rfl⟩
      · exact .inl rfl
    rcases hb with rfl | ⟨b, rfl⟩
    · exact .inr ⟨[], p, m, Nat.succ_pos n, rfl, h⟩
    · rcases ih m with ⟨bits, m', hn, h'⟩ | ⟨bits, m', e, hn, h', he⟩
      · exact .inl ⟨b :: bits, m', by simp [hn], m, h, h'⟩
      · exact .inr ⟨b :: bits, m', e, by simpa using hn, ⟨m, h, h'⟩, he⟩

theorem exists_frameOutcome (L : Nat → Level) (p n : Nat) :
    (∃ wd e, ReadsFrame L p n wd e) ∨ (∃ e, NoStart L p e) ∨ ∃ e, DataTimeout L p n e := by
  obtain ⟨v, m, h⟩ := exists_readsBit L p
  by_cases hv : v = .one
  · subst hv
    rcases exists_readsBits L n m with ⟨bits, m', hn, h'⟩ | ⟨bits, m', e, hn, h', he⟩
    · obtain ⟨v, e, he⟩ := exists_readsBit L m'
      exact .inl ⟨_, e, bits, m, m', v, hn, rfl, h, h', he⟩
    · exact .inr (.inr ⟨e, bits, m, m', hn, h, h', he⟩)
  · exact .inr (.inl ⟨m, v, hv, h⟩)

theorem ReadsBits.le_bound {L : Nat → Level} {p e : Nat} {bits : List Bool} (h : ReadsBits L p bits e) :
    e ≤ p + bits.length * (2 * Config.maxWait) := by
  induction bits generalizing p with
  | nil => rw [show e = p from h]; omega
  | cons b bs ih =>
    obtain ⟨m, h1, h2⟩ := h
    have := h1.bounds
    have := ih h2
    simp only [List.length_cons, Nat.add_mul]
    omega

theorem ReadsFrame.bound {L : Nat → Level} {p n wd e : Nat} (h : ReadsFrame L p n wd e) :
    p < e ∧ e ≤ p + (n + 2) * (2 * Config.maxWait) := by
  obtain ⟨bits, m, m', v, rfl, -, h1, h2, h3⟩ := h
  have := h1.bounds
  have := h2.le
  have := h2.le_bound
  have := h3.bounds
  constructor
  · omega
  · rw [Nat.add_mul]; omega

theorem NoStart.bound {L : Nat → Level} {p e : Nat} (h : NoStart L p e) : p < e ∧ e ≤ p + 2 * Config.maxWait := by
  obtain ⟨v, -, h1⟩ := h
  have := h1.bounds
  omega

theorem DataTimeout.bound {L : Nat → Level} {p n e : Nat} (h : DataTimeout L p n e) :
    p < e ∧ e ≤ p + (n + 2) * (2 * Config.maxWait) := by
  obtain ⟨bits, m, m', hn, h1, h2, h3⟩ := h
  have := h1.bounds
  have := h2.le
  have := h2.le_bound
  have := h3.bounds
  have hm : bits.length * (2 * Config.maxWait) ≤ n * (2 * Config.maxWait) := Nat.mul_le_mul_right _ (by omega)
  constructor
  · omega
  · rw [Nat.add_mul]; omega

/-! ### The response poll (R164) -/

/-- A poll that ends at `e`. -/
theorem runPhases_pollEnds {seen : Bool} {e : Nat} {ps : List Phase} {x : Exec} {s : State}
    (hv : PollEnds s.lineAt x.phaseStart seen e) (hh : s.hostBefore e = false) :
    runPhases (.poll Config.tPoll :: ps) x s =
      runPhases ps { x with acc := if seen then 1#16 else 0#16, phaseStart := e } s := by
  rcases hv with ⟨k, hk, hlow, hhigh, rfl, rfl⟩ | ⟨hhigh, rfl, rfl⟩
  · exact runPhases_poll_some (pollLow_some.2 ⟨hk, hlow, hhigh⟩) hh
  · exact runPhases_poll_none (pollLow_none.2 hhigh) hh

theorem PollEnds.bounds {L : Nat → Level} {p e : Nat} {seen : Bool} (h : PollEnds L p seen e) :
    p ≤ e ∧ e ≤ p + Config.tPoll := by
  rcases h with ⟨k, hk, -, -, -, rfl⟩ | ⟨-, -, rfl⟩ <;> omega

/-- Every line ends every poll (R168). -/
theorem exists_pollEnds (L : Nat → Level) (p : Nat) : ∃ seen e, PollEnds L p seen e := by
  rcases exists_phase L p .high (Config.tPoll - 1) with h | ⟨k, hk, h1, h2⟩
  · exact ⟨false, _, .inr ⟨fun j hj => h j (by omega), rfl, rfl⟩⟩
  · have : Config.tPoll = 240 := rfl
    exact ⟨true, _, .inl ⟨k, by omega, Level.ne_high.1 h2, h1, rfl, rfl⟩⟩

/-- A released driver shows the devices' line. -/
theorem lineAt_eq_releasedLine {s : State} (h : s.drv = .rel) : s.lineAt = s.releasedLine := by
  funext t
  simp [lineAt_of_rel h, State.releasedLine]

end Sys2Proof.Machine
end

