-- ==== Sys2Proof/Laws/Transmit.lean ====
section
/-! SUPPORT. Scripts that only drive the line: what they do to the driver trace, piece by piece. -/

namespace Sys2Proof.Machine

/-- From tick `p` to tick `e` the driver went from `s` to `s'`, and `f u` is `DRV(u)` from `p` on. -/
structure Driven (s s' : State) (p e : Nat) (f : Nat → Drive) : Prop where
  same : s' = { s with drv := s'.drv, wave := s'.wave }
  le : p ≤ e
  trace : (∀ u, p ≤ u → s.drvAt u = s.drv) → ∀ u, s'.drvAt u = if u < p then s.drvAt u else f u
  held : ∀ u, e ≤ u → f u = s'.drv

theorem Driven.congr {s s' : State} {p e : Nat} {f g : Nat → Drive} (h : Driven s s' p e f)
    (hfg : ∀ u, p ≤ u → f u = g u) : Driven s s' p e g where
  same := h.same
  le := h.le
  trace ht u := by
    rw [h.trace ht u]
    split
    · rfl
    · exact hfg u (by omega)
  held u hu := by rw [← hfg u (by have := h.le; omega)]; exact h.held u hu

/-- The trace of `s'` reads the driver's value from `e` on. -/
theorem Driven.heldAfter {s s' : State} {p e : Nat} {f : Nat → Drive} (h : Driven s s' p e f)
    (ht : ∀ u, p ≤ u → s.drvAt u = s.drv) (u : Nat) (hu : e ≤ u) : s'.drvAt u = s'.drv := by
  rw [h.trace ht u, if_neg (by have := h.le; omega), h.held u hu]

theorem Driven.trans {s s' s'' : State} {p q e : Nat} {f g : Nat → Drive} (h : Driven s s' p q f)
    (h' : Driven s' s'' q e g) : Driven s s'' p e fun u => if u < q then f u else g u where
  same := by rw [h'.same, h.same]
  le := Nat.le_trans h.le h'.le
  trace ht u := by
    rw [h'.trace (h.heldAfter ht) u, h.trace ht u]
    have := h.le
    by_cases h1 : u < q <;> by_cases h2 : u < p <;> simp [h1, h2]
    omega
  held u hu := by
    have := h'.le
    rw [if_neg (by omega)]
    exact h'.held u hu

theorem Driven.refl (s : State) (p : Nat) {e : Nat} (h : p ≤ e) : Driven s s p e fun _ => s.drv where
  same := rfl
  le := h
  trace ht u := by
    split
    · rfl
    · exact ht u (by omega)
  held _ _ := rfl

theorem Driven.setDrv (s : State) {p e : Nat} (d : Drive) (h : p ≤ e) :
    Driven s (s.setDrv p d) p e fun _ => d where
  same := rfl
  le := h
  trace ht u := by
    rw [drvAt_setDrv (Nat.le_refl p) ht]
    by_cases h1 : u < p
    · rw [if_neg (by omega), if_pos h1]
    · rw [if_pos (by omega), if_neg h1]
  held _ _ := rfl

/-- The script `phs` takes `n` ticks from its first tick `p`, drives the line as `f p` and touches neither the
accumulator nor the verdict, when no host event comes before its end. -/
def Transmits (phs : List Phase) (n : Nat) (f : Nat → Nat → Drive) : Prop :=
  ∀ ps x s, s.hostBefore (x.phaseStart + n) = false →
    ∃ i u s', runPhases (phs ++ ps) x s =
      runPhases ps { x with index := i, subStart := u, phaseStart := x.phaseStart + n } s' ∧
      Driven s s' x.phaseStart (x.phaseStart + n) (f x.phaseStart)

theorem Transmits.congr {phs : List Phase} {n : Nat} {f g : Nat → Nat → Drive} (h : Transmits phs n f)
    (hfg : ∀ p u, p ≤ u → f p u = g p u) : Transmits phs n g := fun ps x s hh =>
  let ⟨i, u, s', e, hd⟩ := h ps x s hh
  ⟨i, u, s', e, hd.congr (hfg _)⟩

theorem Transmits.append {a b : List Phase} {n m : Nat} {f g : Nat → Nat → Drive} (ha : Transmits a n f)
    (hb : Transmits b m g) : Transmits (a ++ b) (n + m) fun p u => if u < p + n then f p u else g (p + n) u := by
  intro ps x s hh
  obtain ⟨i, u, s', e, hd⟩ := ha (b ++ ps) x s (hostBefore_mono hh (by omega))
  have hh' : s'.hostBefore (x.phaseStart + n + m) = false := by
    rw [hd.same]; simpa [State.hostBefore, Nat.add_assoc] using hh
  obtain ⟨i', u', s'', e', hd'⟩ := hb ps { x with index := i, subStart := u, phaseStart := x.phaseStart + n } s' hh'
  refine ⟨i', u', s'', ?_, ?_⟩
  · rw [List.append_assoc, e, e']
    simp [Nat.add_assoc]
  · simpa [Nat.add_assoc] using hd.trans hd'

theorem transmits_sub (phs : List Phase) {n : Nat} {f : Nat → Nat → Drive} (h : Transmits phs n f) :
    Transmits (.sub :: phs) n f := by
  intro ps x s hh
  obtain ⟨i, u, s', e, hd⟩ := h ps { x with index := x.index + 1, subStart := x.phaseStart } s hh
  exact ⟨i, u, s', by rw [List.cons_append, runPhases_sub (hostBefore_mono hh (by omega)), e], hd⟩

theorem transmits_drive (d : Drive) (n : Nat) : Transmits [.drive d n] n fun _ _ => d := fun ps x s hh =>
  ⟨x.index, x.subStart, s.setDrv x.phaseStart d, runPhases_drive hh, Driven.setDrv s d (by omega)⟩

theorem transmits_wait (n : Nat) : ∀ ps x s, s.hostBefore (x.phaseStart + n) = false →
    runPhases ([.wait n] ++ ps) x s = runPhases ps { x with phaseStart := x.phaseStart + n } s :=
  fun _ _ _ hh => runPhases_wait hh

/-- One bit cell (R120). -/
theorem transmits_bit (b : Bool) : Transmits (encodeBitPhases b) cellTicks fun p u =>
    if u < p + cellLow b then .low else .rel := by
  have h := (transmits_drive .low (lowTicks b)).append (transmits_drive .rel (highTicks b))
  have hn : lowTicks b + highTicks b = cellTicks := by cases b <;> rfl
  rw [hn] at h
  exact h

/-- A list of cells drives the line as `cellsDrive` says (R79, R120). -/
theorem transmits_bits (bits : List Bool) (hne : bits ≠ []) : Transmits (sendBits bits) (bits.length * cellTicks) fun p u =>
    cellsDrive bits.length (fun k => bits.getD k false) p u := by
  have hc : cellTicks = 100 := rfl
  induction bits with
  | nil => exact absurd rfl hne
  | cons b bs ih =>
    have hb := transmits_sub _ (transmits_bit b)
    have hlow : cellLow b ≤ 65 := by cases b <;> decide
    rcases Nat.eq_zero_or_pos bs.length with h0 | hpos
    · have : bs = [] := List.length_eq_zero_iff.1 h0
      subst this
      simp only [sendBits, List.flatMap_cons, List.flatMap_nil, List.append_nil, List.length_singleton, Nat.one_mul]
      refine hb.congr fun p u hu => ?_
      simp only [cellsDrive, hc]
      by_cases hlt : u < p + 100
      · have h1 : (u - p) / 100 = 0 := by omega
        have h2 : (u - p) % 100 = u - p := by omega
        simp only [h1, h2, List.getD_cons_zero]
        by_cases hl : u < p + cellLow b
        · rw [if_pos hl, if_pos ⟨by omega, by omega⟩]
        · rw [if_neg hl, if_neg (by omega)]
      · rw [if_neg (by omega), if_neg (by omega)]
    · have ih := ih (by intro h; simp [h] at hpos)
      have h := hb.append ih
      have e : sendBits (b :: bs) = (.sub :: encodeBitPhases b) ++ sendBits bs := by simp [sendBits]
      have en : (b :: bs).length * cellTicks = cellTicks + bs.length * cellTicks := by
        simp only [List.length_cons]; ring
      rw [e, en]
      refine h.congr fun p u hu => ?_
      simp only [cellsDrive, hc, List.length_cons]
      by_cases hlt : u < p + 100
      · have h1 : (u - p) / 100 = 0 := by omega
        have h2 : (u - p) % 100 = u - p := by omega
        simp only [h1, h2, List.getD_cons_zero, hlt, if_true]
        by_cases hl : u < p + cellLow b
        · rw [if_pos hl, if_pos ⟨by omega, by omega⟩]
        · rw [if_neg hl, if_neg (by omega)]
      · have h1 : (u - p) / 100 = (u - (p + 100)) / 100 + 1 := by omega
        have h2 : (u - p) % 100 = (u - (p + 100)) % 100 := by omega
        simp only [hlt, if_false, h1, h2, List.getD_cons_succ]
        have : p + 100 + bs.length * 100 = p + (bs.length + 1) * 100 := by omega
        rw [this]

/-- An operation that only drives runs to its end tick. -/
theorem issue_transmits {phs : List Phase} {n : Nat} {f : Nat → Nat → Drive} (h : Transmits phs n f) {v : Verdict}
    {acc : Half} {s : State} (hs : s.ReadyUntil (s.tick + 1 + n)) :
    ∃ s', issue phs v acc s = .next (commit v acc (s.tick + 1 + n) s') ∧
      Driven s s' (s.tick + 1) (s.tick + 1 + n) (f (s.tick + 1)) := by
  obtain ⟨hi, hr, hh⟩ := hs
  have hw : s.hostBefore ((accepted s v acc).phaseStart + 1) = false := hostBefore_mono hh (by simp [accepted])
  obtain ⟨i, u, s', e, hd⟩ := h [] { accepted s v acc with phaseStart := s.tick + 1 } s hh
  refine ⟨s', ?_, hd⟩
  rw [issue_ready hr hi, runPhases_wait hw]
  rw [List.append_nil] at e
  show Host.Outcome.next (runPhases phs { accepted s v acc with phaseStart := s.tick + 1 } s) = _
  rw [e, runPhases_nil]
  simp [accepted]

/-- An operation that only drives and reports nothing: its end tick, its outputs and its trace. -/
theorem issue_transmits_plain {phs : List Phase} {n : Nat} {f : Nat → Nat → Drive} (h : Transmits phs n f) {s : State}
    (hs : s.ReadyUntil (s.tick + 1 + n)) :
    ∃ t, issue phs .plain 0 s = .next t ∧
      Succeeds s t (s.tick + 1 + n) (f (s.tick + 1) (s.tick + 1 + n)) s.result ∧
      (s.TraceHeld → Drives s t (f (s.tick + 1))) := by
  obtain ⟨s', e, hd⟩ := issue_transmits (v := .plain) (acc := 0) h hs
  refine ⟨_, e, ?_, fun ht u => ?_⟩
  · rw [hd.held _ (Nat.le_refl _), Succeeds]
    conv_lhs => rw [hd.same]
    simp [commit, Verdict.ok, Verdict.bitval, Verdict.errkind, Verdict.result, Verdict.failsFrame, hs.1]
  · rw [show (commit .plain 0 (s.tick + 1 + n) s').drvAt u = s'.drvAt u from rfl,
      hd.trace (fun v hv => ht v (by omega)) u]
    simp only [Nat.lt_succ_iff]

/-- The bits of `msbBits`, by position. -/
theorem msbBits_length {k : Nat} (n : Nat) (v : BitVec k) : (msbBits n v).length = n := by
  induction n with
  | zero => rfl
  | succ n ih => simp [msbBits, ih]

theorem msbBits_getD {k : Nat} (n : Nat) (v : BitVec k) (j : Nat) (h : j < n) (d : Bool) :
    (msbBits n v).getD j d = v.getLsbD (n - 1 - j) := by
  induction n generalizing j with
  | zero => omega
  | succ n ih =>
    cases j with
    | zero => simp [msbBits]
    | succ j =>
      rw [msbBits, List.getD_cons_succ, ih j (by omega)]
      congr 1; omega

theorem frameBits_length (wd : Half) (n : Nat) : (frameBits wd n).length = n + 2 := by
  simp [frameBits, msbBits_length]

/-- The bits of a frame, by position (R79). -/
theorem frameBits_getD (wd : Half) (n k : Nat) : (frameBits wd n).getD k false = frameBit wd n k := by
  unfold frameBits frameBit
  cases k with
  | zero => rfl
  | succ k =>
    rw [List.getD_cons_succ]
    by_cases h : k < n
    · rw [List.getD_append _ _ _ _ (by rw [msbBits_length]; exact h), msbBits_getD _ _ _ h]
      have : n - 1 - k = n - (k + 1) := by omega
      simp [this, h]
    · rw [List.getD_append_right _ _ _ _ (by rw [msbBits_length]; omega), msbBits_length]
      have : ¬ (k + 1 ≤ n) := by omega
      simp only [Nat.add_eq_zero_iff, Nat.one_ne_zero, and_false, if_false, this]
      cases hk : k - n <;> simp

/-- The bits of a command, by position (R80). -/
theorem commandBits_getD (c : Byte) (k : Nat) : (commandBits c).getD k false = commandBit c k := by
  unfold commandBits commandBit
  by_cases h : k < 8
  · rw [List.getD_append _ _ _ _ (by rw [msbBits_length]; exact h), msbBits_getD _ _ _ h]
    simp [h]
  · rw [List.getD_append_right _ _ _ _ (by rw [msbBits_length]; omega), msbBits_length]
    simp only [h, if_false]
    cases hk : k - 8 <;> simp

/-- A frame on the line (R79, R140). -/
theorem transmits_frame (wd : Half) (n : Nat) :
    Transmits (encodeFramePhases wd n) ((n + 2) * cellTicks) (cellsDrive (n + 2) (frameBit wd n)) := by
  have h := transmits_bits (frameBits wd n) (by simp [frameBits])
  rw [frameBits_length, funext (frameBits_getD wd n)] at h
  exact h

/-- A command on the line (R80, R163). -/
theorem transmits_command (c : Byte) : Transmits (sendCommandPhases c) commandTicks (commandDrive c) := by
  have ha : Transmits attentionPhases Config.tAttn fun p u => if u < p + Config.tAttn then .low else .rel :=
    (transmits_drive .low Config.tAttn).append (transmits_drive .rel 0)
  have hy : Transmits syncPhases Config.tSync fun p u => if u < p + Config.tSync then .rel else .low :=
    (transmits_drive .rel Config.tSync).append (transmits_drive .low 0)
  have hb := transmits_bits (commandBits c) (by simp [commandBits])
  have hlen : (commandBits c).length = 9 := by simp [commandBits, msbBits_length]
  rw [hlen, funext (commandBits_getD c)] at hb
  have h := ((transmits_sub _ ha).append (transmits_sub _ hy)).append hb
  refine h.congr fun p u hu => ?_
  simp only [commandDrive, Nat.add_assoc]
  have h1 : Config.tAttn = 800 := rfl
  have h2 : Config.tSync = 70 := rfl
  simp only [h1, h2]
  by_cases hx : u < p + 800
  · simp [hx, show u < p + (800 + 70) by omega]
  · by_cases hz : u < p + (800 + 70)
    · simp [hx, hz]
    · simp [hx, hz]

end Sys2Proof.Machine
end

