-- ==== Sys2Proof/Tests/Slice0.lean ====
section
/-! SUPPORT. The model's own tests: expected values are the vectors of spec/95_test_vectors.md and the encodings of
spec/30_encoding.md, worked out there by hand; and for each obligation with hypotheses a witness that meets them. -/

namespace Sys2Proof.Tests

open Sys2Proof.Machine

/-! ### Helpers -/

/-- An idle block at tick `w`, otherwise as after reset, with a device trace and a host schedule. -/
def idleWith (w : Nat) (dev : List Pull) (host : List HostEvent) : State :=
  { State.reset with tick := w, dev := dev, host := host }

/-- The same with no host event pending. -/
def idle (w : Nat) (dev : List Pull) : State := idleWith w dev []

/-- The same with the driver low since tick `p`. -/
def idleLow (p w : Nat) : State := { idle w [] with drv := .low, wave := [⟨p, .low⟩] }

/-- The outcome is a next state with this property. -/
def goesTo (o : Host.Outcome State Fault Refusal) (p : State → Bool) : Bool :=
  match o with
  | .next t => p t
  | .fault _ => false
  | .refused _ => false

/-- The outcome is this refusal. -/
def refusedWith (o : Host.Outcome State Fault Refusal) (r : Refusal) : Bool :=
  match o with
  | .next _ => false
  | .fault _ => false
  | .refused q => q == r

/-- The outcome of a host routine is a next state and an answer with this property. -/
def updatesTo (o : Host.Outcome (State × Bool) Fault Refusal) (p : State → Bool → Bool) : Bool :=
  match o with
  | .next t => p t.1 t.2
  | .fault _ => false
  | .refused _ => false

/-- The device frame `(wd, n)` from tick `p` (the convention of 95_test_vectors.md). -/
def deviceFrame (wd : Half) (n p : Nat) : List Pull :=
  (frameBits wd n).mapIdx fun k b => ⟨p + 100 * k, p + 100 * k + if b then 35 else 65⟩

/-- A host access at a tick. -/
def accessAt (t : Nat) (a : Access) : HostEvent := ⟨t, .access a⟩

/-- A host's OPWORD write at a tick. -/
def writeAt (t : Nat) (w : Word) : HostEvent := accessAt t (.write .word 0#5 w)

/-- ENCODE_BIT 1 written at tick 0 runs on [1, 101) (V-ER2); the block at tick `t` of its low phase. -/
def sendingOne (t : Nat) (host : List HostEvent) : State :=
  { idleWith t [] host with
    opword := 0x50000001#32, drv := .low, wave := [⟨1, .low⟩]
    seq := .exec { accepted (idle 0 []) .plain 0 with phaseStart := 1, todo := encodeBitPhases true } }

/-- The same operation at tick `t` of its high phase, which began at tick 36. -/
def sendingOneHigh (t : Nat) (host : List HostEvent) : State :=
  { sendingOne t host with
    drv := .rel, wave := [⟨36, .rel⟩, ⟨1, .low⟩]
    seq := .exec { accepted (idle 0 []) .plain 0 with phaseStart := 36, todo := (encodeBitPhases true).drop 1 } }

/-- The parameters meet the constraints of R11. -/
theorem test_parameters_meet_constraints :
    1 ≤ Config.tShort ∧ Config.tShort < Config.tLong ∧ Config.tLong ≤ Config.maxWait ∧
    Config.cmdTalk ≠ Config.cmdListen ∧ Config.cmdTalk ≠ Config.cmdFlush ∧ Config.cmdListen ≠ Config.cmdFlush := by
  decide

/-! ### Well-formedness: an ill-formed term for each check (R81, R84) -/

theorem test_reserved_words_are_ill_formed :
    [Instr.reservedOpc0, .reservedECmdop, .reservedFCmdop].all (fun i => !i.wf) = true := by decide

theorem test_operands_out_of_range_are_ill_formed :
    [Asm.wait 65536, .encodeBit 2, .encodeFrame 0x10000 16, .encodeFrame 1 0, .encodeFrame 1 17, .decodeFrame 0,
      .decodeFrame 17, .sendCommand 256, .turnaround 2, .encodeWord16 0x10000].all (fun a => !a.wf) = true := by decide

theorem test_targets_out_of_range_are_ill_formed :
    [Asm.compose .talk 16 0, .compose .talk 0 4, .talk 16 0, .talk 0 4, .listen 16 0 0, .listen 0 4 0,
      .listen 0 0 0x10000, .flush 16 0, .flush 0 4, .cmd .talk 16 0, .cmd .flush 0 4].all (fun a => !a.wf) = true := by
  decide

theorem test_operands_at_their_bounds_are_well_formed :
    [Asm.wait 65535, .encodeBit 1, .encodeFrame 0xFFFF 1, .encodeFrame 0 16, .decodeFrame 1, .decodeFrame 16,
      .sendCommand 255, .turnaround 1, .compose .flush 15 3, .talk 15 3, .listen 15 3 0xFFFF, .flush 15 3,
      .cmd .listen 15 3, .encodeWord16 0xFFFF].all (fun a => a.wf) = true := by decide

/-! ### Decoding: each row's word, its fields OPC, CMDOP, REG, ADDR, LENM1, IMM16 written out (R71, R75, R76, R84) -/

theorem test_decode_line_operations :
    decode (0b0001#4 ++ 0b00#2 ++ 0b00#2 ++ 0b0000#4 ++ 0b0000#4 ++ 0x0000#16) = .lineRelease ∧
    decode (0b0010#4 ++ 0b00#2 ++ 0b00#2 ++ 0b0000#4 ++ 0b0000#4 ++ 0x0000#16) = .lineLow ∧
    decode (0b0011#4 ++ 0b00#2 ++ 0b00#2 ++ 0b0000#4 ++ 0b0000#4 ++ 0x0000#16) = .lineRead ∧
    decode (0b0100#4 ++ 0b00#2 ++ 0b00#2 ++ 0b0000#4 ++ 0b0000#4 ++ 5000#16) = .wait 0x1388#16 := by decide

theorem test_decode_bit_codec :
    decode (0b0101#4 ++ 0b00#2 ++ 0b00#2 ++ 0b0000#4 ++ 0b0000#4 ++ 0x0001#16) = .encodeBit true ∧
    decode (0b0110#4 ++ 0b00#2 ++ 0b00#2 ++ 0b0000#4 ++ 0b0000#4 ++ 0x0000#16) = .decodeBit := by decide

theorem test_decode_frame_codec :
    decode (0b0111#4 ++ 0b00#2 ++ 0b00#2 ++ 0b0000#4 ++ 0b0111#4 ++ 0x00A5#16) = .encodeFrame 7#4 0xA5#16 ∧
    decode (0b1000#4 ++ 0b00#2 ++ 0b00#2 ++ 0b0000#4 ++ 0b1111#4 ++ 0x0000#16) = .decodeFrame 15#4 := by decide

theorem test_decode_bus_sequencer :
    decode (0b1001#4 ++ 0b00#2 ++ 0b00#2 ++ 0b0000#4 ++ 0b0000#4 ++ 0x0000#16) = .resetBus ∧
    decode (0b1010#4 ++ 0b00#2 ++ 0b00#2 ++ 0b0000#4 ++ 0b0000#4 ++ 0x0000#16) = .attention ∧
    decode (0b1011#4 ++ 0b00#2 ++ 0b00#2 ++ 0b0000#4 ++ 0b0000#4 ++ 0x0000#16) = .sync ∧
    decode (0b1100#4 ++ 0b00#2 ++ 0b00#2 ++ 0b0000#4 ++ 0b0000#4 ++ 0x002C#16) = .sendCommand 0x2C#8 ∧
    decode (0b1101#4 ++ 0b00#2 ++ 0b00#2 ++ 0b0000#4 ++ 0b0000#4 ++ 0x0001#16) = .turnaround true := by decide

theorem test_decode_composer :
    decode (0b1110#4 ++ 0b11#2 ++ 0b00#2 ++ 0b0010#4 ++ 0b0000#4 ++ 0x0000#16) = .composeTalk 0#2 2#4 ∧
    decode (0b1110#4 ++ 0b10#2 ++ 0b11#2 ++ 0b0011#4 ++ 0b0000#4 ++ 0x0000#16) = .composeListen 3#2 3#4 ∧
    decode (0b1110#4 ++ 0b00#2 ++ 0b01#2 ++ 0b0010#4 ++ 0b0000#4 ++ 0x0000#16) = .composeFlush 1#2 2#4 := by decide

theorem test_decode_transactions :
    decode (0b1111#4 ++ 0b11#2 ++ 0b00#2 ++ 0b0010#4 ++ 0b0000#4 ++ 0x0000#16) = .talk 0#2 2#4 ∧
    decode (0b1111#4 ++ 0b10#2 ++ 0b11#2 ++ 0b0011#4 ++ 0b0000#4 ++ 0x0500#16) = .listen 3#2 3#4 0x0500#16 ∧
    decode (0b1111#4 ++ 0b00#2 ++ 0b01#2 ++ 0b0010#4 ++ 0b0000#4 ++ 0x0000#16) = .flush 1#2 2#4 := by decide

theorem test_decode_reserved :
    decode (0b0000#4 ++ 0b00#2 ++ 0b00#2 ++ 0b0000#4 ++ 0b0000#4 ++ 0x0000#16) = .reservedOpc0 ∧
    decode (0b1110#4 ++ 0b01#2 ++ 0b00#2 ++ 0b0010#4 ++ 0b0000#4 ++ 0x0000#16) = .reservedECmdop ∧
    decode (0b1111#4 ++ 0b01#2 ++ 0b00#2 ++ 0b0010#4 ++ 0b0000#4 ++ 0x0000#16) = .reservedFCmdop := by decide

/-- V-E2 to V-E9: ignored fields. -/
theorem test_decode_ignores_unused_fields :
    decode 0x0FFFFFFF#32 = .reservedOpc0 ∧ decode 0x1FFFFFFF#32 = .lineRelease ∧
    decode 0x5FFFFFFE#32 = .encodeBit false ∧ decode 0x5000FFFF#32 = .encodeBit true ∧
    decode 0x700701FF#32 = .encodeFrame 7#4 0x1FF#16 ∧ decode 0x8FFF0000#32 = .decodeFrame 15#4 ∧
    decode 0xC000FF2C#32 = .sendCommand 0x2C#8 ∧ decode 0xD000FFFE#32 = .turnaround false := by decide

/-- V-E10 to V-E14. -/
theorem test_decode_by_cmdop :
    decode 0xE4200000#32 = .reservedECmdop ∧ decode 0xF7FFFFFF#32 = .reservedFCmdop ∧
    decode 0xFC2F1234#32 = .talk 0#2 2#4 ∧ decode 0xF8300500#32 = .listen 0#2 3#4 0x0500#16 ∧
    decode 0xFF3F0500#32 = .talk 3#2 3#4 := by decide

/-- R81, R86: lines of text, with hex and binary numbers, and lines the assembler refuses. -/
theorem test_assemble_text :
    assembleLine "WAIT 5000".toList = some 0x40001388#32 ∧ assembleLine "TALK 2, 0".toList = some 0xFC200000#32 ∧
    assembleLine "ENCODE_FRAME 0b10100101, 8".toList = some 0x700700A5#32 ∧
    assembleLine "LISTEN 3, 3, 0x0500".toList = some 0xFB300500#32 ∧
    assembleLine "COMPOSE LISTEN, 3, 3".toList = some 0xEB300000#32 ∧
    assembleLine "CMD TALK, 2, 0".toList = some 0xC000002C#32 ∧ assembleLine "SYNC".toList = some 0xB0000000#32 ∧
    assembleLine "WAIT 65536".toList = none ∧ assembleLine "TALK 16, 0".toList = none ∧
    assembleLine "SYNC 1".toList = none := by decide

/-! ### The line -/

/-- V-L2. -/
theorem test_line_release :
    goesTo (exec .lineRelease (idleLow 5 9)) (fun t => t.tick == 10 && t.drv == .rel && t.line == .high) = true := by
  decide

/-- V-L1: written at 9, low from 10. -/
theorem test_line_low :
    goesTo (exec .lineLow (idle 9 [])) (fun t => t.tick == 10 && t.wave == [⟨10, .low⟩] && t.line == .low) = true := by
  decide

/-- V-L3: a device pulls at the start tick; RESULT = 0, OK = 1. -/
theorem test_line_read_pulled :
    goesTo (exec .lineRead (idle 9 [⟨10, 11⟩])) (fun t => t.result == 0#16 && t.ok) = true := by decide

/-- V-L2, V-L3: nobody pulls at the start tick. -/
theorem test_line_read_free :
    goesTo (exec .lineRead (idle 10 [⟨0, 11⟩])) (fun t => t.tick == 11 && t.result == 1#16) = true := by decide

/-- V-L5, with the driver low before: it holds. -/
theorem test_wait_longest :
    goesTo (exec (.wait 0xFFFF#16) (idleLow 0 0)) (fun t => t.tick == 65536 && t.drv == .low) = true := by decide

/-- V-L4: one tick from the write to the end. -/
theorem test_wait_zero : goesTo (exec (.wait 0#16) (idle 49 [])) (fun t => t.tick == 50 && t.ok) = true := by decide

/-! ### Bits -/

/-- V-B1. -/
theorem test_encode_bit_one :
    goesTo (exec (.encodeBit true) (idle 99 []))
      (fun t => t.tick == 200 && t.wave == [⟨135, .rel⟩, ⟨100, .low⟩] && t.status == 0x00010002#32) = true := by decide

/-- V-B2. -/
theorem test_encode_bit_zero :
    goesTo (exec (.encodeBit false) (idle 99 []))
      (fun t => t.tick == 200 && t.wave == [⟨165, .rel⟩, ⟨100, .low⟩]) = true := by decide

set_option maxRecDepth 100000 in
/-- V-B14: a glitch ends the bit. -/
theorem test_decode_bit_glitch :
    goesTo (exec .decodeBit (idle 9 [⟨10, 30⟩, ⟨31, 71⟩]))
      (fun t => t.tick == 31 && t.bitval == .zero && t.ok) = true := by decide

set_option maxRecDepth 100000 in
/-- V-B16: the longest decode, timed out in the high phase. -/
theorem test_decode_bit_timeout :
    goesTo (exec .decodeBit (idle 9 [⟨10, 95⟩]))
      (fun t => t.tick == 180 && t.bitval == .error && t.errkind == .bitTimeout) = true := by decide

/-! ### Frames -/

/-- V-F1. -/
theorem test_encode_frame :
    goesTo (exec (.encodeFrame 7#4 0xA5#16) (idle 999 [])) (fun t => t.tick == 2000 &&
      t.wave == [⟨1965, .rel⟩, ⟨1900, .low⟩, ⟨1835, .rel⟩, ⟨1800, .low⟩, ⟨1765, .rel⟩, ⟨1700, .low⟩, ⟨1635, .rel⟩,
        ⟨1600, .low⟩, ⟨1565, .rel⟩, ⟨1500, .low⟩, ⟨1465, .rel⟩, ⟨1400, .low⟩, ⟨1335, .rel⟩, ⟨1300, .low⟩,
        ⟨1265, .rel⟩, ⟨1200, .low⟩, ⟨1135, .rel⟩, ⟨1100, .low⟩, ⟨1035, .rel⟩, ⟨1000, .low⟩]) = true := by decide

set_option maxRecDepth 100000 in
/-- V-F4. -/
theorem test_decode_frame :
    goesTo (exec (.decodeFrame 7#4) (idle 4999 (deviceFrame 0xA5#16 8 5000)))
      (fun t => t.tick == 6050 && t.result == 0xA5#16 && t.ok) = true := by decide

set_option maxRecDepth 100000 in
/-- V-F7: the third data bit times out. -/
theorem test_decode_frame_data_timeout :
    goesTo (exec (.decodeFrame 15#4) (idle 999 [⟨1000, 1035⟩, ⟨1100, 1135⟩, ⟨1200, 1265⟩, ⟨1300, 1335⟩]))
      (fun t => t.tick == 1420 && !t.ok && t.errkind == .dataTimeout && t.draws == 1) = true := by decide

/-! ### The bus sequencer -/

/-- V-S1. -/
theorem test_reset_bus :
    goesTo (exec .resetBus (idle 0 []))
      (fun t => t.tick == 3001 && t.lastReset == 3001#32 && t.status == 0x00010402#32) = true := by decide

/-- V-R4: NOW wraps inside the reset. -/
theorem test_reset_bus_now_wraps :
    goesTo (exec .resetBus (idle (2 ^ 32 - 1001) []))
      (fun t => t.tick == 2 ^ 32 + 2000 && t.lastReset == 2000#32) = true := by decide

/-- V-S2. -/
theorem test_attention :
    goesTo (exec .attention (idle 9 [])) (fun t => t.tick == 810 && t.wave == [⟨810, .rel⟩, ⟨10, .low⟩]) = true := by
  decide

/-- V-S3. -/
theorem test_sync :
    goesTo (exec .sync (idle 809 []))
      (fun t => t.tick == 880 && t.wave == [⟨880, .low⟩] && t.status == 0x00020002#32) = true := by decide

/-- V-S4. -/
theorem test_send_command :
    goesTo (exec (.sendCommand 0x2C#8) (idle 0 [])) (fun t => t.tick == 1771 &&
      t.wave == [⟨1736, .rel⟩, ⟨1671, .low⟩, ⟨1636, .rel⟩, ⟨1571, .low⟩, ⟨1536, .rel⟩, ⟨1471, .low⟩, ⟨1406, .rel⟩,
        ⟨1371, .low⟩, ⟨1306, .rel⟩, ⟨1271, .low⟩, ⟨1236, .rel⟩, ⟨1171, .low⟩, ⟨1106, .rel⟩, ⟨1071, .low⟩,
        ⟨1036, .rel⟩, ⟨971, .low⟩, ⟨936, .rel⟩, ⟨871, .low⟩, ⟨801, .rel⟩, ⟨1, .low⟩]) = true := by decide

set_option maxRecDepth 100000 in
/-- V-S10: the last sample of the window. -/
theorem test_turnaround_last_sample :
    goesTo (exec (.turnaround true) (idle 999 [⟨1379, 1500⟩]))
      (fun t => t.tick == 1379 && t.result == 1#16 && t.ok) = true := by decide

set_option maxRecDepth 100000 in
/-- V-S11: one tick too late. -/
theorem test_turnaround_window_closed :
    goesTo (exec (.turnaround true) (idle 999 [⟨1380, 1500⟩]))
      (fun t => t.tick == 1380 && t.result == 0#16 && t.ok) = true := by decide

/-! ### Composer and transactions -/

/-- V-C1, V-C2 (V-X8: the corrected literal). -/
theorem test_compose_talk :
    goesTo (exec (.composeTalk 0#2 2#4) (idle 0 [])) (fun t => t.tick == 1 && t.result == 0x002C#16) = true ∧
    goesTo (exec (.composeTalk 0#2 14#4) (idle 0 [])) (fun t => t.result == 0x00EC#16) = true := by decide

/-- V-C3. -/
theorem test_compose_listen :
    goesTo (exec (.composeListen 3#2 3#4) (idle 0 [])) (fun t => t.tick == 1 && t.result == 0x003B#16) = true := by
  decide

/-- V-C4, V-C6. -/
theorem test_compose_flush :
    goesTo (exec (.composeFlush 1#2 2#4) (idle 0 [])) (fun t => t.tick == 1 && t.result == 0x0021#16) = true ∧
    goesTo (exec (.composeFlush 0#2 0#4) (idle 0 [])) (fun t => t.result == 0x0000#16 && t.ok && !t.ill) = true := by
  decide

set_option maxRecDepth 100000 in
/-- V-C8, program P2. -/
theorem test_talk :
    goesTo (exec (.talk 0#2 2#4) (idle 0 (deviceFrame 0x1234#16 16 1971)))
      (fun t => t.tick == 3821 && t.result == 0x1234#16 && t.status == 0x00010002#32) = true := by decide

set_option maxRecDepth 100000 in
/-- V-C9, program P5: no device. -/
theorem test_talk_absent :
    goesTo (exec (.talk 0#2 5#4) (idle 0 [])) (fun t => t.tick == 2236 && t.status == 0x00010020#32) = true := by decide

set_option maxRecDepth 100000 in
/-- V-C12, program P3: the ends of the last cells, the end tick, RESULT unchanged. -/
theorem test_listen :
    goesTo (exec (.listen 3#2 3#4 0x0500#16) { idle 0 [] with result := 7#16 }) (fun t => t.tick == 3711 &&
      t.result == 7#16 && t.wave.take 2 == [⟨3676, .rel⟩, ⟨3611, .low⟩] && t.drvAt 2520 == .low &&
      t.drvAt 2546 == .rel && t.drvAt 2075 == .low && t.drvAt 1910 == .rel && t.drvAt 1911 == .low) = true := by decide

/-- V-C13. -/
theorem test_flush :
    goesTo (exec (.flush 1#2 2#4) { idle 0 [] with result := 7#16 }) (fun t => t.tick == 1911 && t.result == 7#16 &&
      t.wave.take 2 == [⟨1736, .rel⟩, ⟨1671, .low⟩] && t.drvAt 1105 == .low && t.drvAt 1106 == .rel &&
      t.drvAt 1606 == .rel) = true := by decide

/-- V-ER1 and the two other reserved classes. -/
theorem test_reserved_flags_ill :
    [Instr.reservedOpc0, .reservedECmdop, .reservedFCmdop].all (fun i => goesTo (exec i (idle 10 []))
      (fun t => t.tick == 10 && t.status == 0x00010200#32 && t.opword == 0#32 && t.wave == [])) = true := by decide

/-! ### Steps -/

/-- V-ER2: a word written over a running operation. -/
theorem test_step_overlap :
    goesTo (step (sendingOneHigh 50 [writeAt 50 0x40000005#32]))
      (fun t => t.ovr && t.opword == 0x50000001#32 && t.seq == (sendingOneHigh 50 []).seq && t.tick == 50) = true := by decide

/-- V-ER3: BUSY is checked before the word. -/
theorem test_step_overlap_reserved :
    goesTo (step (sendingOneHigh 50 [writeAt 50 0#32])) (fun t => t.ovr && !t.ill) = true := by decide

/-- V-ER6: at the tick before the end the block is still busy, and the write is a later step's. -/
theorem test_step_stops_before_end :
    goesTo (step (sendingOne 1 [writeAt 100 0x40000005#32])) (fun t => t.tick == 100 && t.busy) = true := by decide

/-- V-ER6: at the end tick the block completes first. -/
theorem test_step_completes_first :
    goesTo (step (sendingOne 1 [writeAt 101 0x40000005#32]))
      (fun t => t.tick == 101 && !t.busy && t.ok && t.wave == [⟨36, .rel⟩, ⟨1, .low⟩]) = true := by decide

/-- V-ER4. -/
theorem test_step_status_write :
    goesTo (step { idleWith 3 [] [accessAt 3 (.write .word 4#5 0x100#32)] with ovr := true, ill := true })
      (fun t => !t.ovr && t.ill) = true ∧
    goesTo (step { idleWith 3 [] [accessAt 3 (.write .word 4#5 0xFFFFFCFF#32)] with ovr := true, ill := true })
      (fun t => t.ovr && t.ill) = true := by decide

/-- P7, row 5: a write at the present tick runs its operation, and OPWORD holds the word. -/
theorem test_step_runs_word :
    goesTo (step (idleWith 103 [] [writeAt 103 0xEC200000#32]))
      (fun t => t.tick == 104 && t.result == 0x2C#16 && t.opword == 0xEC200000#32) = true := by decide

/-- V-R1: STATUS after reset. -/
theorem test_step_read_status :
    goesTo (step (idleWith 0 [] [accessAt 0 (.read .word 4#5)]))
      (fun t => t.reads == [⟨0, 4#5, 0x00010000#32⟩]) = true ∧
    goesTo (step (idleWith 0 [⟨0, 9⟩] [accessAt 0 (.read .word 4#5)]))
      (fun t => t.reads == [⟨0, 4#5, 0#32⟩]) = true := by decide

/-- V-R3: NOW wraps. -/
theorem test_now_wraps :
    (idle (2 ^ 32 + 5) []).regRead 0xC#5 = 5#32 ∧ (idle (2 ^ 32 - 1) []).regRead 0xC#5 = 0xFFFFFFFF#32 := by decide

/-- V-R2: a block reset inside an operation. -/
theorem test_step_block_reset :
    goesTo (step (sendingOne 20 [⟨20, .resetAssert⟩]))
      (fun t => t.wave == [⟨20, .rel⟩, ⟨1, .low⟩] && !t.busy && t.opword == 0#32 && t.drv == .rel) = true := by decide

/-- R20, R25, R250: a reset of tick 20 acts before the read of that tick, whatever their order in the schedule. -/
theorem test_step_reset_before_access :
    goesTo (step (sendingOne 20 [accessAt 20 (.read .word 4#5), ⟨20, .resetAssert⟩, accessAt 20 (.read .word 4#5)]))
      (fun t => t.inReset && t.drv == .rel && t.reads == [] && t.host.length == 2) = true := by decide

/-- R25: the two reads of that tick then show the same level, HIGH. -/
theorem test_reads_of_one_tick_agree :
    goesTo (stepN 3 (sendingOne 20 [accessAt 20 (.read .word 4#5), ⟨20, .resetAssert⟩, accessAt 20 (.read .word 4#5)]))
      (fun t => t.reads == [⟨20, 4#5, 0x00010000#32⟩, ⟨20, 4#5, 0x00010000#32⟩]) = true := by decide

/-- R250: at the tick of the release the registers still have their reset values, so a word written then is lost. -/
theorem test_step_write_at_release :
    goesTo (step { idleWith 20 [] [⟨20, .resetRelease⟩, writeAt 20 0x20000000#32] with inReset := true })
      (fun t => t.inReset && t.tick == 20 && t.opword == 0#32 && t.host == [⟨20, .resetRelease⟩]) = true := by decide

/-- R54, I-U6. -/
theorem test_step_refuses_other_widths :
    refusedWith (step (idleWith 0 [] [accessAt 0 (.read .half 4#5)])) .accessWidth = true ∧
    refusedWith (step (idleWith 0 [] [accessAt 0 (.write .word 2#5 0#32)])) .accessMisaligned = true := by decide

/-- The fixed names on one row: the decoder, and the step that runs the word. -/
theorem test_with_fetch_word :
    decodeTableWord 32 0x20000000 = some .lineLow ∧
    goesTo (step (State.reset.withFetchWord 32 0x20000000)) (fun t => t.tick == 1 && t.drv == .low) = true := by decide

/-! ### Host software -/

/-- V-X5, V-H1 to V-H4. -/
theorem test_merge_and_verify :
    mergeMasked 0x0200#16 0x0500#16 0xFF00#16 = 0x0500#16 ∧ mergeMasked 0xABCD#16 0x1234#16 0x0F0F#16 = 0xA2C4#16 ∧
    verifyMasked 0x05FF#16 0x0500#16 0xFF00#16 = true ∧ verifyMasked 0x0200#16 0x0500#16 0xFF00#16 = false := by decide

/-- V-X6, V-H5, V-X7, V-X10. -/
theorem test_facade_formulas :
    mouseDelta 0x7F#7 = -2 ∧ mouseDelta 0x01#7 = 2 ∧ mouseDelta 0x40#7 = -128 ∧ mouseDelta 0x3F#7 = 126 ∧
    ledBit true = false ∧ handlerMask = 0xFF00#16 := by decide

set_option maxRecDepth 100000 in
/-- R211, V-C9: no device answers, and the host polls STATUS while it waits: the first read fails at its end tick. -/
theorem test_update_polled :
    updatesTo (updateRegister3 (fun _ => 0) 5#4 0x0500#16 0xFF00#16
        (idleWith 0 [] [accessAt 10 (.read .word 4#5), accessAt 2000 (.read .word 4#5)]))
      (fun t ok => !ok && t.tick == 2236 && t.errkind == .noStart && t.reads.map (·.tick) == [2000, 10]) = true := by
  decide

/-- R50: the first and the last address of the window, and the two beside it. -/
theorem test_window_bounds :
    windowOffset { tReinit := 0, base := 0x1000 } 0x1000 = some 0#5 ∧
    windowOffset { tReinit := 0, base := 0x1000 } 0x101F = some 0x1F#5 ∧
    windowOffset { tReinit := 0, base := 0x1000 } 0xFFF = none ∧
    windowOffset { tReinit := 0, base := 0x1000 } 0x1020 = none := by decide

/-- R252: a block reset right after RESET_BUS leaves the tick its low ended (V-S1). -/
theorem test_block_reset_keeps_bus_reset_end :
    goesTo (exec .resetBus (idle 0 [])) (fun t => t.busResetEnd == some 3001 && t.rstv &&
      t.blockReset.busResetEnd == some 3001 && !t.blockReset.rstv) = true := by decide

/-! ### Witnesses: for each statement with hypotheses, a state and operands that meet them together -/

/-- An idle block with an empty schedule can take a word, and stays undisturbed. -/
theorem idle_readyUntil (w : Nat) (dev : List Pull) (e : Nat) : (idle w dev).ReadyUntil e := by
  unfold State.ReadyUntil
  exact ⟨rfl, rfl, rfl⟩

/-- Its trace reads the released driver. -/
theorem idle_traceHeld (w : Nat) (dev : List Pull) : (idle w dev).TraceHeld := fun _ _ => rfl

/-- The next state behind a `goesTo`. -/
theorem exists_of_goesTo {o : Host.Outcome State Fault Refusal} {p : State → Bool} (h : goesTo o p = true) :
    ∃ t, o = .next t ∧ p t = true := by
  cases o with
  | next t => exact ⟨t, rfl, h⟩
  | fault r => cases h
  | refused r => cases h

/-- The next state and answer behind an `updatesTo`. -/
theorem exists_of_updatesTo {o : Host.Outcome (State × Bool) Fault Refusal} {p : State → Bool → Bool}
    (h : updatesTo o p = true) : ∃ t ok, o = .next (t, ok) ∧ p t ok = true := by
  cases o with
  | next t => exact ⟨t.1, t.2, rfl, h⟩
  | fault r => cases h
  | refused r => cases h

/-- The line from tick `p` carries a cell of bit `b`, and is low at its end. -/
def cellAt (L : Nat → Level) (p : Nat) (b : Bool) : Bool :=
  (List.range (lowTicks b)).all (fun j => L (p + j) == .low) &&
  (List.range (highTicks b)).all (fun j => L (p + lowTicks b + j) == .high) && L (p + 100) == .low

/-- Cells one after another. -/
def cellsAt (L : Nat → Level) : Nat → List Bool → Bool
  | _, [] => true
  | p, b :: bs => cellAt L p b && cellsAt L (p + 100) bs

theorem readsBit_of_cellAt {L : Nat → Level} {p : Nat} {b : Bool} (h : cellAt L p b = true) :
    ReadsBit L p (if b then .one else .zero) (p + 100) := by
  simp only [cellAt, Bool.and_eq_true, List.all_eq_true, List.mem_range, beq_iff_eq] at h
  obtain ⟨⟨hl, hh⟩, he⟩ := h
  refine .inl ⟨lowTicks b, highTicks b, ?_, ?_, ?_, hl, hh, ?_, ?_, ?_⟩ <;> cases b <;> first | decide | exact he | rfl

theorem readsBits_of_cellsAt {L : Nat → Level} : ∀ (bits : List Bool) (p : Nat), cellsAt L p bits = true →
    ReadsBits L p bits (p + 100 * bits.length)
  | [], _, _ => rfl
  | b :: bs, p, h => by
    simp only [cellsAt, Bool.and_eq_true] at h
    refine ⟨p + 100, readsBit_of_cellAt h.1, ?_⟩
    have := readsBits_of_cellsAt bs (p + 100) h.2
    rwa [show p + 100 + 100 * bs.length = p + 100 * (b :: bs).length by simp; omega] at this

/-- The one event of a schedule comes next at its tick. -/
theorem due_alone (w : Nat) (e : Event) : (idleWith w [] [⟨w, e⟩]).nextEvent = some (⟨w, e⟩, []) := by
  cases e <;> simp [State.nextEvent, takeDue, idleWith, State.reset, Event.isEdge]

/-- Two words that agree where LINE_RELEASE looks (V-E3). -/
theorem witness_IgnoredFieldsNeverMatter :
    0x1FFFFFFF#32 &&& (decode 0x1FFFFFFF#32).usedBits = 0x10000000#32 &&& (decode 0x1FFFFFFF#32).usedBits := by decide

/-- A reserved word of each class, written to an idle block. -/
theorem witness_ReservedWordsFlagIll :
    ((decode 0x0FFFFFFF#32).wf = false ∧ (decode 0xE4200000#32).wf = false ∧ (decode 0xF7FFFFFF#32).wf = false) ∧
    ∀ w : Word, ∃ (s : State) (n : Nat) (rest : List HostEvent),
      s.nextEvent = some (⟨n, .access (.write .word 0#5 w)⟩, rest) ∧ s.seq = .idle ∧ s.inReset = false :=
  ⟨by decide, fun w => ⟨idleWith 10 [] [writeAt 10 w], 10, [], due_alone _ _, rfl, rfl⟩⟩

theorem witness_AssemblerChecksRanges : (Asm.wait 65536).wf = false ∧ (Asm.wait 65535).wf = true := by decide

theorem witness_PseudoInstructionExpansions : ∃ a r : Nat, a ≤ 15 ∧ r ≤ 3 := ⟨15, 3, by decide, by decide⟩

theorem witness_ReadsHaveNoSideEffect : ∃ (s : State) (n : Nat) (off : BitVec 5) (rest : List HostEvent),
    s.nextEvent = some (⟨n, .access (.read .word off)⟩, rest) ∧ off.toNat % 4 = 0 :=
  ⟨idleWith 7 [] [accessAt 7 (.read .word 0x1C#5)], 7, 0x1C#5, [], rfl, by decide⟩

/-- The two addresses beside the window. -/
theorem witness_RegisterWindowReads : ∃ p : Config.OpenParams,
    (0xFFF < p.base ∨ p.base + 32 ≤ 0xFFF) ∧ (0x1020 < p.base ∨ p.base + 32 ≤ 0x1020) :=
  ⟨{ tReinit := 0, base := 0x1000 }, by decide, by decide⟩

theorem witness_ReservedOffsetsReadZero : ∀ off ∈ [0x14#5, 0x18#5, 0x1C#5],
    ∃ (s : State) (n : Nat) (v : Word) (rest : List HostEvent),
      s.nextEvent = some (⟨n, .access (.write .word off v)⟩, rest) :=
  fun off _ => ⟨idleWith 7 [] [accessAt 7 (.write .word off 1#32)], 7, 1#32, [], due_alone _ _⟩

theorem witness_NowCountsTicks : (idle 9 []).inReset = false ∧
    ∃ (s : State) (n : Nat) (v : Word) (rest : List HostEvent),
      s.nextEvent = some (⟨n, .access (.write .word 0x0C#5 v)⟩, rest) :=
  ⟨rfl, idleWith 7 [] [accessAt 6 (.write .word 0xC#5 1#32)], 6, 1#32, [], rfl⟩

/-- The last aligned offset, the offset after it, and another width. -/
theorem witness_OnlyAlignedWordAccesses :
    (Access.read .word 0x1C#5).legal ∧ ¬ (Access.read .word 0x1D#5).legal ∧ ¬ (Access.write .half 0#5 0#32).legal ∧
    ∀ a, (idleWith 7 [] [accessAt 7 a]).nextEvent = some (⟨7, .access a⟩, []) :=
  ⟨⟨rfl, by decide⟩, fun h => absurd h.2 (by decide), fun h => absurd h.1 (by decide), fun _ => due_alone _ _⟩

theorem witness_HostWritesClearOnlyFlags : ∀ off ∈ [0x04#5, 0x08#5, 0x0C#5, 0x10#5],
    ∃ (s : State) (n : Nat) (v : Word) (rest : List HostEvent),
      s.nextEvent = some (⟨n, .access (.write .word off v)⟩, rest) :=
  fun off _ => ⟨idleWith 7 [] [accessAt 7 (.write .word off 0x300#32)], 7, 0x300#32, [], due_alone _ _⟩

theorem witness_StepRunsDecodedWord : ∃ (s : State) (n : Nat) (w : Word) (rest : List HostEvent),
    s.nextEvent = some (⟨n, .access (.write .word 0#5 w)⟩, rest) ∧ s.seq = .idle ∧ s.inReset = false :=
  ⟨idleWith 7 [] [writeAt 7 0x20000000#32], 7, 0x20000000#32, [], rfl, rfl, rfl⟩

theorem witness_OverlapIsDropped : ∃ (s : State) (x : Exec) (n : Nat) (w : Word) (rest : List HostEvent),
    s.nextEvent = some (⟨n, .access (.write .word 0#5 w)⟩, rest) ∧ s.seq = .exec x ∧ s.inReset = false :=
  ⟨sendingOneHigh 50 [writeAt 50 0#32], _, 50, 0#32, [], rfl, rfl, rfl⟩

/-- Nothing pending; and an event one tick ahead. -/
theorem witness_IdleBlockKeepsItsState : ((idle 7 []).seq = .idle ∧ (idle 7 []).host = []) ∧
    ∃ (s : State) (ev : HostEvent) (rest : List HostEvent),
      s.seq = .idle ∧ s.host = ev :: rest ∧ s.tick < ev.tick :=
  ⟨⟨rfl, rfl⟩, idleWith 7 [] [writeAt 8 0#32], writeAt 8 0#32, [], rfl, rfl, by decide⟩

/-- Each flag is cleared by a STATUS write, and by block reset. -/
theorem witness_FlagsAreSticky : ∀ e ∈ [Event.access (.write .word 4#5 0x300#32), .resetAssert],
    ∃ s t : State, step s = .next t ∧ s.ovr = true ∧ t.ovr = false ∧ s.ill = true ∧ t.ill = false := by
  intro e he
  refine ⟨{ idleWith 3 [] [⟨3, e⟩] with ovr := true, ill := true }, ?_⟩
  simp only [List.mem_cons, List.not_mem_nil, or_false] at he
  rcases he with rfl | rfl <;> exact ⟨_, rfl, rfl, rfl, rfl, rfl⟩

theorem witness_LineReleaseReleases :
    opc 0x1FFFFFFF#32 = 0x1#4 ∧ (idle 9 []).ReadyUntil (9 + 1) ∧ (idle 9 []).TraceHeld :=
  ⟨by decide, idle_readyUntil _ _ _, idle_traceHeld _ _⟩

theorem witness_LineLowPullsLow :
    opc 0x20000000#32 = 0x2#4 ∧ (idle 9 []).ReadyUntil (9 + 1) ∧ (idle 9 []).TraceHeld :=
  ⟨by decide, idle_readyUntil _ _ _, idle_traceHeld _ _⟩

theorem witness_LineReadSamplesTheLine :
    opc 0x30000000#32 = 0x3#4 ∧ (idle 9 []).ReadyUntil (9 + 1) ∧ (idleLow 5 9).ReadyUntil (9 + 1) ∧
    (idleLow 5 9).drv = .low := by
  refine ⟨by decide, idle_readyUntil _ _ _, ?_, rfl⟩
  unfold State.ReadyUntil
  exact ⟨rfl, rfl, rfl⟩

/-- The shortest wait and the longest. -/
theorem witness_WaitHoldsTheDriver : opc 0x4000FFFF#32 = 0x4#4 ∧
    ∀ n ∈ [0#16, 0xFFFF#16], (idle 0 []).ReadyUntil (0 + 1 + n.toNat) :=
  ⟨by decide, fun _ _ => idle_readyUntil _ _ _⟩

theorem witness_EncodeBitSendsOneCell : opc 0x5000FFFF#32 = 0x5#4 ∧
    (idle 99 []).ReadyUntil (99 + 1 + Config.tShort + Config.tLong) ∧ (idle 99 []).TraceHeld :=
  ⟨by decide, idle_readyUntil _ _ _, idle_traceHeld _ _⟩

/-- V-B15, the longest valid bit; V-B8, the longest low with the shortest high. -/
theorem witness_DecodeBitMeasuresBothPhases : opc 0x60000000#32 = 0x6#4 ∧
    ReadsBit (idle 9 [⟨10, 95⟩, ⟨180, 190⟩]).lineAt (9 + 1) .zero 180 ∧
    (idle 9 [⟨10, 95⟩, ⟨180, 190⟩]).ReadyUntil 180 ∧
    ReadsBit (idle 9 [⟨10, 95⟩, ⟨96, 190⟩]).lineAt (9 + 1) .zero 96 ∧ (idle 9 [⟨10, 95⟩, ⟨96, 190⟩]).ReadyUntil 96 :=
  ⟨by decide, .inl ⟨85, 85, by decide, by decide, by decide, by decide, by decide, by decide, rfl, rfl⟩,
    idle_readyUntil _ _ _, .inl ⟨85, 1, by decide, by decide, by decide, by decide, by decide, by decide, rfl, rfl⟩,
    idle_readyUntil _ _ _⟩

/-- V-B13 and V-B10: the two ways to time out. -/
theorem witness_DecodeBitMeasuresBothPhases_timeout :
    ReadsBit (idle 9 [⟨10, 96⟩]).lineAt (9 + 1) .error 95 ∧ (idle 9 [⟨10, 96⟩]).ReadyUntil 95 ∧
    ReadsBit (idle 9 []).lineAt (9 + 1) .error 95 ∧ (idle 9 []).ReadyUntil 95 :=
  ⟨.inr (.inl ⟨by decide, rfl, rfl⟩), idle_readyUntil _ _ _,
    .inr (.inr ⟨0, by decide, by decide, by decide, rfl, rfl⟩), idle_readyUntil _ _ _⟩

/-- V-B11, a high phase of MAX_WAIT; and the block's own cell of a 0. -/
theorem witness_BitRoundTrip : ∀ lohi ∈ [(10, 85), (65, 35)], ∃ s : State, lohi.1 ≤ Config.maxWait ∧ 1 ≤ lohi.2 ∧
    lohi.2 ≤ Config.maxWait ∧ (∀ j, j < lohi.1 → s.lineAt (s.tick + 1 + j) = .low) ∧
    (∀ j, j < lohi.2 → s.lineAt (s.tick + 1 + lohi.1 + j) = .high) ∧
    s.lineAt (s.tick + 1 + lohi.1 + lohi.2) = .low ∧ s.ReadyUntil (s.tick + 1 + lohi.1 + lohi.2) := by
  intro lohi h
  simp only [List.mem_cons, List.not_mem_nil, or_false] at h
  rcases h with rfl | rfl
  · exact ⟨idle 9 [⟨10, 20⟩, ⟨105, 106⟩], by decide, by decide, by decide, by decide, by decide, by decide,
      idle_readyUntil _ _ _⟩
  · exact ⟨idle 9 [⟨10, 75⟩, ⟨110, 111⟩], by decide, by decide, by decide, by decide, by decide, by decide,
      idle_readyUntil _ _ _⟩

/-- Stuck high, and stuck low. -/
theorem witness_StuckLineTimesOut : ∀ dev ∈ [[], [Pull.mk 0 1000]],
    (∀ j, j ≤ Config.maxWait → (idle 9 dev).lineAt (9 + 1 + j) = (idle 9 dev).lineAt (9 + 1)) ∧
    (idle 9 dev).ReadyUntil (9 + 1 + Config.maxWait) :=
  fun dev h => ⟨(by decide : ∀ d ∈ [[], [Pull.mk 0 1000]], ∀ j, j ≤ Config.maxWait →
    (idle 9 d).lineAt (9 + 1 + j) = (idle 9 d).lineAt (9 + 1)) dev h, idle_readyUntil _ _ _⟩

/-- Phases 20 and 40, and the same doubled. -/
theorem witness_DecodedValueIsScaleInvariant : ∃ (s s' : State) (k a b : Nat), 1 ≤ k ∧ 1 ≤ b ∧
    k * a ≤ Config.maxWait ∧ k * b ≤ Config.maxWait ∧ (∀ j, j < a → s.lineAt (s.tick + 1 + j) = .low) ∧
    (∀ j, j < b → s.lineAt (s.tick + 1 + a + j) = .high) ∧ s.lineAt (s.tick + 1 + a + b) = .low ∧
    s.ReadyUntil (s.tick + 1 + a + b) ∧ (∀ j, j < k * a → s'.lineAt (s'.tick + 1 + j) = .low) ∧
    (∀ j, j < k * b → s'.lineAt (s'.tick + 1 + k * a + j) = .high) ∧
    s'.lineAt (s'.tick + 1 + k * a + k * b) = .low ∧ s'.ReadyUntil (s'.tick + 1 + k * a + k * b) :=
  ⟨idle 9 [⟨10, 30⟩, ⟨70, 71⟩], idle 9 [⟨10, 50⟩, ⟨130, 131⟩], 2, 20, 40, by decide, by decide, by decide, by decide,
    by decide, by decide, by decide, idle_readyUntil _ _ _, by decide, by decide, by decide, idle_readyUntil _ _ _⟩

set_option maxRecDepth 100000 in
theorem witness_DecodingDoesNotDrive : (∃ t, exec .decodeBit (idle 9 []) = .next t) ∧
    ∃ t, exec (.decodeFrame 0#4) (idle 9 []) = .next t :=
  ⟨(exists_of_goesTo (p := fun t => t.tick == 95) (by decide)).imp fun _ h => h.1,
    (exists_of_goesTo (p := fun t => t.tick == 95) (by decide)).imp fun _ h => h.1⟩

theorem witness_DecodingWhileDrivingFails :
    (idleLow 5 9).drv = .low ∧ (idleLow 5 9).ReadyUntil (9 + 1 + Config.maxWait) := by
  unfold State.ReadyUntil
  exact ⟨rfl, rfl, rfl, rfl⟩

/-- The shortest frame and the longest. -/
theorem witness_EncodeFrameSendsCells : opc 0x700700A5#32 = 0x7#4 ∧ ∀ lenm1 ∈ [0#4, 15#4],
    ∃ n e, n = lenm1.toNat + 1 ∧ e = 9 + 1 + (n + 2) * (Config.tShort + Config.tLong) ∧ (idle 9 []).ReadyUntil e ∧
      (idle 9 []).TraceHeld :=
  ⟨by decide, fun _ _ => ⟨_, _, rfl, rfl, idle_readyUntil _ _ _, idle_traceHeld _ _⟩⟩

set_option maxRecDepth 100000 in
/-- V-F9: a frame of one bit. -/
theorem witness_DecodeFrameReadsOrFails : opc 0x80000000#32 = 0x8#4 ∧
    ReadsFrame (idle 9 (deviceFrame 1#16 1 10)).lineAt (9 + 1) 1 1 360 ∧
    (idle 9 (deviceFrame 1#16 1 10)).ReadyUntil 360 :=
  ⟨by decide, ⟨[true], 110, 210, .error, rfl, rfl, readsBit_of_cellAt (b := true) (by decide),
    readsBits_of_cellsAt [true] 110 (by decide),
    .inr (.inr ⟨65, by decide, by decide, by decide, rfl, rfl⟩)⟩, idle_readyUntil _ _ _⟩

set_option maxRecDepth 100000 in
/-- V-F5 and V-F6: a start bit 0, and no device. -/
theorem witness_DecodeFrameReadsOrFails_noStart :
    NoStart (idle 9 [⟨10, 75⟩, ⟨110, 111⟩]).lineAt (9 + 1) 110 ∧ (idle 9 [⟨10, 75⟩, ⟨110, 111⟩]).ReadyUntil 110 ∧
    NoStart (idle 9 []).lineAt (9 + 1) 95 ∧ (idle 9 []).ReadyUntil 95 :=
  ⟨⟨.zero, by decide, readsBit_of_cellAt (b := false) (by decide)⟩, idle_readyUntil _ _ _,
    ⟨.error, by decide, .inr (.inr ⟨0, by decide, by decide, by decide, rfl, rfl⟩)⟩, idle_readyUntil _ _ _⟩

set_option maxRecDepth 100000 in
/-- The one data bit times out. -/
theorem witness_DecodeFrameReadsOrFails_dataTimeout :
    DataTimeout (idle 9 [⟨10, 45⟩, ⟨110, 145⟩]).lineAt (9 + 1) 1 230 ∧
    (idle 9 [⟨10, 45⟩, ⟨110, 145⟩]).ReadyUntil 230 :=
  ⟨⟨[], 110, 110, by decide, readsBit_of_cellAt (b := true) (by decide), rfl,
    .inr (.inr ⟨35, by decide, by decide, by decide, rfl, rfl⟩)⟩, idle_readyUntil _ _ _⟩

/-- The line a device makes of a frame of one bit is the cells' line, from `lo` ticks after its beginning on. -/
theorem deviceFrame_line (lo : Nat) (h : ∀ j, j < 265 - lo →
      (idle (9 + lo) (deviceFrame 1#16 1 10)).lineAt (10 + lo + j) =
        resolve (cellsDrive 3 (frameBit 1#16 1) 10 (10 + lo + j)) false) (u : Nat) (h1 : 10 + lo ≤ u)
    (h2 : u < 10 + 265) : (idle (9 + lo) (deviceFrame 1#16 1 10)).lineAt u =
      resolve (cellsDrive 3 (frameBit 1#16 1) 10 u) false := by
  have := h (u - (10 + lo)) (by omega)
  rwa [show 10 + lo + (u - (10 + lo)) = u by omega] at this

set_option maxRecDepth 100000 in
/-- V-F9. -/
theorem witness_FrameRoundTrip : ∃ (lenm1 : BitVec 4) (wd : Half) (s : State) (n : Nat), n = lenm1.toNat + 1 ∧
    wd.toNat < 2 ^ n ∧ (∀ u, s.tick + 1 ≤ u → u < s.tick + 1 + (n + 1) * cellTicks + Config.tLong →
      s.lineAt u = resolve (cellsDrive (n + 2) (frameBit wd n) (s.tick + 1) u) false) ∧
    s.ReadyUntil (s.tick + 1 + (n + 2) * (2 * Config.maxWait)) :=
  ⟨0#4, 1#16, idle 9 (deviceFrame 1#16 1 10), 1, rfl, by decide,
    fun u h1 h2 => deviceFrame_line 0 (by decide) u h1 h2, idle_readyUntil _ _ _⟩

set_option maxRecDepth 100000 in
/-- The latest start, one tick before the first data bit. -/
theorem witness_LateFrameStillDecodes : ∃ (lenm1 : BitVec 4) (wd : Half) (s : State) (n p g : Nat),
    n = lenm1.toNat + 1 ∧ wd.toNat < 2 ^ n ∧ 0 < g ∧ g < Config.tShort + Config.tLong ∧ s.tick + 1 = p + g ∧
    (∀ u, s.tick + 1 ≤ u → u < p + (n + 1) * cellTicks + Config.tLong →
      s.lineAt u = resolve (cellsDrive (n + 2) (frameBit wd n) p u) false) ∧
    s.ReadyUntil (s.tick + 1 + (n + 2) * (2 * Config.maxWait)) :=
  ⟨0#4, 1#16, idle 108 (deviceFrame 1#16 1 10), 1, 10, 99, rfl, by decide, by decide, by decide, rfl,
    fun u h1 h2 => deviceFrame_line 99 (by decide) u h1 h2, idle_readyUntil _ _ _⟩

theorem witness_ResetBusAndLastReset : opc 0x90000000#32 = 0x9#4 ∧
    (idle 0 []).ReadyUntil (0 + 1 + Config.tReset) ∧ (idle 0 []).TraceHeld ∧
    (Instr.lineLow ≠ .resetBus ∧ ∃ t, exec .lineLow (idle 0 []) = .next t) ∧
    ∃ (s : State) (n : Nat) (v : Word) (rest : List HostEvent),
      s.nextEvent = some (⟨n, .access (.write .word 0x10#5 v)⟩, rest) :=
  ⟨by decide, idle_readyUntil _ _ _, idle_traceHeld _ _, ⟨by decide, _, rfl⟩,
    idleWith 7 [] [accessAt 7 (.write .word 0x10#5 1#32)], 7, 1#32, [], rfl⟩

theorem witness_AttentionPulse : opc 0xA0000000#32 = 0xA#4 ∧
    (idle 9 []).ReadyUntil (9 + 1 + Config.tAttn) ∧ (idle 9 []).TraceHeld :=
  ⟨by decide, idle_readyUntil _ _ _, idle_traceHeld _ _⟩

theorem witness_SyncEndsLow : opc 0xB0000000#32 = 0xB#4 ∧
    (idle 809 []).ReadyUntil (809 + 1 + Config.tSync) ∧ (idle 809 []).TraceHeld :=
  ⟨by decide, idle_readyUntil _ _ _, idle_traceHeld _ _⟩

theorem witness_SendCommandWaveform : opc 0xC000FF2C#32 = 0xC#4 ∧
    (idle 0 []).ReadyUntil (0 + 1 + 1770) ∧ (idle 0 []).TraceHeld :=
  ⟨by decide, idle_readyUntil _ _ _, idle_traceHeld _ _⟩

set_option maxRecDepth 100000 in
/-- V-S10 and V-S11: the last sample of the window, and a device one tick too late. -/
theorem witness_TurnaroundPollsForADevice : opc 0xD0000001#32 = 0xD#4 ∧
    (idle 999 []).ReadyUntil (999 + 1 + Config.tTurn) ∧ (idle 999 []).TraceHeld ∧
    PollEnds (idle 999 [⟨1379, 1500⟩]).releasedLine (999 + 1 + Config.tTurn) true 1379 ∧
    (idle 999 [⟨1379, 1500⟩]).ReadyUntil 1379 ∧
    PollEnds (idle 999 [⟨1380, 1500⟩]).releasedLine (999 + 1 + Config.tTurn) false 1380 ∧
    (idle 999 [⟨1380, 1500⟩]).ReadyUntil 1380 :=
  ⟨by decide, idle_readyUntil _ _ _, idle_traceHeld _ _,
    .inl ⟨239, by decide, by decide, by decide, rfl, rfl⟩, idle_readyUntil _ _ _,
    .inr ⟨by decide, rfl, rfl⟩, idle_readyUntil _ _ _⟩

/-- The cell written at SYNC's end tick, and much later. -/
theorem witness_SyncAloneLengthensTheNextCell : ∀ q ∈ [880, 5000], 880 = 809 + 1 + Config.tSync ∧ 880 ≤ q ∧
    (idle 809 []).TraceHeld ∧ (idle 809 []).ReadyUntil (q + 1 + cellTicks) :=
  fun q h => ⟨by decide, (by decide : ∀ q ∈ [880, 5000], 880 ≤ q) q h, idle_traceHeld _ _, idle_readyUntil _ _ _⟩

/-- The three bus operations' words and the reserved one. -/
theorem witness_ComposeGivesTheCommandByte :
    (opc 0xEC200000#32 = 0xE#4 ∧ cmdop 0xEC200000#32 = Config.cmdTalk) ∧
    (opc 0xEB300000#32 = 0xE#4 ∧ cmdop 0xEB300000#32 = Config.cmdListen) ∧
    (opc 0xE1200000#32 = 0xE#4 ∧ cmdop 0xE1200000#32 = Config.cmdFlush) ∧
    (opc 0xE4200000#32 = 0xE#4 ∧ cmdop 0xE4200000#32 = 0b01#2) ∧ (idle 0 []).ReadyUntil (0 + 1) :=
  ⟨by decide, by decide, by decide, by decide, idle_readyUntil _ _ _⟩

set_option maxRecDepth 100000 in
/-- V-C10: the frame begins at the first sample of the poll. -/
theorem witness_TalkReadsARegister : (opc 0xFC200000#32 = 0xF#4 ∧ cmdop 0xFC200000#32 = Config.cmdTalk) ∧
    ∃ s : State, PollEnds s.releasedLine (s.tick + 1 + 1770 + Config.tTurn) true 1911 ∧ s.ReadyUntil 3761 ∧
      ReadsFrame s.releasedLine 1911 16 0x1234 3761 ∧ s.TraceHeld :=
  ⟨by decide, idle 0 (deviceFrame 0x1234#16 16 1911), .inl ⟨0, by decide, by decide, by decide, rfl, rfl⟩,
    idle_readyUntil _ _ _, ⟨msbBits 16 0x1234#16, 2011, 3611, .error, by decide, by decide,
      readsBit_of_cellAt (b := true) (by decide), readsBits_of_cellsAt (msbBits 16 0x1234#16) 2011 (by decide),
      .inr (.inr ⟨65, by decide, by decide, by decide, rfl, rfl⟩)⟩, idle_traceHeld _ _⟩

set_option maxRecDepth 100000 in
/-- V-C9: no device. And a device that stops in the first data bit. -/
theorem witness_TalkReadsARegister_fails :
    (∃ s : State, PollEnds s.releasedLine (s.tick + 1 + 1770 + Config.tTurn) false 2151 ∧ s.ReadyUntil 2236 ∧
      NoStart s.releasedLine 2151 2236) ∧
    ∃ s : State, PollEnds s.releasedLine (s.tick + 1 + 1770 + Config.tTurn) true 1911 ∧ s.ReadyUntil 2131 ∧
      DataTimeout s.releasedLine 1911 16 2131 :=
  ⟨⟨idle 0 [], .inr ⟨by decide, rfl, rfl⟩, idle_readyUntil _ _ _,
      .error, by decide, .inr (.inr ⟨0, by decide, by decide, by decide, rfl, rfl⟩)⟩,
    idle 0 [⟨1911, 1946⟩, ⟨2011, 2046⟩], .inl ⟨0, by decide, by decide, by decide, rfl, rfl⟩, idle_readyUntil _ _ _,
    [], 2011, 2011, by decide, readsBit_of_cellAt (b := true) (by decide), rfl,
    .inr (.inr ⟨35, by decide, by decide, by decide, rfl, rfl⟩)⟩

theorem witness_AbsentDeviceGivesNoStart :
    (∀ u, 0 + 1 + 1910 ≤ u → u ≤ 0 + 1 + 2235 → devLow (idle 0 []).dev u = false) ∧
    (idle 0 []).ReadyUntil (0 + 1 + 2235) :=
  ⟨fun _ _ _ => rfl, idle_readyUntil _ _ _⟩

theorem witness_ListenWritesARegister :
    (opc 0xFB300500#32 = 0xF#4 ∧ cmdop 0xFB300500#32 = Config.cmdListen) ∧
    (idle 0 []).ReadyUntil (0 + 1 + 3710) ∧ (idle 0 []).TraceHeld :=
  ⟨by decide, idle_readyUntil _ _ _, idle_traceHeld _ _⟩

theorem witness_FlushSendsItsCommand :
    (opc 0xF1200000#32 = 0xF#4 ∧ cmdop 0xF1200000#32 = Config.cmdFlush) ∧
    (idle 0 []).ReadyUntil (0 + 1 + 1910) ∧ (idle 0 []).TraceHeld :=
  ⟨by decide, idle_readyUntil _ _ _, idle_traceHeld _ _⟩

theorem witness_ReservedEncodingsOnlyFlagIll : ∀ i ∈ [Instr.reservedOpc0, .reservedECmdop, .reservedFCmdop],
    i.wf = false ∧ (idle 0 []).seq = .idle ∧ (idle 0 []).inReset = false := by decide

theorem witness_EveryOperationEndsInItsBound :
    ∀ i : Instr, (idle 0 []).ReadyUntil (0 + 1 + i.maxTicks) := fun _ => idle_readyUntil _ _ _

theorem witness_TransmissionIgnoresDevices : (Instr.listen 3#2 3#4 0x0500#16).neverSamples = true ∧
    (Instr.turnaround false).neverSamples = true := by decide

/-- The running cell has the invariant, whatever is scheduled. -/
theorem sendingOne_inv (t : Nat) (host : List HostEvent) (h1 : 1 ≤ t) (h2 : t < 36) : (sendingOne t host).Inv := by
  constructor
  case traceHeld =>
    intro u h
    have h : 1 ≤ u := h
    simp [State.drvAt, sendingOne, idleWith, driveAt, h]
  case phaseBegun => exact h1
  case epochPast => exact Nat.zero_le _
  case phaseRuns =>
    intro x hx
    cases hx
    exact ⟨.drive .low 35, _, rfl, rfl, h2⟩
  all_goals simp [sendingOne, idleWith, State.reset]

/-- An idle block has it. -/
theorem idleWith_inv (w : Nat) (dev : List Pull) (host : List HostEvent) : (idleWith w dev host).Inv := by
  constructor
  case traceHeld => exact fun _ _ => rfl
  case phaseBegun => exact Nat.le_refl _
  case epochPast => exact Nat.zero_le _
  all_goals simp [idleWith, State.reset]

/-- The running cell ends at tick 101 if nothing is scheduled. -/
theorem sendingOne_ends (t : Nat) (host : List HostEvent) :
    ∃ u, step { sendingOne t host with host := [] } = .next u ∧ u.tick = 101 := ⟨_, rfl, rfl⟩

/-- A bit cell that a host event interrupts when it was issued. -/
theorem witness_OutputsChangeOnlyAtTheEnd : ∃ (i : Instr) (s t : State),
    s.seq = .idle ∧ exec i s = .next t ∧ t.seq ≠ .idle := by
  obtain ⟨t, ht, hp⟩ := exists_of_goesTo (o := exec (.encodeBit true) (idleWith 0 [] [writeAt 50 0#32]))
    (p := fun t => t.busy) (by decide)
  exact ⟨_, _, t, rfl, ht, by simpa [State.busy] using hp⟩

/-- A running one that an event interrupts, and one at which an event is due. -/
theorem witness_OutputsChangeOnlyAtTheEnd_running : ∀ d ∈ [20, 50], ∃ (s t : State) (x : Exec),
    s.Inv ∧ s.seq = .exec x ∧ step s = .next t ∧ t.seq ≠ .idle := by
  intro d h
  obtain ⟨t, ht, hp⟩ := exists_of_goesTo (o := step (sendingOne 20 [accessAt d (.read .word 4#5)]))
    (p := fun t => t.busy) ((by decide : ∀ d ∈ [20, 50],
      goesTo (step (sendingOne 20 [accessAt d (.read .word 4#5)])) (fun t => t.busy) = true) d h)
  exact ⟨_, t, _, sendingOne_inv 20 _ (by decide) (by decide), rfl, ht, by simpa [State.busy] using hp⟩

set_option maxRecDepth 100000 in
/-- A successful operation, and a failed one. -/
theorem witness_CompletionSetsOkOrErrkind : ∀ row ∈ [(Instr.lineRead, true), (.decodeBit, false)],
    ∃ s t : State, row.1.wf = true ∧ s.seq = .idle ∧ s.inReset = false ∧ exec row.1 s = .next t ∧ t.seq = .idle ∧
      t.ok = row.2 := by
  intro row h
  simp only [List.mem_cons, List.not_mem_nil, or_false] at h
  rcases h with rfl | rfl
  · exact ⟨idle 9 [], _, rfl, rfl, rfl, rfl, rfl, rfl⟩
  · obtain ⟨t, ht, hp⟩ := exists_of_goesTo (o := exec .decodeBit (idle 9 [])) (p := fun t => !t.busy && !t.ok) (by decide)
    simp only [State.busy, Bool.and_eq_true, Bool.not_eq_true', bne_eq_false_iff_eq] at hp
    exact ⟨idle 9 [], t, rfl, rfl, rfl, ht, hp.1, hp.2⟩

theorem witness_OperationFrame : ∃ (i : Instr) (s t : State), exec i s = .next t ∧ i.writesResult = false ∧
    s.seq = .idle ∧ i.wf = true :=
  ⟨.lineLow, idle 9 [], _, rfl, rfl, rfl, rfl⟩

/-- A host that polls STATUS three times, at the present tick, later, and at the last tick before the end, writes a word
over the operation, and has another access at the end tick. -/
def polls : List HostEvent :=
  [accessAt 20 (.read .word 4#5), accessAt 50 (.read .word 4#5), writeAt 50 0x20000000#32, accessAt 100 (.read .word 4#5)]

theorem polls_accessesBefore : AccessesBefore 101 polls [accessAt 101 (.read .word 4#5)] := by
  refine ⟨fun ev h => ?_, fun ev h => ?_⟩
  · simp only [polls, List.mem_cons, List.not_mem_nil, or_false] at h
    rcases h with rfl | rfl | rfl | rfl <;> exact ⟨by decide, _, by simp [Access.legal], rfl⟩
  · simp only [List.head?_cons, Option.mem_def, Option.some.injEq] at h
    subst h
    exact Nat.le_refl _

theorem witness_HostAccessesDoNotDisturb : ∃ (s t : State) (x : Exec) (now rest : List HostEvent), s.Inv ∧
    s.seq = .exec x ∧ s.host = now ++ rest ∧ step { s with host := [] } = .next t ∧ AccessesBefore t.tick now rest := by
  obtain ⟨u, h1, h2⟩ := sendingOne_ends 20 (polls ++ [accessAt 101 (.read .word 4#5)])
  exact ⟨_, u, _, polls, _, sendingOne_inv 20 _ (by decide) (by decide), rfl, rfl, h1, h2 ▸ polls_accessesBefore⟩

/-- The same polls, when WAIT 100 is issued at tick 0. -/
theorem witness_HostAccessesDoNotDisturb_issued : ∃ (i : Instr) (s t : State) (now rest : List HostEvent), i.wf = true ∧
    s.Inv ∧ s.seq = .idle ∧ s.inReset = false ∧ s.host = now ++ rest ∧ exec i { s with host := [] } = .next t ∧
    AccessesBefore t.tick now rest := by
  obtain ⟨t, ht, hp⟩ := exists_of_goesTo (o := exec (.wait 100#16) (idle 0 [])) (p := fun t => t.tick == 101) (by decide)
  exact ⟨.wait 100#16, idleWith 0 [] (polls ++ [accessAt 101 (.read .word 4#5)]), t, polls, _, rfl, idleWith_inv _ _ _,
    rfl, rfl, rfl, ht, (beq_iff_eq.1 hp) ▸ polls_accessesBefore⟩

/-- An event at the operation's end tick itself, issued and running. -/
theorem witness_BlockActsBeforeTheHost : (∃ (i : Instr) (s t : State) (ev : HostEvent), s.seq = .idle ∧
    s.inReset = false ∧ exec i { s with host := [] } = .next t ∧ t.tick ≤ ev.tick) ∧
    ∃ (s t : State) (x : Exec) (ev : HostEvent), s.Inv ∧ s.seq = .exec x ∧ step { s with host := [] } = .next t ∧
      t.tick ≤ ev.tick := by
  obtain ⟨t, ht, hp⟩ := exists_of_goesTo (o := exec (.wait 100#16) (idle 0 [])) (p := fun t => t.tick == 101) (by decide)
  obtain ⟨u, h1, h2⟩ := sendingOne_ends 20 []
  exact ⟨⟨.wait 100#16, idle 0 [], t, writeAt 101 0#32, rfl, rfl, ht, Nat.le_of_eq (beq_iff_eq.1 hp)⟩,
    _, u, _, writeAt 101 0#32, sendingOne_inv 20 [] (by decide) (by decide), rfl, h1, Nat.le_of_eq h2⟩

/-- Two accesses of one tick, and a reset of the next. -/
theorem witness_BlockActsBeforeTheHost_order : ∃ (s : State) (ev : HostEvent) (rest : List HostEvent),
    s.inReset = false ∧ s.host = ev :: rest ∧ ev.tick ≤ s.tick ∧ 1 < s.dueEvents.length ∧
    ∀ e ∈ s.dueEvents, ∃ a : Access, e.event = .access a :=
  ⟨idleWith 20 [] [accessAt 20 (.read .word 4#5), writeAt 20 0#32, ⟨21, .resetAssert⟩], _, _, rfl, rfl, by decide,
    by decide, by simp [State.dueEvents, idleWith, accessAt, writeAt]⟩

/-- Reset comes next, also behind a read of its tick. -/
theorem witness_BlockResetValues : (∃ (s r : State) (n : Nat) (rest : List HostEvent),
    s.nextEvent = some (⟨n, .resetAssert⟩, rest) ∧ step s = .next r ∧ s.Inv) ∧
    ∃ (s : State) (accesses : List HostEvent) (n : Nat) (rest : List HostEvent), s.inReset = false ∧
      s.host = accesses ++ ⟨n, .resetAssert⟩ :: rest ∧ n ≤ s.tick ∧ accesses ≠ [] ∧
      ∀ e ∈ accesses, e.tick ≤ s.tick ∧ ∃ a : Access, e.event = .access a :=
  ⟨⟨sendingOne 20 [⟨20, .resetAssert⟩, writeAt 30 0#32], _, 20, [writeAt 30 0#32], rfl, rfl,
      sendingOne_inv 20 _ (by decide) (by decide)⟩,
    sendingOne 20 [accessAt 20 (.read .word 4#5), ⟨20, .resetAssert⟩], [accessAt 20 (.read .word 4#5)], 20, [], rfl, rfl,
    by decide, by simp, by simp [accessAt, sendingOne, idleWith]⟩

/-- The release comes next, and an access of its tick before it. -/
theorem witness_ReleasedBlockStartsAtTickZero : (∃ (s : State) (n : Nat) (rest : List HostEvent),
    s.nextEvent = some (⟨n, .resetRelease⟩, rest) ∧ s.inReset = true) ∧
    ∃ (s : State) (edges : List HostEvent) (n : Nat) (a : Access) (rest : List HostEvent), s.inReset = true ∧
      s.host = edges ++ ⟨n, .access a⟩ :: rest ∧ n ≤ s.tick ∧ edges ≠ [] ∧
      ∀ e ∈ edges, e.tick ≤ s.tick ∧ (e.event = .resetAssert ∨ e.event = .resetRelease) :=
  ⟨⟨{ idleWith 20 [] [⟨20, .resetRelease⟩] with inReset := true }, 20, [], rfl, rfl⟩,
    { idleWith 20 [] [⟨20, .resetRelease⟩, writeAt 20 0#32] with inReset := true }, [⟨20, .resetRelease⟩], 20, _, [], rfl,
    rfl, by decide, by simp, by simp [idleWith]⟩

/-- The block in the middle of a bit cell has the invariant, and steps. -/
theorem witness_StepKeepsInvariant : ∃ s t : State, s.Inv ∧ step s = .next t :=
  ⟨sendingOne 20 [], _, sendingOne_inv 20 [] (by decide) (by decide), rfl⟩

theorem witness_MaskedMergePreservesOtherBits :
    (0xFF00#16).getLsbD 7 = false ∧ (0xFF00#16).getLsbD 8 = true ∧ 7 < 16 ∧ 8 < 16 := by decide

/-- A frame of 3-tick cells from tick `p`, and the low that ends its last cell. -/
def quickFrame (wd : Half) (p : Nat) : List Pull :=
  ((frameBits wd 16).mapIdx fun k b => ⟨p + 3 * k, p + 3 * k + if b then 1 else 2⟩) ++ [⟨p + 54, p + 55⟩]

/-- A device that answers the first read and the last; the host lets `k` ticks pass before its operation `k`. -/
def updatingDevice : List Pull := quickFrame 0x0200#16 1911 ++ quickFrame 0x05FF#16 17599

set_option maxRecDepth 100000 in
/-- V-X5: the handler id becomes 0x05. -/
theorem witness_UpdateRegister3FailsFastOrVerifies : ∃ (gap : Nat → Nat) (a : BitVec 4) (nv m : Half) (s t : State),
    updateRegister3 gap a nv m s = .next (t, true) := by
  have h : updatesTo (updateRegister3 id 3#4 0x0500#16 0xFF00#16 (idle 0 updatingDevice))
      (fun t ok => ok && t.tick == 17653) = true := by decide
  obtain ⟨t, ok, e, hp⟩ := exists_of_updatesTo h
  cases ok with
  | false => cases hp
  | true => exact ⟨id, 3#4, 0x0500#16, 0xFF00#16, _, t, e⟩

/-- No device, and the host waits 5 ticks. -/
theorem witness_UpdateRegister3FailsFastOrVerifies_absent : 6 = 0 + 5 + 1 ∧
    (∀ u, 6 + 1910 ≤ u → u ≤ 6 + 2235 → devLow (idle 0 []).dev u = false) ∧ (idle 0 []).ReadyUntil (6 + 2235) :=
  ⟨by decide, fun _ _ _ => rfl, idle_readyUntil _ _ _⟩

end Sys2Proof.Tests
end

section
/-! PROOFS of 10_state.md. First what one operation and one step can answer, each said once; then the statements about the
state, its registers and block reset, which follow from that. -/

namespace Sys2Proof.Machine

/-! ### What a run of the sequencer answers -/

/-- The verdicts with which a decoded bit in this role can end the operation (R123, R142, R143, R145). -/
def BitRole.MayReport : BitRole → Verdict → Prop
  | .alone, v => ∃ b, v = .bit b
  | .start, v => v = .noStart
  | .data, v => v = .dataTimeout
  | .stop, _ => False

/-- The verdicts with which a script can end: its own, or that of a bit it decodes. -/
def ScriptReports (ps : List Phase) (ending v : Verdict) : Prop :=
  v = ending ∨ ∃ role, Phase.high role ∈ ps ∧ role.MayReport v

theorem takeBit_inl {role : BitRole} {b : LogicalBit} {x : Exec} {v : Verdict} (h : takeBit role b x = .inl v) :
    role.MayReport v := by
  cases role with
  | alone => cases h; exact ⟨b, rfl⟩
  | start => simp only [takeBit] at h; split at h <;> cases h; rfl
  | data => simp only [takeBit] at h; split at h <;> cases h; rfl
  | stop => cases h

theorem takeBit_inr_ending {role : BitRole} {b : LogicalBit} {x x' : Exec} (h : takeBit role b x = .inr x') :
    x'.ending = x.ending := by
  cases role with
  | alone => cases h
  | start => simp only [takeBit] at h; split at h <;> cases h; rfl
  | data => simp only [takeBit] at h; split at h <;> cases h; rfl
  | stop => cases h; rfl

/-- Only a decoded bit ends an operation before its script is done. -/
theorem endPhase_inl {p : Phase} {x : Exec} {s : State} {v : Verdict} (h : endPhase p x s = .inl v) :
    ∃ role, p = .high role ∧ role.MayReport v := by
  cases p with
  | high role => exact ⟨role, rfl, takeBit_inl h⟩
  | _ => cases h

theorem endPhase_inr_ending {p : Phase} {x x' : Exec} {s : State} (h : endPhase p x s = .inr x') :
    x'.ending = x.ending := by
  cases p with
  | high role => exact (takeBit_inr_ending h :)
  | _ => cases h; rfl

theorem beginPhase_onlyDrives (p : Phase) (x : Exec) (s : State) :
    ∃ d w, beginPhase p x s = { s with drv := d, wave := w } := by
  rcases beginPhase_cases p x s with e | ⟨d, n, -, e⟩
  · exact ⟨s.drv, s.wave, e⟩
  · exact ⟨_, _, e⟩

/-- A run stops at a host event or ends, and until then only the driver has changed (R41). -/
theorem runPhases_cases (ps : List Phase) (x : Exec) (s : State) :
    (∃ todo x' d w, runPhases ps x s = park todo x' { s with drv := d, wave := w }) ∨
    ∃ v acc e d w, ScriptReports ps x.ending v ∧ runPhases ps x s = commit v acc e { s with drv := d, wave := w } := by
  induction ps generalizing x s with
  | nil => exact .inr ⟨_, _, _, s.drv, s.wave, .inl rfl, runPhases_nil x s⟩
  | cons p ps ih =>
    obtain ⟨d, w, hb⟩ := beginPhase_onlyDrives p x s
    by_cases hh : s.hostBefore (phaseEnd p x (beginPhase p x s)) = true
    · exact .inl ⟨_, _, d, w, hb ▸ runPhases_parks hh⟩
    · have hrun := runPhases_cons (ps := ps) (Bool.eq_false_iff.2 hh)
      cases he : endPhase p x (beginPhase p x s) with
      | inl v =>
        rw [he] at hrun
        obtain ⟨role, rfl, hv⟩ := endPhase_inl he
        exact .inr ⟨v, _, _, d, w, .inr ⟨role, by simp, hv⟩, hb ▸ hrun⟩
      | inr x' =>
        rw [he] at hrun
        rcases ih { x' with phaseStart := phaseEnd p x (beginPhase p x s) } (beginPhase p x s) with
          ⟨todo, y, d', w', e⟩ | ⟨v, acc, t, d', w', hv, e⟩
        · exact .inl ⟨todo, y, d', w', hrun.trans (hb ▸ e)⟩
        · have hend := endPhase_inr_ending he
          refine .inr ⟨v, acc, t, d', w', ?_, hrun.trans (hb ▸ e)⟩
          exact hv.imp (fun h => h.trans hend) fun ⟨role, hr, hm⟩ => ⟨role, .tail _ hr, hm⟩

/-! ### What an operation can report -/

@[simp] theorem high_notMem_sendBits (role : BitRole) (bits : List Bool) : Phase.high role ∉ sendBits bits := by
  simp [sendBits, encodeBitPhases]

@[simp] theorem high_notMem_sendCommandPhases (role : BitRole) (c : Byte) :
    Phase.high role ∉ sendCommandPhases c := by
  simp [sendCommandPhases, attentionPhases, syncPhases]

@[simp] theorem high_notMem_turnaroundPhases (role : BitRole) (x : Bool) : Phase.high role ∉ turnaroundPhases x := by
  cases x <;> simp [turnaroundPhases]

@[simp] theorem high_notMem_transactionPhases (role : BitRole) (op reg : BitVec 2) (addr : BitVec 4) (x : Bool) :
    Phase.high role ∉ transactionPhases op reg addr x := by
  simp [transactionPhases]

/-- A received frame has no bit of DECODE_BIT. -/
@[simp] theorem high_alone_notMem_decodeFramePhases (n : Nat) : Phase.high .alone ∉ decodeFramePhases n := by
  simp [decodeFramePhases, decodeBitPhases]

/-- What an operation's verdict must respect: BITVAL is 0 unless it is DECODE_BIT (R31), and RESULT and the free words are
left alone unless it is one of R34. -/
def MayReport (i : Instr) (v : Verdict) : Prop :=
  (i ≠ .decodeBit → v.bitval = .zero) ∧ (i.writesResult = false → v ≠ .word ∧ v.failsFrame = false)

/-- A script that decodes no bit reports its own verdict. -/
theorem mayReport_of_noBits {i : Instr} {ps : List Phase} {ending v : Verdict} (hn : ∀ role, Phase.high role ∉ ps)
    (he : MayReport i ending) (h : ScriptReports ps ending v) : MayReport i v := by
  rcases h with rfl | ⟨role, hr, -⟩
  · exact he
  · exact absurd hr (hn role)

/-- A script that writes RESULT and does not decode a bit of DECODE_BIT leaves BITVAL 0. -/
theorem mayReport_of_writesResult {i : Instr} {ps : List Phase} {v : Verdict} (hi : i.writesResult = true)
    (hn : Phase.high .alone ∉ ps) (h : ScriptReports ps .word v) : MayReport i v := by
  refine ⟨fun _ => ?_, fun hw => by simp [hi] at hw⟩
  rcases h with rfl | ⟨role, hr, hm⟩
  · rfl
  · cases role with
    | alone => exact absurd hr hn
    | start => cases hm; rfl
    | data => cases hm; rfl
    | stop => cases hm

theorem mayReport_plain (i : Instr) : MayReport i .plain := ⟨fun _ => rfl, fun _ => ⟨by simp, rfl⟩⟩

/-- Every operation issues a script whose verdicts are of its kind. -/
theorem exec_issues_mayReport (i : Instr) (h : i.wf = true) :
    ∃ phs v acc, (∀ s, exec i s = issue phs v acc s) ∧ ∀ u, ScriptReports phs v u → MayReport i u := by
  cases i with
  | lineRelease | lineLow | wait n | attention | sync | encodeBit b =>
    exact ⟨_, _, _, fun _ => rfl, fun _ =>
      mayReport_of_noBits (by simp [attentionPhases, syncPhases, encodeBitPhases]) (mayReport_plain _)⟩
  | encodeFrame l wd | sendCommand c | listen reg addr wd | flush reg addr =>
    exact ⟨_, _, _, fun _ => rfl, fun _ => mayReport_of_noBits (by simp [encodeFramePhases]) (mayReport_plain _)⟩
  | resetBus =>
    exact ⟨_, _, _, fun _ => rfl, fun _ =>
      mayReport_of_noBits (by simp [resetBusPhases]) ⟨fun _ => rfl, fun _ => ⟨by simp, rfl⟩⟩⟩
  | decodeBit =>
    refine ⟨_, _, _, fun _ => rfl, fun u hu => ⟨fun h => absurd rfl h, fun _ => ?_⟩⟩
    rcases hu with rfl | ⟨role, hr, hm⟩
    · exact ⟨by simp, rfl⟩
    · obtain rfl : role = .alone := by simpa [decodeBitPhases] using hr
      obtain ⟨b, rfl⟩ := hm
      exact ⟨by simp, rfl⟩
  | lineRead | decodeFrame l | turnaround x | composeTalk reg addr | composeListen reg addr | composeFlush reg addr
  | talk reg addr =>
    exact ⟨_, _, _, fun _ => rfl, fun _ => mayReport_of_writesResult rfl (by simp)⟩
  | reservedOpc0 | reservedECmdop | reservedFCmdop => cases h

/-! ### What an operation answers -/

/-- The next states an operation's meaning can answer. -/
inductive ExecAnswers (i : Instr) (s : State) : State → Prop
  /-- Without effect in reset (R250, log entry 6). -/
  | lost (hr : s.inReset = true) : ExecAnswers i s s
  /-- Dropped while BUSY (R233). -/
  | dropped (hb : s.busy = true) : ExecAnswers i s s.flagOvr
  /-- A reserved encoding (R232). -/
  | rejected (hr : s.inReset = false) (hi : s.seq = .idle) (hw : i.wf = false) : ExecAnswers i s s.flagIll
  /-- Stopped by a host event before its end tick (R235). -/
  | running (hr : s.inReset = false) (hi : s.seq = .idle) (hw : i.wf = true) (todo : List Phase) (x : Exec) (d : Drive)
      (w : List DriveChange) : ExecAnswers i s (park todo x { s with drv := d, wave := w })
  /-- Completed at its end tick `e` (R41). -/
  | ended (hr : s.inReset = false) (hi : s.seq = .idle) (hw : i.wf = true) (v : Verdict) (hv : MayReport i v)
      (acc : Half) (e : Nat) (d : Drive) (w : List DriveChange) :
      ExecAnswers i s (commit v acc e { s with drv := d, wave := w })

theorem reject_cases {s t : State} (h : reject s = .next t) : (s.inReset = true ∧ t = s) ∨
    (s.busy = true ∧ t = s.flagOvr) ∨ (s.inReset = false ∧ s.seq = .idle ∧ t = s.flagIll) := by
  unfold reject at h
  split at h
  · next hr => cases h; exact .inl ⟨hr, rfl⟩
  · next hr =>
    split at h
    · next hb => cases h; exact .inr (.inl ⟨hb, rfl⟩)
    · next hb => cases h; exact .inr (.inr ⟨by simpa using hr, by simpa [State.busy] using hb, rfl⟩)

theorem exec_answers {i : Instr} {s t : State} (h : exec i s = .next t) : ExecAnswers i s t := by
  cases hw : i.wf with
  | false =>
    rw [exec_rejects i hw] at h
    rcases reject_cases h with ⟨hr, rfl⟩ | ⟨hb, rfl⟩ | ⟨hr, hi, rfl⟩
    · exact .lost hr
    · exact .dropped hb
    · exact .rejected hr hi hw
  | true =>
    obtain ⟨phs, v, acc, hf, hv⟩ := exec_issues_mayReport i hw
    rw [hf] at h
    rcases issue_cases h with ⟨hr, rfl⟩ | ⟨-, hb, rfl⟩ | ⟨hr, hi, rfl⟩
    · exact .lost hr
    · exact .dropped hb
    · rcases runPhases_cases (.wait 1 :: phs) (accepted s v acc) s with
        ⟨todo, x, d, w, e⟩ | ⟨u, acc', e', d, w, hu, e⟩ <;> rw [e]
      · exact .running hr hi hw todo x d w
      · refine .ended hr hi hw u (hv u ?_) acc' e' d w
        exact hu.imp id fun ⟨role, hr, hm⟩ => ⟨role, by simpa using hr, hm⟩

/-! ### What a step answers -/

/-- What an event of the world does when it issues no operation. -/
inductive Acts (s : State) : Event → State → Prop
  | reset : Acts s .resetAssert s.blockReset
  | release : Acts s .resetRelease s.releaseReset
  | read (off : BitVec 5) : Acts s (.access (.read .word off)) (s.answerRead off)
  | clear (v : Word) : Acts s (.access (.write .word 0x04#5 v)) (s.clearFlags v)
  | overlap (v : Word) (hb : s.busy = true) : Acts s (.access (.write .word 0#5 v)) s.flagOvr
  | ignored (off : BitVec 5) (v : Word) : Acts s (.access (.write .word off v)) s

theorem regWrite_acts (off : BitVec 5) (v : Word) (s : State) :
    Acts s (.access (.write .word off v)) (s.regWrite off v) := by
  unfold State.regWrite
  split
  · next h =>
    obtain rfl : off = 0x04#5 := BitVec.eq_of_toNat_eq h
    exact .clear v
  · exact .ignored off v

/-- A write of the window acts, or it issues its word to an idle block out of reset. -/
theorem hostWrite_cases {off : BitVec 5} {v : Word} {s : State} :
    (∃ t, hostWrite off v s = .advance t ∧ Acts s (.access (.write .word off v)) t) ∨
    (off = 0#5 ∧ s.inReset = false ∧ s.seq = .idle ∧ hostWrite off v s = .word v s) := by
  unfold hostWrite
  split
  · next h0 =>
    subst h0
    split
    · exact .inl ⟨s, rfl, .ignored _ v⟩
    · next hr =>
      split
      · next hb => exact .inl ⟨_, rfl, .overlap v hb⟩
      · next hb => exact .inr ⟨rfl, by simpa using hr, by simpa [State.busy] using hb, rfl⟩
  · exact .inl ⟨_, rfl, regWrite_acts off v s⟩

/-- An event is refused, acts, or issues its word to an idle block out of reset. -/
theorem perform_cases (e : Event) (s : State) :
    (∃ r, perform e s = .refuse r) ∨ (∃ t, perform e s = .advance t ∧ Acts s e t) ∨
    ∃ w, e = .access (.write .word 0#5 w) ∧ s.inReset = false ∧ s.seq = .idle ∧ perform e s = .word w s := by
  cases e with
  | resetAssert => exact .inr (.inl ⟨_, rfl, .reset⟩)
  | resetRelease => exact .inr (.inl ⟨_, rfl, .release⟩)
  | access a =>
    cases a with
    | read w off =>
      cases w with
      | word =>
        cases ha : aligned off with
        | true => exact .inr (.inl ⟨_, by simp [perform, hostAccess, ha], .read off⟩)
        | false => exact .inl ⟨.accessMisaligned, by simp [perform, hostAccess, ha]⟩
      | _ => exact .inl ⟨_, rfl⟩
    | write w off v =>
      cases w with
      | word =>
        cases ha : aligned off with
        | true =>
          have hp : perform (.access (.write .word off v)) s = hostWrite off v s := by simp [perform, hostAccess, ha]
          rw [hp]
          rcases hostWrite_cases (off := off) (v := v) (s := s) with ⟨t, ht, hact⟩ | ⟨rfl, hr, hi, hword⟩
          · exact .inr (.inl ⟨t, ht, hact⟩)
          · exact .inr (.inr ⟨v, rfl, hr, hi, hword⟩)
        | false => exact .inl ⟨.accessMisaligned, by simp [perform, hostAccess, ha]⟩
      | _ => exact .inl ⟨_, rfl⟩

/-- The next states a step can answer. -/
inductive StepAnswers (s : State) : State → Prop
  /-- No event is due. -/
  | time (hn : s.nextEvent = none) : StepAnswers s (passTime s)
  /-- The event that comes next acts on the block. -/
  | event {ev : HostEvent} {rest : List HostEvent} {t : State} (hn : s.nextEvent = some (ev, rest))
      (ha : Acts { s with host := rest } ev.event t) : StepAnswers s t
  /-- The event that comes next issues an operation. -/
  | word {ev : HostEvent} {rest : List HostEvent} {w : Word} {t : State} (hn : s.nextEvent = some (ev, rest))
      (hi : s.seq = .idle) (he : exec (decode w) (State.latchWord w { s with host := rest }) = .next t) :
      StepAnswers s t

theorem step_answers {s t : State} (h : step s = .next t) : StepAnswers s t := by
  cases hn : s.nextEvent with
  | none =>
    have hf : fetch s = .advance (passTime s) := by simp [fetch, hn]
    simp only [step, hf] at h
    cases h
    exact .time hn
  | some r =>
    rcases perform_cases r.1.event { s with host := r.2 } with ⟨q, hp⟩ | ⟨u, hp, ha⟩ | ⟨w, -, -, hi, hp⟩ <;>
      simp only [step, fetch_due hn, hp] at h
    · cases h
    · cases h
      exact .event hn ha
    · exact .word hn hi h

/-- The step in which the event that comes next acts. -/
theorem step_of_perform {s t : State} {ev : HostEvent} {rest : List HostEvent} (hn : s.nextEvent = some (ev, rest))
    (hp : perform ev.event { s with host := rest } = .advance t) : step s = .next t := by
  simp [step, fetch_due hn, hp]

/-! ### The sticky flags (R33) -/

/-- Neither host-error flag goes from set to clear. -/
def KeepsFlags (s t : State) : Prop := (s.ovr = true → t.ovr = true) ∧ (s.ill = true → t.ill = true)

theorem exec_keepsFlags {i : Instr} {s t : State} (h : exec i s = .next t) : KeepsFlags s t := by
  cases exec_answers h with
  | lost => exact ⟨id, id⟩
  | dropped => exact ⟨fun _ => rfl, id⟩
  | rejected => exact ⟨id, fun _ => rfl⟩
  | running => exact ⟨id, id⟩
  | ended => exact ⟨id, id⟩

theorem passTime_keepsFlags (s : State) : KeepsFlags s (passTime s) := by
  unfold passTime
  split
  · next x _ =>
    exact runPhases_keeps (P := KeepsFlags s) (fun _ _ _ h => h) (fun _ _ _ _ h => h) (fun _ _ _ h => h) _ _ _
      ⟨id, id⟩
  · split <;> exact ⟨id, id⟩

/-- A step keeps the flags, unless the event that comes next asserts reset or is a STATUS write, which clears those with
their bit set. -/
theorem step_flags {s t : State} (h : step s = .next t) : KeepsFlags s t ∨ ∃ ev rest, s.nextEvent = some (ev, rest) ∧
    (ev.event = .resetAssert ∨ ∃ v, ev.event = .access (.write .word 0x04#5 v) ∧ t.ovr = (s.ovr && !v.getLsbD 8) ∧
      t.ill = (s.ill && !v.getLsbD 9)) := by
  cases step_answers h with
  | time => exact .inl (passTime_keepsFlags s)
  | word _ _ he => exact .inl (exec_keepsFlags he :)
  | @event ev rest _ hn ha =>
    generalize he : ev.event = e at ha
    cases ha with
    | reset => exact .inr ⟨ev, rest, hn, .inl he⟩
    | clear v => exact .inr ⟨ev, rest, hn, .inr ⟨v, he, rfl, rfl⟩⟩
    | overlap => exact .inl ⟨fun _ => rfl, id⟩
    | release | read | ignored => exact .inl ⟨id, id⟩

/-- Settles O20: the events that can clear a flag are those of `step_flags`. -/
theorem flagsAreSticky : Obligations.FlagsAreSticky := by
  intro s t h
  rcases step_flags h with ⟨ho, hl⟩ | ⟨ev, rest, hn, he | ⟨v, he, ho, hl⟩⟩
  · exact ⟨fun h1 h2 => by simp [ho h1] at h2, fun h1 h2 => by simp [hl h1] at h2⟩
  · exact ⟨fun _ _ => ⟨ev, rest, hn, .inl he⟩, fun _ _ => ⟨ev, rest, hn, .inl he⟩⟩
  · refine ⟨fun h1 h2 => ⟨ev, rest, hn, .inr ⟨v, ?_, he⟩⟩, fun h1 h2 => ⟨ev, rest, hn, .inr ⟨v, ?_, he⟩⟩⟩
    · simpa [h1, ho] using h2
    · simpa [h1, hl] using h2

/-! ### Outputs (R41) -/

theorem exec_running_outputs {i : Instr} {s t : State} (hi : s.seq = .idle) (h : exec i s = .next t)
    (ht : t.seq ≠ .idle) : t = { s with tick := t.tick, drv := t.drv, wave := t.wave, seq := t.seq } := by
  cases exec_answers h with
  | running => rfl
  | lost | rejected => exact absurd hi ht
  | dropped hb => simp [State.busy, hi] at hb
  | ended => exact absurd rfl ht

/-- An event that leaves a block running changes the host-error flags, their record and what was read. -/
theorem acts_running_outputs {s t : State} {e : Event} (hr : s.inReset = false) (h : Acts s e t) (ht : t.seq ≠ .idle) :
    t = { s with reads := t.reads, ovr := t.ovr, ill := t.ill, errors := t.errors } := by
  cases h with
  | reset => exact absurd rfl ht
  | release => simp [State.releaseReset, hr]
  | read | clear | overlap | ignored => rfl

/-- Settles O50: an operation that is issued or goes on stops as `runPhases_cases` says, and no event touches the outputs
of a running block but an assertion of reset, which makes it idle. -/
theorem outputsChangeOnlyAtTheEnd : Obligations.OutputsChangeOnlyAtTheEnd := by
  refine ⟨fun i s t => exec_running_outputs, fun s t x hinv hx h ht => ?_⟩
  cases step_answers h with
  | time =>
    have hp : passTime s = runPhases x.todo x s := by simp [passTime, hx]
    rw [hp] at ht ⊢
    rcases runPhases_cases x.todo x s with ⟨todo, x', d, w, e⟩ | ⟨v, acc, k, d, w, -, e⟩ <;> rw [e] at ht ⊢
    · rfl
    · exact absurd rfl ht
  | word _ hi => simp [hx] at hi
  | @event ev rest _ _ ha =>
    have hr : s.inReset = false := Inv_notInReset hinv hx
    rw [acts_running_outputs (s := { s with host := rest }) hr ha ht]

theorem verdict_ok_iff (v : Verdict) : v.ok = false ↔ v.errkind ≠ .none := by
  cases v with
  | bit b => cases b <;> decide
  | _ => decide

/-- Settles O51: both are facts about the verdict that completes the operation. -/
theorem completionSetsOkOrErrkind : Obligations.CompletionSetsOkOrErrkind := by
  intro i s t hw hi hr h ht
  cases exec_answers h with
  | ended _ _ _ v hv => exact ⟨verdict_ok_iff v, hv.1⟩
  | lost hl => simp [hr] at hl
  | dropped hb => simp [State.busy, hi] at hb
  | rejected _ _ hn => simp [hw] at hn
  | running => cases ht

/-- A verdict that is no word and no failed frame leaves RESULT (R34). -/
theorem verdict_result_old {v : Verdict} (hw : v ≠ .word) (hf : v.failsFrame = false) (acc old : Half) (n : Nat) :
    v.result acc old n = old := by
  cases v with
  | word => exact absurd rfl hw
  | noStart | dataTimeout => cases hf
  | plain | busReset | bit => rfl

/-- Settles O52, by the answers an operation can give. -/
theorem operationFrame : Obligations.OperationFrame := by
  intro i s t h
  cases exec_answers h with
  | lost | running => exact ⟨rfl, rfl, rfl, rfl, rfl, rfl, fun _ => ⟨rfl, rfl⟩, fun _ _ => ⟨rfl, rfl, rfl⟩⟩
  | dropped hb =>
    exact ⟨rfl, rfl, rfl, rfl, rfl, rfl, fun _ => ⟨rfl, rfl⟩, fun hi _ => by simp [State.busy, hi] at hb⟩
  | rejected _ _ hw =>
    exact ⟨rfl, rfl, rfl, rfl, rfl, rfl, fun _ => ⟨rfl, rfl⟩, fun _ h => by simp [hw] at h⟩
  | ended _ _ _ v hv =>
    refine ⟨rfl, rfl, rfl, rfl, rfl, rfl, fun hres => ?_, fun _ _ => ⟨rfl, rfl, rfl⟩⟩
    obtain ⟨hword, hfail⟩ := hv.2 hres
    exact ⟨verdict_result_old hword hfail _ _ _, by simp [hfail]⟩


/-! ### The line (R24) -/

theorem devLow_iff (dev : List Pull) (t : Nat) : devLow dev t = true ↔ ∃ p ∈ dev, p.first ≤ t ∧ t < p.last := by
  simp [devLow]

theorem lineAt_eq_low (s : State) (t : Nat) : s.lineAt t = .low ↔ s.drv = .low ∨ devLow s.dev t = true := by
  cases hd : s.drv with
  | low => simp [lineAt_of_low hd]
  | rel => simp [lineAt_of_rel hd]

theorem lineAt_eq_high (s : State) (t : Nat) : s.lineAt t = .high ↔ s.drv = .rel ∧ ¬ devLow s.dev t = true := by
  rw [← Level.ne_low, Ne, lineAt_eq_low]
  cases s.drv <;> simp

/-- Settles O9: the wired-AND of the driver and the devices' pulls. -/
theorem lineIsWiredAnd : Obligations.LineIsWiredAnd := by
  intro s t
  refine ⟨?_, ?_, rfl⟩
  · rw [lineAt_eq_low, devLow_iff]
  · rw [lineAt_eq_high, devLow_iff]
    simp

/-! ### STATUS (R30) -/

theorem status_bitval (s : State) : s.status.extractLsb' 2 2 = s.bitval.code := by
  ext k hk
  interval_cases k <;> simp [State.status, bitAt, place]

theorem status_errkind (s : State) : s.status.extractLsb' 4 3 = s.errkind.code := by
  ext k hk
  interval_cases k <;> simp [State.status, bitAt, place]

/-- Each one-bit flag stands at its place. -/
theorem status_flags (s : State) : s.status.getLsbD 0 = s.busy ∧ s.status.getLsbD 1 = s.ok ∧
    s.status.getLsbD 8 = s.ovr ∧ s.status.getLsbD 9 = s.ill ∧ s.status.getLsbD 10 = s.rstv := by
  simp [State.status, bitAt, place]

/-- Bits 7, 15:11 and 31:18 are reserved. -/
theorem status_reserved (s : State) : s.status.getLsbD 7 = false ∧ s.status.extractLsb' 11 5 = 0#5 ∧
    s.status.extractLsb' 18 14 = 0#14 := by
  refine ⟨by simp [State.status, bitAt, place], ?_, ?_⟩ <;>
  · ext k hk
    interval_cases k <;> simp [State.status, bitAt, place]

/-- Settles O10, from the lemmas about each field of STATUS. -/
theorem statusWordFields : Obligations.StatusWordFields := by
  intro s
  obtain ⟨hbusy, hok, hovr, hill, hrstv⟩ := status_flags s
  obtain ⟨hline, hdrv⟩ := status_line s
  refine ⟨by rw [hbusy]; simp [State.busy], hok, ?_, ?_, hovr, hill, hrstv, hline, hdrv, status_reserved s⟩
  · rw [status_bitval]
    cases s.bitval <;> rfl
  · rw [status_errkind]
    cases s.errkind <;> rfl

/-! ### The register window (R28, R50) -/

/-- Settles O12: the table of R28 by evaluation, the addresses by the offset they have in the window. -/
theorem registerWindowReads : Obligations.RegisterWindowReads := by
  refine ⟨fun s => ⟨rfl, rfl, BitVec.toNat_setWidth_of_le (by decide), rfl, rfl⟩, fun p off w v => ?_,
    fun p addr w v h => ?_⟩
  · simp [busRead, busWrite, windowOffset_inside]
  · simp [busRead, busWrite, windowOffset_outside h]

/-- A due write at an aligned offset other than OPWORD is the register window's. -/
theorem step_regWrite {s : State} {n : Nat} {off : BitVec 5} {v : Word} {rest : List HostEvent}
    (hn : s.nextEvent = some (⟨n, .access (.write .word off v)⟩, rest)) (ha : off.toNat % 4 = 0) (h0 : off ≠ 0#5) :
    step s = .next (State.regWrite off v { s with host := rest }) :=
  step_of_perform hn (by simp [perform, hostAccess, aligned, ha, hostWrite, h0])

/-- Settles O14: NOW by its definition, and its write is one the window ignores. -/
theorem nowCountsTicks : Obligations.NowCountsTicks := by
  refine ⟨fun s hr => ?_, rfl, rfl, fun s n v rest hn => step_regWrite hn (by decide) (by decide)⟩
  show s.now = _
  simp [State.now, hr, State.nowAt, Config.nowBits]

/-- Settles O16: each write is the window's, which answers STATUS and ignores the others. -/
theorem hostWritesClearOnlyFlags : Obligations.HostWritesClearOnlyFlags := by
  intro s n v rest
  refine ⟨fun hn => step_regWrite hn (by decide) (by decide), fun off hoff hn => ?_⟩
  simp only [List.mem_cons, List.not_mem_nil, or_false] at hoff
  rcases hoff with rfl | rfl | rfl <;> exact step_regWrite hn (by decide) (by decide)

/-! ### The step -/

/-- Settles O17: the due write is fetched as a word, and the step latches and runs it. -/
theorem stepRunsDecodedWord : Obligations.StepRunsDecodedWord := by
  intro s n w rest hn hi hr
  have hp : perform (.access (.write .word 0#5 w)) { s with host := rest } = .word w { s with host := rest } := by
    simp [perform, hostAccess, aligned, hostWrite, hr, State.busy, hi]
  simp [step, fetch_due hn, hp, State.latchWord]

/-- With no event due, an idle block's step lets time pass. -/
theorem step_notDue {s : State} (hn : ∀ ev rest, s.host = ev :: rest → s.tick < ev.tick) :
    step s = .next (passTime s) := by
  simp [step, fetch_notDue hn]

/-- Settles O19: no event is due, so time passes. -/
theorem idleBlockKeepsItsState : Obligations.IdleBlockKeepsItsState := by
  intro s hi
  refine ⟨fun hh => ?_, fun ev rest hh hlt => ?_⟩
  · simp [step_notDue (s := s) (by simp [hh]), passTime, hi, hh]
  · simp [step_notDue (s := s) (by simp [hh, hlt]), passTime, hi, hh]

/-! ### Block reset (R39, R250) -/

/-- A released driver shows the line HIGH unless a device pulls. -/
theorem line_of_rel {r : State} (h : r.drv = .rel) : r.line = .high ↔ devLow r.dev r.tick = false := by
  simp [State.line, lineAt_eq_high, h]

/-- STATUS of an idle block with every flag clear and the driver released: LINE alone. -/
theorem status_of_cleared {r : State} (hd : r.drv = .rel) (hs : r.seq = .idle) (hok : r.ok = false)
    (hb : r.bitval = .zero) (he : r.errkind = .none) (ho : r.ovr = false) (hl : r.ill = false)
    (hv : r.rstv = false) : r.status = if devLow r.dev r.tick then 0x00000000#32 else 0x00010000#32 := by
  simp only [State.status, State.busy, State.line, lineAt_of_rel hd, hd, hs, hok, hb, he, ho, hl, hv]
  cases devLow r.dev r.tick <;> decide

theorem step_blockReset {s : State} {n : Nat} {rest : List HostEvent}
    (hn : s.nextEvent = some (⟨n, .resetAssert⟩, rest)) :
    step s = .next (State.blockReset { s with host := rest }) :=
  step_of_perform hn rfl

/-- From the tick of the assertion on, the driver trace reads released (R250, R251). -/
theorem drvAt_blockReset {s : State} (h : s.Inv) (rest : List HostEvent) (u : Nat) :
    (State.blockReset { s with host := rest }).drvAt u = if u < s.tick then s.drvAt u else .rel := by
  have hd : (State.blockReset { s with host := rest }).drvAt u = if s.tick ≤ u then .rel else s.drvAt u :=
    drvAt_setDrv h.phaseBegun h.traceHeld .rel u
  rw [hd]
  by_cases hu : u < s.tick
  · rw [if_pos hu, if_neg (by omega)]
  · rw [if_neg hu, if_pos (by omega)]

/-- Settles O55: the reset values by `blockReset`, the cut trace by the invariant, and the assertion before the accesses of
its tick by `nextEvent_first`. -/
theorem blockResetValues : Obligations.BlockResetValues := by
  refine ⟨fun r hr => ?_, fun s n rest hn => ?_, fun s accesses n rest hr hh hd ha => ?_⟩
  · have hreset : r = State.reset ∨ ∃ s : State, r = s.blockReset := by
      refine hr.imp id fun ⟨s, n, rest, hn, hstep⟩ => ⟨{ s with host := rest }, ?_⟩
      rw [step_blockReset hn] at hstep
      exact (Host.Outcome.next.inj hstep).symm
    rcases hreset with rfl | ⟨s, rfl⟩ <;>
      exact ⟨rfl, rfl, rfl, rfl, rfl, rfl, rfl, rfl, rfl, rfl, rfl, rfl, line_of_rel rfl,
        status_of_cleared rfl rfl rfl rfl rfl rfl rfl rfl⟩
  · exact ⟨_, step_blockReset hn, rfl, rfl, rfl, rfl, rfl, rfl, rfl, rfl, rfl, fun _ => Iff.rfl,
      fun hinv => drvAt_blockReset hinv rest⟩
  · refine nextEvent_first hh (fun e he => ?_) hd (by simp [Event.isEdge, hr])
    obtain ⟨hdue, a, hev⟩ := ha e he
    exact ⟨hdue, by simp [hev, Event.isEdge, hr]⟩

end Sys2Proof.Machine
end

section
/-! PROOFS of 20_memory.md: which accesses of the register window have a meaning and what they do, and the order of the
block and the host within a tick. -/

namespace Sys2Proof.Machine

/-! ### Reads and reserved offsets (R51, R56) -/

theorem aligned_iff (off : BitVec 5) : aligned off = true ↔ off.toNat % 4 = 0 := by
  simp [aligned]

/-- Settles O11: the read that comes next is answered, and the answer is all it changes. -/
theorem readsHaveNoSideEffect : Obligations.ReadsHaveNoSideEffect := by
  intro s n off rest hn ha
  have hp : perform (.access (.read .word off)) { s with host := rest } =
      .advance (State.answerRead off { s with host := rest }) := by
    simp [perform, hostAccess, (aligned_iff off).2 ha]
  exact step_of_perform hn hp

/-- Settles O13: the window has no register at these offsets, and ignores a write there. -/
theorem reservedOffsetsReadZero : Obligations.ReservedOffsetsReadZero := by
  intro s n v rest off hoff
  simp only [List.mem_cons, List.not_mem_nil, or_false] at hoff
  rcases hoff with rfl | rfl | rfl <;> exact ⟨rfl, fun hn => step_regWrite hn (by decide) (by decide)⟩

/-! ### Which accesses have a meaning (R54) -/

/-- An operation always answers a next state (R230). -/
theorem exec_next (i : Instr) (s : State) : ∃ t, exec i s = .next t := by
  cases hw : i.wf with
  | true =>
    obtain ⟨phs, v, acc, hf⟩ := exec_issues i hw
    rw [hf, issue]
    split_ifs <;> exact ⟨_, rfl⟩
  | false =>
    rw [exec_rejects i hw, reject]
    split_ifs <;> exact ⟨_, rfl⟩

theorem hostWrite_ne_refuse (off : BitVec 5) (v : Word) (s : State) (r : Refusal) : hostWrite off v s ≠ .refuse r := by
  rcases hostWrite_cases (off := off) (v := v) (s := s) with ⟨t, ht, -⟩ | ⟨-, -, -, hw⟩
  · simp [ht]
  · simp [hw]

/-- An access is refused exactly when it is not one of 32 bits at a multiple of 4. -/
theorem hostAccess_refuses_iff (a : Access) (s : State) : (∃ r, hostAccess a s = .refuse r) ↔ ¬ a.legal := by
  cases a with
  | read w off =>
    cases w with
    | word => cases ha : aligned off <;> simp [hostAccess, Access.legal, ← aligned_iff, ha]
    | half | byte => simp [hostAccess, Access.legal]
  | write w off v =>
    cases w with
    | word => cases ha : aligned off <;> simp [hostAccess, Access.legal, ← aligned_iff, ha, hostWrite_ne_refuse]
    | half | byte => simp [hostAccess, Access.legal]

/-- Settles O15: an access that is not refused acts on the block or issues an operation, which has a next state. -/
theorem onlyAlignedWordAccesses : Obligations.OnlyAlignedWordAccesses := by
  intro s n a rest hn
  have hrefuse := hostAccess_refuses_iff a { s with host := rest }
  refine ⟨fun hl => ?_, fun hl => ?_⟩
  · rcases perform_cases (.access a) { s with host := rest } with hr | ⟨t, ht, -⟩ | ⟨w, -, -, -, hw⟩
    · exact absurd hl (hrefuse.1 hr)
    · exact ⟨t, step_of_perform hn ht⟩
    · simpa only [step, fetch_due hn, hw] using exec_next _ _
  · obtain ⟨r, hr⟩ := hrefuse.2 hl
    exact ⟨r, by simp only [step, fetch_due hn, perform, hr]⟩

/-! ### The block before the host (R61) -/

/-- A run that, without events, ends at or before the next event's tick ends so with it, and leaves the block idle. -/
theorem runPhases_beforeEvent {ps : List Phase} {x : Exec} {s : State} {ev : HostEvent} {rest : List HostEvent}
    (hle : (runPhases ps x { s with host := [] }).tick ≤ ev.tick) :
    runPhases ps x { s with host := ev :: rest } = { runPhases ps x { s with host := [] } with host := ev :: rest } ∧
      (runPhases ps x { s with host := [] }).seq = .idle :=
  ⟨runPhases_undisturbed (s := { s with host := [] }) (ev :: rest) rfl (by simpa [State.hostBefore] using hle),
    (runPhases_ends rfl).1⟩

/-- A reserved encoding sets ILL on an idle block (R232). -/
theorem reject_idle {s : State} (hr : s.inReset = false) (hi : s.seq = .idle) : reject s = .next s.flagIll := by
  simp [reject, hr, State.busy, hi]

/-- An issued operation that ends at or before the next event's tick. -/
theorem exec_beforeEvent {i : Instr} {s t : State} {ev : HostEvent} {rest : List HostEvent} (hi : s.seq = .idle)
    (hr : s.inReset = false) (h : exec i { s with host := [] } = .next t) (hle : t.tick ≤ ev.tick) :
    exec i { s with host := ev :: rest } = .next { t with host := ev :: rest } ∧ t.seq = .idle := by
  cases hw : i.wf with
  | true =>
    obtain ⟨phs, v, acc, hf⟩ := exec_issues i hw
    have hrun : ∀ hs, exec i { s with host := hs } =
        .next (runPhases (.wait 1 :: phs) (accepted s v acc) { s with host := hs }) := fun hs =>
      (hf _).trans (issue_ready (s := { s with host := hs }) hr hi)
    rw [hrun] at h ⊢
    cases h
    obtain ⟨heq, hidle⟩ := runPhases_beforeEvent (rest := rest) hle
    exact ⟨congrArg _ heq, hidle⟩
  | false =>
    have hflag : ∀ hs, exec i { s with host := hs } = .next (State.flagIll { s with host := hs }) := fun hs =>
      (exec_rejects i hw _).trans (reject_idle hr hi)
    rw [hflag] at h ⊢
    cases h
    exact ⟨rfl, hi⟩

/-- A running operation that ends at or before the next event's tick: that event is not due, since the operation's end is
still to come. -/
theorem step_beforeEvent {s t : State} {x : Exec} {ev : HostEvent} {rest : List HostEvent} (hinv : s.Inv)
    (hx : s.seq = .exec x) (h : step { s with host := [] } = .next t) (hle : t.tick ≤ ev.tick) :
    step { s with host := ev :: rest } = .next { t with host := ev :: rest } ∧ t.seq = .idle := by
  have hempty : State.Inv { s with host := [] } := Inv_withHost hinv (by simp [State.dueEvents])
  rw [step_running (s := { s with host := [] }) hx (by simp)] at h
  cases h
  have hlater := running_endsLater hempty hx rfl
  obtain ⟨hrun, hidle⟩ := runPhases_beforeEvent (rest := rest) hle
  refine ⟨?_, hidle⟩
  have hdue : ∀ e l, ev :: rest = e :: l → s.tick < e.tick := fun e l he => by
    cases he
    exact Nat.lt_of_lt_of_le hlater hle
  rw [step_running (s := { s with host := ev :: rest }) hx hdue, hrun]

/-- Settles O54: issued by `exec_beforeEvent`, running by `step_beforeEvent`; with no edge among the due events, the head
of the schedule comes next. -/
theorem blockActsBeforeTheHost : Obligations.BlockActsBeforeTheHost := by
  refine ⟨fun i s t ev rest => exec_beforeEvent, fun s t x ev rest => step_beforeEvent, fun s ev rest hr hh hd ha => ?_⟩
  refine nextEvent_head hh hd fun e he => ?_
  obtain ⟨a, hev⟩ := ha e he
  rw [hev, hr]
  rfl

end Sys2Proof.Machine
end

section
/-! PROOFS of 30_encoding.md. First the decoder as a relation, one rule for each row of the opcode table; then the
statements about the decoder, the encoder and the assembler, which follow from that and from where the fields are. -/

namespace Sys2Proof.Machine

/-! ### The decoder, row by row (R75, R76, R84) -/

/-- What the fields of a word are that decodes to an operation: OPC, for a bus operation CMDOP, and the operands. -/
inductive Decodes (w : Word) : Instr → Prop
  | lineRelease (ho : opc w = 0x1#4) : Decodes w .lineRelease
  | lineLow (ho : opc w = 0x2#4) : Decodes w .lineLow
  | lineRead (ho : opc w = 0x3#4) : Decodes w .lineRead
  | wait {n : BitVec 16} (ho : opc w = 0x4#4) (hn : imm16 w = n) : Decodes w (.wait n)
  | encodeBit {b : Bool} (ho : opc w = 0x5#4) (hb : (imm16 w).getLsbD 0 = b) : Decodes w (.encodeBit b)
  | decodeBit (ho : opc w = 0x6#4) : Decodes w .decodeBit
  | encodeFrame {l : BitVec 4} {wd : BitVec 16} (ho : opc w = 0x7#4) (hl : lenm1Field w = l) (hwd : imm16 w = wd) :
      Decodes w (.encodeFrame l wd)
  | decodeFrame {l : BitVec 4} (ho : opc w = 0x8#4) (hl : lenm1Field w = l) : Decodes w (.decodeFrame l)
  | resetBus (ho : opc w = 0x9#4) : Decodes w .resetBus
  | attention (ho : opc w = 0xA#4) : Decodes w .attention
  | sync (ho : opc w = 0xB#4) : Decodes w .sync
  | sendCommand {c : BitVec 8} (ho : opc w = 0xC#4) (hc : (imm16 w).extractLsb' 0 8 = c) : Decodes w (.sendCommand c)
  | turnaround {x : Bool} (ho : opc w = 0xD#4) (hx : (imm16 w).getLsbD 0 = x) : Decodes w (.turnaround x)
  | composeTalk {r : BitVec 2} {a : BitVec 4} (ho : opc w = 0xE#4) (hc : cmdop w = Config.cmdTalk)
      (hr : regField w = r) (ha : addrField w = a) : Decodes w (.composeTalk r a)
  | composeListen {r : BitVec 2} {a : BitVec 4} (ho : opc w = 0xE#4) (hc : cmdop w = Config.cmdListen)
      (hr : regField w = r) (ha : addrField w = a) : Decodes w (.composeListen r a)
  | composeFlush {r : BitVec 2} {a : BitVec 4} (ho : opc w = 0xE#4) (hc : cmdop w = Config.cmdFlush)
      (hr : regField w = r) (ha : addrField w = a) : Decodes w (.composeFlush r a)
  | talk {r : BitVec 2} {a : BitVec 4} (ho : opc w = 0xF#4) (hc : cmdop w = Config.cmdTalk)
      (hr : regField w = r) (ha : addrField w = a) : Decodes w (.talk r a)
  | listen {r : BitVec 2} {a : BitVec 4} {wd : BitVec 16} (ho : opc w = 0xF#4) (hc : cmdop w = Config.cmdListen)
      (hr : regField w = r) (ha : addrField w = a) (hwd : imm16 w = wd) : Decodes w (.listen r a wd)
  | flush {r : BitVec 2} {a : BitVec 4} (ho : opc w = 0xF#4) (hc : cmdop w = Config.cmdFlush)
      (hr : regField w = r) (ha : addrField w = a) : Decodes w (.flush r a)
  | reservedOpc0 (ho : opc w = 0x0#4) : Decodes w .reservedOpc0
  | reservedECmdop (ho : opc w = 0xE#4) (hc : cmdop w = 0b01#2) : Decodes w .reservedECmdop
  | reservedFCmdop (ho : opc w = 0xF#4) (hc : cmdop w = 0b01#2) : Decodes w .reservedFCmdop

/-- The one CMDOP that is no bus operation (R76, R84). -/
theorem cmdop_reserved_iff (c : BitVec 2) :
    c = 0b01#2 ↔ c ≠ Config.cmdTalk ∧ c ≠ Config.cmdListen ∧ c ≠ Config.cmdFlush := by
  revert c
  decide

theorem decodes_compose {w : Word} (ho : opc w = 0xE#4) : Decodes w (decodeCompose w) := by
  unfold decodeCompose
  split_ifs with ht hl hf
  · exact .composeTalk ho ht rfl rfl
  · exact .composeListen ho hl rfl rfl
  · exact .composeFlush ho hf rfl rfl
  · exact .reservedECmdop ho ((cmdop_reserved_iff _).2 ⟨ht, hl, hf⟩)

theorem decodes_transaction {w : Word} (ho : opc w = 0xF#4) : Decodes w (decodeTransaction w) := by
  unfold decodeTransaction
  split_ifs with ht hl hf
  · exact .talk ho ht rfl rfl
  · exact .listen ho hl rfl rfl rfl
  · exact .flush ho hf rfl rfl
  · exact .reservedFCmdop ho ((cmdop_reserved_iff _).2 ⟨ht, hl, hf⟩)

/-- The decoder is total (R83). -/
theorem decodes_decode (w : Word) : Decodes w (decode w) := by
  unfold decode
  split
  next h => exact .lineRelease (BitVec.eq_of_toNat_eq h)
  next h => exact .lineLow (BitVec.eq_of_toNat_eq h)
  next h => exact .lineRead (BitVec.eq_of_toNat_eq h)
  next h => exact .wait (BitVec.eq_of_toNat_eq h) rfl
  next h => exact .encodeBit (BitVec.eq_of_toNat_eq h) rfl
  next h => exact .decodeBit (BitVec.eq_of_toNat_eq h)
  next h => exact .encodeFrame (BitVec.eq_of_toNat_eq h) rfl rfl
  next h => exact .decodeFrame (BitVec.eq_of_toNat_eq h) rfl
  next h => exact .resetBus (BitVec.eq_of_toNat_eq h)
  next h => exact .attention (BitVec.eq_of_toNat_eq h)
  next h => exact .sync (BitVec.eq_of_toNat_eq h)
  next h => exact .sendCommand (BitVec.eq_of_toNat_eq h) rfl
  next h => exact .turnaround (BitVec.eq_of_toNat_eq h) rfl
  next h => exact decodes_compose (BitVec.eq_of_toNat_eq h)
  next h => exact decodes_transaction (BitVec.eq_of_toNat_eq h)
  next =>
    have hzero : (opc w).toNat = 0 := by
      have hlt := (opc w).isLt
      simp_all only [imp_false]
      omega
    exact .reservedOpc0 (BitVec.eq_of_toNat_eq hzero)

/-- The fields determine the operation (R83). -/
theorem Decodes.decode_eq {w : Word} {i : Instr} (h : Decodes w i) : decode w = i := by
  cases h with
  | composeTalk ho hc | composeListen ho hc | composeFlush ho hc | reservedECmdop ho hc =>
    simp [decode, decodeCompose, Config.cmdTalk, Config.cmdListen, Config.cmdFlush, *]
  | talk ho hc | listen ho hc | flush ho hc | reservedFCmdop ho hc =>
    simp [decode, decodeTransaction, Config.cmdTalk, Config.cmdListen, Config.cmdFlush, *]
  | encodeBit ho hv | turnaround ho hv => simp [decode, ho, ← hv]
  | _ => simp [decode, *]

/-! ### Bits an operation does not use (R74) -/

/-- A field the mask covers has the same value in words that agree under the mask. -/
theorem field_of_masked {w w' m : Word} {lo k : Nat} {v : BitVec k} (h : w &&& m = w' &&& m)
    (hm : m.extractLsb' lo k = BitVec.allOnes k) (hv : w.extractLsb' lo k = v) : w'.extractLsb' lo k = v := by
  have hf := congrArg (BitVec.extractLsb' lo k) h
  rw [BitVec.extractLsb'_and, BitVec.extractLsb'_and, hm, BitVec.and_allOnes, BitVec.and_allOnes] at hf
  exact hf.symm.trans hv

/-- Bit 0 of IMM16 is bit 0 of the word. -/
theorem imm16_bit0_eq_iff {w : Word} {b : Bool} :
    (imm16 w).getLsbD 0 = b ↔ w.extractLsb' 0 1 = BitVec.ofBool b := by
  rw [BitVec.eq_of_getLsbD_eq_iff]
  simp [imm16]

/-- The low byte of IMM16 is that of the word. -/
theorem imm16_byte (w : Word) : (imm16 w).extractLsb' 0 8 = w.extractLsb' 0 8 := by
  simp [imm16]

/-- An operation's fields lie in the bits it uses. -/
theorem Decodes.of_masked {w w' : Word} {i : Instr} (h : Decodes w i) (hm : w &&& i.usedBits = w' &&& i.usedBits) :
    Decodes w' i := by
  cases h with simp only [Instr.usedBits] at hm
  | encodeBit ho hb =>
    rw [imm16_bit0_eq_iff] at hb
    exact .encodeBit (field_of_masked hm rfl ho) (imm16_bit0_eq_iff.2 (field_of_masked hm rfl hb))
  | turnaround ho hx =>
    rw [imm16_bit0_eq_iff] at hx
    exact .turnaround (field_of_masked hm rfl ho) (imm16_bit0_eq_iff.2 (field_of_masked hm rfl hx))
  | sendCommand ho hc =>
    rw [imm16_byte] at hc
    exact .sendCommand (field_of_masked hm rfl ho) ((imm16_byte w').trans (field_of_masked hm rfl hc))
  | _ => constructor <;> exact field_of_masked hm rfl ‹_›

/-- A mask acts on a packed word field by field. -/
theorem pack_and (o : BitVec 4) (c r : BitVec 2) (a l : BitVec 4) (imm : BitVec 16) (m : Word) :
    pack o c r a l imm &&& m = pack (o &&& opc m) (c &&& cmdop m) (r &&& regField m) (a &&& addrField m)
      (l &&& lenm1Field m) (imm &&& imm16 m) := by
  apply BitVec.eq_of_getLsbD_eq
  intro k hk
  interval_cases k <;> simp [pack, place, opc, cmdop, regField, addrField, lenm1Field, imm16]

/-- A value of `k` bits has no bit in common with a mask whose low `k` bits are 0. -/
theorem setWidth_and_of_low_zero {k : Nat} (v : BitVec k) {m : BitVec 16} (hm : m.setWidth k = 0#k) :
    v.setWidth 16 &&& m = 0#16 := by
  have hlow : (v.setWidth 16 &&& m).setWidth k = 0#k := by rw [BitVec.setWidth_and, hm, BitVec.and_zero]
  ext j hj
  by_cases hjk : j < k
  · simpa [hjk, hj] using congrArg (BitVec.getLsbD · j) hlow
  · simp [BitVec.getLsbD_of_ge v j (by omega)]

/-- The encoder writes 0 to every bit the operation does not use (R74). -/
theorem encode_and_unused (i : Instr) : encode i &&& ~~~i.usedBits = 0#32 := by
  have hzero : pack 0#4 0#2 0#2 0#4 0#4 0#16 = 0#32 := by decide
  cases i with simp only [encode, packImm, packBus, Instr.usedBits, pack_and]
  | encodeBit b | turnaround b =>
    simp [opc, cmdop, regField, addrField, lenm1Field, imm16, hzero,
      setWidth_and_of_low_zero (BitVec.ofBool b) (m := 0xFFFE#16) rfl]
  | sendCommand c =>
    simp [opc, cmdop, regField, addrField, lenm1Field, imm16, hzero,
      setWidth_and_of_low_zero c (m := 0xFF00#16) rfl]
  | _ =>
    simp [opc, cmdop, regField, addrField, lenm1Field, imm16, hzero, Config.cmdopBits, Config.regselBits,
      Config.addrBits, Config.cmdTalk, Config.cmdListen, Config.cmdFlush]

/-- Settles O2: a word that agrees on the used bits satisfies the same row of `Decodes`, and `encode_and_unused`. -/
theorem ignoredFieldsNeverMatter : Obligations.IgnoredFieldsNeverMatter :=
  ⟨fun w _ h => ((decodes_decode w).of_masked h).decode_eq, encode_and_unused⟩

/-! ### The opcode table (R83) -/

/-- The rows of the opcode table. -/
def opcodeTable : List (Word × Word) :=
  [(0xF0000000#32, 0x00000000#32), (0xF0000000#32, 0x10000000#32), (0xF0000000#32, 0x20000000#32),
   (0xF0000000#32, 0x30000000#32), (0xF0000000#32, 0x40000000#32), (0xF0000000#32, 0x50000000#32),
   (0xF0000000#32, 0x60000000#32), (0xF0000000#32, 0x70000000#32), (0xF0000000#32, 0x80000000#32),
   (0xF0000000#32, 0x90000000#32), (0xF0000000#32, 0xA0000000#32), (0xF0000000#32, 0xB0000000#32),
   (0xF0000000#32, 0xC0000000#32), (0xF0000000#32, 0xD0000000#32), (0xFC000000#32, 0xE0000000#32),
   (0xFC000000#32, 0xE4000000#32), (0xFC000000#32, 0xE8000000#32), (0xFC000000#32, 0xEC000000#32),
   (0xFC000000#32, 0xF0000000#32), (0xFC000000#32, 0xF4000000#32), (0xFC000000#32, 0xF8000000#32),
   (0xFC000000#32, 0xFC000000#32)]

theorem tableRow_mem (i : Instr) : tableRow i ∈ opcodeTable := by
  cases i <;> simp [tableRow, opcodeTable]

/-- Any two rows fix some bit to different values. -/
theorem opcodeTable_disjoint : opcodeTable.Pairwise fun r q => r.2 &&& q.1 ≠ q.2 &&& r.1 := by
  decide

/-- No word lies in two rows. -/
theorem tableRow_eq_of_inRow {w : Word} {i j : Instr} (hi : inRow w i = true) (hj : inRow w j = true) :
    tableRow i = tableRow j := by
  have : Std.Symm fun r q : Word × Word => r.2 &&& q.1 ≠ q.2 &&& r.1 := ⟨fun _ _ h => h.symm⟩
  by_contra hne
  refine opcodeTable_disjoint.forall (tableRow_mem i) (tableRow_mem j) hne ?_
  rw [← beq_iff_eq.1 hi, ← beq_iff_eq.1 hj, BitVec.and_assoc, BitVec.and_assoc, BitVec.and_comm (tableRow i).1]

/-- A word is its six fields (R71). -/
theorem pack_fields (w : Word) :
    pack (opc w) (cmdop w) (regField w) (addrField w) (lenm1Field w) (imm16 w) = w := by
  apply BitVec.eq_of_getLsbD_eq
  intro k hk
  interval_cases k <;> simp [pack, place, opc, cmdop, regField, addrField, lenm1Field, imm16]

/-- Bits 31:28 of a word are OPC. -/
theorem and_opcBits (w : Word) : w &&& 0xF0000000#32 = place (opc w) 28 := by
  rw [← Laws.EncodesTableRow.pack_and_opc, pack_fields]

/-- Bits 31:26 of a word are OPC and CMDOP. -/
theorem and_cmdopBits (w : Word) : w &&& 0xFC000000#32 = place (opc w) 28 ||| place (cmdop w) 26 := by
  rw [← Laws.EncodesTableRow.pack_and_cmdop, pack_fields]

/-- A word lies in the row of the operation it decodes to. -/
theorem Decodes.inRow_eq_true {w : Word} {i : Instr} (h : Decodes w i) : inRow w i = true := by
  cases h with
  | composeTalk ho hc | composeListen ho hc | composeFlush ho hc | talk ho hc | listen ho hc | flush ho hc
  | reservedECmdop ho hc | reservedFCmdop ho hc =>
    simp only [inRow, tableRow, and_cmdopBits, ho, hc]
    rfl
  | _ ho =>
    simp only [inRow, tableRow, and_opcBits, ho]
    rfl

/-- Settles O3: a word lies in the row of its operation, and in no other, as the rows are disjoint. -/
theorem everyWordHasExactlyOneRow : Obligations.EveryWordHasExactlyOneRow := by
  intro w i
  have hw := (decodes_decode w).inRow_eq_true
  refine ⟨fun hi => tableRow_eq_of_inRow hi hw, fun h => ?_⟩
  rw [inRow, h]
  exact hw

/-! ### Reserved words (R84, R232) -/

/-- Which words decode to a reserved encoding. -/
theorem Decodes.wf_eq_false_iff {w : Word} {i : Instr} (h : Decodes w i) : i.wf = false ↔
    opc w = 0x0#4 ∨ ((opc w = 0xE#4 ∨ opc w = 0xF#4) ∧ cmdop w = 0b01#2) := by
  cases h with
  | composeTalk ho hc | composeListen ho hc | composeFlush ho hc | talk ho hc | listen ho hc | flush ho hc
  | reservedECmdop ho hc | reservedFCmdop ho hc =>
    simp [Instr.wf, ho, hc, Config.cmdTalk, Config.cmdListen, Config.cmdFlush]
  | _ ho => simp [Instr.wf, ho]

/-- Settles O4: the reserved rows of `Decodes`; the step runs the decoded word, which is rejected. -/
theorem reservedWordsFlagIll : Obligations.ReservedWordsFlagIll := by
  intro w
  refine ⟨?_, fun hw s n rest hn hi hr => ?_⟩
  · rw [(decodes_decode w).wf_eq_false_iff, cmdop_reserved_iff]
  · refine ⟨_, ?_, ?_, rfl⟩
    · have hstep : step s = exec (decode w) { s with host := rest } := by
        simpa [hw] using stepRunsDecodedWord s n w rest hn hi hr
      rw [hstep, exec_rejects _ hw]
      exact reject_idle hr hi
    · simp [State.HostSafe]

/-! ### Examples (R86) -/

/-- Settles O5, by evaluation of the table. -/
theorem encodingExamples : Obligations.EncodingExamples := by
  unfold Obligations.EncodingExamples
  decide

/-! ### The command byte (R78, R190) -/

/-- The byte's value (R78): the three fields do not overlap, so that joining them is adding them. -/
theorem composeByte_toNat (op : BitVec 2) (a : BitVec 4) (r : BitVec 2) :
    (composeByte op a r).toNat = op.toNat * 4 + a.toNat * 16 + r.toNat := by
  have ha := a.isLt
  have hop := op.isLt
  have hr := r.isLt
  have hor : a.toNat <<< 4 ||| op.toNat <<< 2 ||| r.toNat = a.toNat <<< 4 + op.toNat <<< 2 + r.toNat := by
    have hsum : a.toNat <<< 4 + op.toNat <<< 2 = (a.toNat <<< 2 + op.toNat) <<< 2 := by omega
    rw [← Nat.shiftLeft_add_eq_or_of_lt (by omega), hsum, Nat.shiftLeft_add_eq_or_of_lt hr]
  have hlt : a.toNat <<< 4 < 256 ∧ op.toNat <<< 2 < 256 := by omega
  simp only [composeByte, Config.cmdopBits, Config.regselBits, BitVec.toNat_or, BitVec.toNat_shiftLeft,
    BitVec.toNat_setWidth]
  simp (disch := omega) only [Nat.mod_eq_of_lt, hor]
  omega

/-- Settles O8: the fields are read off the byte's value. -/
theorem commandByteLayout : Obligations.CommandByteLayout := by
  refine ⟨fun op a r => ⟨composeByte_toNat op a r, ?_, ?_, ?_⟩, rfl⟩
  all_goals
    have ha := a.isLt
    have hop := op.isLt
    have hr := r.isLt
    apply BitVec.eq_of_toNat_eq
    rw [BitVec.extractLsb'_toNat, composeByte_toNat, Nat.shiftRight_eq_div_pow]
    omega

/-! ### Pseudo-instructions (R82) -/

/-- Lines with the same operation, in range together, have the same word. -/
theorem assemble_congr {x y : Asm} (hw : x.wf = y.wf) (hi : x.toInstr = y.toInstr) : assemble x = assemble y := by
  rw [assemble, assemble, hw, hi]

theorem wf_cmd {a r : Nat} (op : BusOp) (ha : a ≤ 15) (hr : r ≤ 3) : (Asm.cmd op a r).wf = true := by
  simp only [Asm.wf, targetInRange, Config.addrBits, Config.regselBits, Bool.and_eq_true, decide_eq_true_eq]
  omega

/-- The command byte of a target in range is in SEND_COMMAND's range. -/
theorem wf_sendCommand_code {a r : Nat} (op : BusOp) (ha : a ≤ 15) (hr : r ≤ 3) :
    (Asm.sendCommand (a * 16 + (busOpCode op).toNat * 4 + r)).wf = true := by
  have hop : (busOpCode op).toNat < 4 := (busOpCode op).isLt
  simp only [Asm.wf, decide_eq_true_eq]
  omega

theorem toInstr_cmd {r : Nat} (op : BusOp) (a : Nat) (hr : r ≤ 3) :
    (Asm.cmd op a r).toInstr = (Asm.sendCommand (a * 16 + (busOpCode op).toNat * 4 + r)).toInstr := by
  have hop : (busOpCode op).toNat < 4 := (busOpCode op).isLt
  refine congrArg Instr.sendCommand (BitVec.eq_of_toNat_eq ?_)
  rw [composeByte_toNat]
  simp only [BitVec.toNat_ofNat]
  omega

/-- Settles O7: CMD by the value of the command byte, the others by their expansions. -/
theorem pseudoInstructionExpansions : Obligations.PseudoInstructionExpansions := by
  refine ⟨rfl, rfl, fun op a r ha hr => ?_, fun wd => ?_, rfl, rfl, rfl, rfl, rfl⟩
  · exact assemble_congr ((wf_cmd op ha hr).trans (wf_sendCommand_code op ha hr).symm) (toInstr_cmd op a hr)
  · exact assemble_congr (by simp [Asm.wf, Config.wordLenMax]) rfl

end Sys2Proof.Machine
end

section
/-! PROOFS of 41_line.md. First that a script with no sampling phase does the same for every device trace; then the four
line operations, each by the rule of its one phase. -/

namespace Sys2Proof.Machine

/-! ### Scripts that do not sample (R106) -/

/-- The phase looks at the line. -/
def Phase.samples : Phase → Bool
  | .sub => false
  | .drive _ _ => false
  | .wait _ => false
  | .sample => true
  | .poll _ => true
  | .low => true
  | .high _ => true

/-- No phase of the script looks at the line. -/
def Unsampled (ps : List Phase) : Prop := ∀ p ∈ ps, p.samples = false

@[simp] theorem unsampled_nil : Unsampled [] := List.forall_mem_nil _

@[simp] theorem unsampled_cons (p : Phase) (ps : List Phase) :
    Unsampled (p :: ps) ↔ p.samples = false ∧ Unsampled ps :=
  List.forall_mem_cons

@[simp] theorem unsampled_append (ps qs : List Phase) : Unsampled (ps ++ qs) ↔ Unsampled ps ∧ Unsampled qs :=
  List.forall_mem_append

@[simp] theorem unsampled_encodeBitPhases (b : Bool) : Unsampled (encodeBitPhases b) := by
  simp [encodeBitPhases, Phase.samples]

@[simp] theorem unsampled_sendBits (bits : List Bool) : Unsampled (sendBits bits) := by
  intro p hp
  obtain ⟨b, -, hb⟩ := List.mem_flatMap.1 hp
  have hcell : Unsampled (.sub :: encodeBitPhases b) := by simp [Phase.samples]
  exact hcell p hb

@[simp] theorem unsampled_encodeFramePhases (wd : Half) (n : Nat) : Unsampled (encodeFramePhases wd n) :=
  unsampled_sendBits _

@[simp] theorem unsampled_attentionPhases : Unsampled attentionPhases := by
  simp [attentionPhases, Phase.samples]

@[simp] theorem unsampled_syncPhases : Unsampled syncPhases := by
  simp [syncPhases, Phase.samples]

@[simp] theorem unsampled_sendCommandPhases (c : Byte) : Unsampled (sendCommandPhases c) := by
  simp [sendCommandPhases, Phase.samples]

/-- With no response expected there is no poll. -/
@[simp] theorem unsampled_transactionPhases (op reg : BitVec 2) (addr : BitVec 4) :
    Unsampled (transactionPhases op reg addr false) := by
  simp [transactionPhases, turnaroundPhases, Phase.samples]

/-! ### The device trace does not matter to them -/

theorem beginPhase_withDev (p : Phase) (x : Exec) (s : State) (d : List Pull) :
    beginPhase p x { s with dev := d } = { beginPhase p x s with dev := d } := by
  cases p <;> rfl

theorem phaseEnd_withDev {p : Phase} (hp : p.samples = false) (x : Exec) (s : State) (d : List Pull) :
    phaseEnd p x { s with dev := d } = phaseEnd p x s := by
  cases p with
  | sub | drive | wait => rfl
  | sample | poll | low | high => cases hp

theorem endPhase_withDev {p : Phase} (hp : p.samples = false) (x : Exec) (s : State) (d : List Pull) :
    endPhase p x { s with dev := d } = endPhase p x s := by
  cases p with
  | sub | drive | wait => rfl
  | sample | poll | low | high => cases hp

/-- Each phase begins, lasts and ends alike, and so does the run, up to its end or to the host event that stops it. -/
theorem runPhases_withDev {ps : List Phase} (hps : Unsampled ps) (x : Exec) (s : State) (d : List Pull) :
    runPhases ps x { s with dev := d } = { runPhases ps x s with dev := d } := by
  induction ps generalizing x s with
  | nil => rfl
  | cons p ps ih =>
    obtain ⟨hp, hps⟩ := (unsampled_cons p ps).1 hps
    have hhost : ∀ (r : State) e, State.hostBefore { r with dev := d } e = r.hostBefore e := fun _ _ => rfl
    rw [runPhases, runPhases, beginPhase_withDev, phaseEnd_withDev hp, endPhase_withDev hp, hhost]
    split_ifs
    · rfl
    · cases endPhase p x (beginPhase p x s) with
      | inl v => rfl
      | inr x' => exact ih hps _ _

/-- The answers of an operation to `s` and to `s` with the device trace `d` differ in that trace alone. -/
def IgnoresDev (f : State → Host.Outcome State Fault Refusal) : Prop :=
  ∀ s d, ∃ t, f s = .next t ∧ f { s with dev := d } = .next { t with dev := d }

theorem issue_ignoresDev {ps : List Phase} (hps : Unsampled ps) (v : Verdict) (acc : Half) :
    IgnoresDev (issue ps v acc) := by
  intro s d
  have hrun : runPhases (.wait 1 :: ps) (accepted { s with dev := d } v acc) { s with dev := d } =
      { runPhases (.wait 1 :: ps) (accepted s v acc) s with dev := d } :=
    runPhases_withDev ((unsampled_cons _ _).2 ⟨rfl, hps⟩) (accepted s v acc) s d
  have hbusy : State.busy { s with dev := d } = s.busy := rfl
  simp only [issue, hbusy, hrun]
  split_ifs <;> exact ⟨_, rfl, rfl⟩

theorem reject_ignoresDev : IgnoresDev reject := by
  intro s d
  have hbusy : State.busy { s with dev := d } = s.busy := rfl
  simp only [reject, hbusy]
  split_ifs <;> exact ⟨_, rfl, rfl⟩

/-- Settles O49: the operations of R106 issue scripts without a sampling phase, and reserved words are rejected. -/
theorem transmissionIgnoresDevices : Obligations.TransmissionIgnoresDevices := by
  intro i s d hi
  cases i with
  | lineRelease | lineLow | wait n | encodeBit b | resetBus | attention | sync =>
    exact issue_ignoresDev (by simp [resetBusPhases, Phase.samples]) _ _ s d
  | encodeFrame l wd | sendCommand c | composeTalk reg addr | composeListen reg addr | composeFlush reg addr
  | listen reg addr wd | flush reg addr =>
    exact issue_ignoresDev (by simp) _ _ s d
  | turnaround x =>
    obtain rfl : x = false := by simpa [Instr.neverSamples] using hi
    exact issue_ignoresDev (by simp [turnaroundPhases, Phase.samples]) _ _ s d
  | reservedOpc0 | reservedECmdop | reservedFCmdop => exact reject_ignoresDev s d
  | lineRead | decodeBit | decodeFrame | talk => cases hi

/-! ### The line at the end tick of a successful operation -/

/-- `L` at the end tick: the operation leaves the driver at `d`, and the devices are as they were (R24). -/
theorem Succeeds.line_eq {s t : State} {e : Nat} {d : Drive} {r : Half} (h : Succeeds s t e d r) :
    t.line = resolve d (devLow s.dev e) := by
  have htick : t.tick = e := congrArg State.tick h
  have hdrv : t.drv = d := congrArg State.drv h
  have hdev : t.dev = s.dev := (congrArg State.dev h :)
  rw [State.line, State.lineAt, htick, hdrv, hdev]

/-- A completion that reports success and no bus reset. -/
theorem succeeds_commit {s : State} (hi : s.seq = .idle) {v : Verdict} (hv : v = .plain ∨ v = .word) (acc : Half)
    (e : Nat) : Succeeds s (commit v acc e s) e s.drv (v.result acc s.result s.draws) := by
  rcases hv with rfl | rfl <;>
    simp [Succeeds, commit, Verdict.ok, Verdict.bitval, Verdict.errkind, Verdict.failsFrame, hi]

/-! ### The line operations (R101 to R104) -/

/-- `DRV <- d` in 0 ticks, at the start tick. -/
theorem issue_drive (d : Drive) {s : State} (hs : s.ReadyUntil (s.tick + 1)) :
    ∃ t, issue [.drive d 0] .plain 0 s = .next t ∧ Succeeds s t (s.tick + 1) d s.result ∧
      (s.TraceHeld → Drives s t fun _ => d) :=
  issue_transmits_plain (transmits_drive d 0) hs

/-- Settles O21, by `issue_drive`; a released driver leaves the line to the devices. -/
theorem lineReleaseReleases : Obligations.LineReleaseReleases := by
  refine ⟨fun w ho => (Decodes.lineRelease ho).decode_eq, fun s hs => ?_⟩
  obtain ⟨t, hexec, hsucc, hdrives⟩ := issue_drive .rel hs
  refine ⟨t, hexec, hsucc, hdrives, ?_⟩
  rw [hsucc.line_eq]
  cases devLow s.dev (s.tick + 1) <;> simp [resolve]

/-- Settles O22, by `issue_drive`; a driver that is LOW holds the line LOW. -/
theorem lineLowPullsLow : Obligations.LineLowPullsLow := by
  refine ⟨fun w ho => (Decodes.lineLow ho).decode_eq, fun s hs => ?_⟩
  obtain ⟨t, hexec, hsucc, hdrives⟩ := issue_drive .low hs
  exact ⟨t, hexec, hsucc, hdrives, hsucc.line_eq⟩

theorem levelWord_eq (l : Level) : levelWord l = if l = .high then 0x0001#16 else 0x0000#16 := by
  cases l <;> rfl

/-- LINE_READ ends in its start tick with the sample as RESULT. -/
theorem exec_lineRead {s : State} (hs : s.ReadyUntil (s.tick + 1)) :
    exec .lineRead s = .next (commit .word (levelWord (s.lineAt (s.tick + 1))) (s.tick + 1) s) := by
  obtain ⟨hi, hr, hh⟩ := hs
  have hstart : exec .lineRead s = .next (runPhases [.sample] (started s .word 0) s) := issue_starts hr hi hh
  rw [hstart, runPhases_sample hh]
  rfl

/-- Settles O23, by `exec_lineRead`; while the driver is LOW the sample is LOW. -/
theorem lineReadSamplesTheLine : Obligations.LineReadSamplesTheLine := by
  refine ⟨fun w ho => (Decodes.lineRead ho).decode_eq, fun s hs => ⟨_, exec_lineRead hs, rfl, ?_, fun hd => ?_⟩⟩
  · rw [← levelWord_eq]
    exact succeeds_commit hs.1 (.inr rfl) _ _
  · rw [lineAt_of_low hd]
    rfl

/-- WAIT ends `n` ticks after its start tick. -/
theorem exec_wait {n : BitVec 16} {s : State} (hs : s.ReadyUntil (s.tick + 1 + n.toNat)) :
    exec (.wait n) s = .next (commit .plain 0 (s.tick + 1 + n.toNat) s) := by
  obtain ⟨hi, hr, hh⟩ := hs
  have hstart : exec (.wait n) s = .next (runPhases [.wait n.toNat] (started s .plain 0) s) :=
    issue_starts hr hi (hostBefore_mono hh (by omega))
  rw [hstart, runPhases_wait hh]
  rfl

/-- Settles O24, by `exec_wait`. -/
theorem waitHoldsTheDriver : Obligations.WaitHoldsTheDriver := by
  refine ⟨fun w ho => (Decodes.wait ho rfl).decode_eq, fun n s hs => ⟨_, exec_wait hs, rfl, ?_⟩⟩
  exact succeeds_commit hs.1 (.inl rfl) _ _

end Sys2Proof.Machine
end

section
/-! PROOFS of 42_bit_codec.md. First ENCODE_BIT, by the rule of one transmitted cell; then DECODE_BIT, by the rule of
one received bit, and its laws, each by what the line reads as; last that a script with no driving phase leaves the
driver. -/

namespace Sys2Proof.Machine

/-! ### ENCODE_BIT (R121) -/

/-- Settles O25, by `transmits_bit`: the end tick is past the low phase, so the driver is released there. -/
theorem encodeBitSendsOneCell : Obligations.EncodeBitSendsOneCell := by
  refine ⟨fun w ho => (Decodes.encodeBit ho rfl).decode_eq, fun b s hs => ?_⟩
  obtain ⟨t, hexec, hsucc, hdrives⟩ := issue_transmits_plain (transmits_bit b) hs
  have hreleased : ¬ s.tick + 1 + cellTicks < s.tick + 1 + cellLow b := by
    have hlow : cellLow b ≤ cellTicks := by cases b <;> decide
    omega
  rw [if_neg hreleased] at hsucc
  exact ⟨t, hexec, hsucc, hdrives⟩

/-! ### DECODE_BIT (R123) -/

/-- DECODE_BIT ends with the bit that the line reads as. -/
theorem exec_decodeBit {s : State} {v : LogicalBit} {e : Nat} (hv : ReadsBit s.lineAt (s.tick + 1) v e)
    (hs : s.ReadyUntil e) : exec .decodeBit s = .next (commit (.bit v) 0 e s) := by
  obtain ⟨hi, hr, hh⟩ := hs
  have hstart : exec .decodeBit s = .next (runPhases [.low, .high .alone] (started s .plain 0) s) :=
    issue_starts hr hi (hostBefore_mono hh (Nat.le_of_succ_le hv.bounds.1))
  rw [hstart, runPhases_readsBit hv rfl hh]
  rfl

/-- The completion of DECODE_BIT on an idle block changes the tick and the flags only. -/
theorem commit_bit {s : State} (hi : s.seq = .idle) (v : LogicalBit) (acc : Half) (e : Nat) :
    commit (.bit v) acc e s = { s with
      tick := e, bitval := v, ok := decide (v ≠ .error)
      errkind := if v = .error then .bitTimeout else .none } := by
  have hok : (v != .error) = decide (v ≠ .error) := by cases v <;> rfl
  simp [commit, Verdict.ok, Verdict.bitval, Verdict.errkind, Verdict.result, Verdict.failsFrame, hi, hok]

/-- Settles O26, by `exec_decodeBit`. -/
theorem decodeBitMeasuresBothPhases : Obligations.DecodeBitMeasuresBothPhases :=
  ⟨fun _ ho => (Decodes.decodeBit ho).decode_eq, fun _ v e hv hs =>
    (exec_decodeBit hv hs).trans (congrArg _ (commit_bit hs.1 v 0 e))⟩

/-! ### Lines with two measured phases (R125, R128) -/

/-- DECODE_BIT of a line that is LOW for `a` ticks, HIGH for `b`, then LOW. -/
theorem exec_decodeBit_phases {s : State} {a b : Nat} (ha : a ≤ Config.maxWait) (hb1 : 1 ≤ b)
    (hb : b ≤ Config.maxWait) (hlow : ∀ j, j < a → s.lineAt (s.tick + 1 + j) = .low)
    (hhigh : ∀ j, j < b → s.lineAt (s.tick + 1 + a + j) = .high) (hend : s.lineAt (s.tick + 1 + a + b) = .low)
    (hs : s.ReadyUntil (s.tick + 1 + a + b)) :
    exec .decodeBit s = .next (commit (.bit (compareBit a b)) 0 (s.tick + 1 + a + b) s) :=
  exec_decodeBit (.inl ⟨a, b, ha, hb1, hb, hlow, hhigh, hend, rfl, rfl⟩) hs

theorem compareBit_ne_error (a b : Nat) : compareBit a b ≠ .error := by
  unfold compareBit
  split <;> decide

theorem compareBit_ok (a b : Nat) : (Verdict.bit (compareBit a b)).ok = true :=
  bne_iff_ne.2 (compareBit_ne_error a b)

/-- The block's own cell of a bit reads as that bit (R120, R125). -/
theorem compareBit_cell (b : Bool) : compareBit (lowTicks b) (highTicks b) = if b then .one else .zero := by
  cases b <;> decide

theorem compareBit_scale {k : Nat} (hk : 1 ≤ k) (a b : Nat) : compareBit (k * a) (k * b) = compareBit a b := by
  simp only [compareBit, Nat.mul_lt_mul_left hk]

/-- Settles O27, by `exec_decodeBit_phases`. -/
theorem bitRoundTrip : Obligations.BitRoundTrip := by
  intro s lo hi hlo hhi1 hhi hlow hhigh hend hs
  refine ⟨_, exec_decodeBit_phases hlo hhi1 hhi hlow hhigh hend hs, rfl, compareBit_ok lo hi, rfl, ?_⟩
  rintro b rfl rfl
  exact compareBit_cell b

/-- Settles O29: the comparison of the phases does not change when both are scaled. -/
theorem decodedValueIsScaleInvariant : Obligations.DecodedValueIsScaleInvariant := by
  intro s s' k a b hk hb1 hka hkb hlow hhigh hend hs hlow' hhigh' hend' hs'
  have ha : a ≤ Config.maxWait := (Nat.le_mul_of_pos_left a hk).trans hka
  have hbk : b ≤ k * b := Nat.le_mul_of_pos_left b hk
  exact ⟨_, _, exec_decodeBit_phases ha hb1 (hbk.trans hkb) hlow hhigh hend hs,
    exec_decodeBit_phases hka (hb1.trans hbk) hkb hlow' hhigh' hend' hs', (compareBit_scale hk a b).symm,
    compareBit_ok _ _, compareBit_ok _ _⟩

/-! ### A line that never changes (R126) -/

/-- Stuck LOW, the low phase times out; stuck HIGH, the low phase takes no tick and the high phase times out. -/
theorem readsBit_of_stuck {L : Nat → Level} {p : Nat} (h : ∀ j, j ≤ Config.maxWait → L (p + j) = L p) :
    ReadsBit L p .error (p + Config.maxWait) := by
  cases hp : L p with
  | low => exact .inr (.inl ⟨fun j hj => (h j hj).trans hp, rfl, rfl⟩)
  | high =>
    exact .inr (.inr ⟨0, Nat.zero_le _, fun j hj => absurd hj (Nat.not_lt_zero j), fun j hj => (h j hj).trans hp,
      rfl, rfl⟩)

/-- Settles O28, by `readsBit_of_stuck`. -/
theorem stuckLineTimesOut : Obligations.StuckLineTimesOut :=
  fun _ hstuck hs => ⟨_, exec_decodeBit (readsBit_of_stuck hstuck) hs, rfl, rfl, rfl, rfl, rfl⟩

/-! ### Scripts that do not drive (R124) -/

/-- The driver and its trace are the same in both states. -/
def SameDriver (s t : State) : Prop := t.drv = s.drv ∧ t.wave = s.wave

/-- A run of a script with no driving phase leaves the driver, whether it ends or a host event stops it. -/
theorem runPhases_sameDriver {ps : List Phase} (hps : ∀ d n, Phase.drive d n ∉ ps) (x : Exec) (s : State) :
    SameDriver s (runPhases ps x s) := by
  induction ps generalizing x with
  | nil => exact ⟨rfl, rfl⟩
  | cons p ps ih =>
    have hbegin : beginPhase p x s = s := by
      rcases beginPhase_cases p x s with h | ⟨d, n, rfl, -⟩
      · exact h
      · exact absurd List.mem_cons_self (hps d n)
    rw [runPhases, hbegin]
    split
    · exact ⟨rfl, rfl⟩
    · split
      · exact ⟨rfl, rfl⟩
      · exact ih (fun d n hmem => hps d n (.tail _ hmem)) _

theorem issue_sameDriver {ps : List Phase} (hps : ∀ d n, Phase.drive d n ∉ ps) {v : Verdict} {acc : Half}
    {s t : State} (h : issue ps v acc s = .next t) : SameDriver s t := by
  rcases issue_cases h with ⟨-, rfl⟩ | ⟨-, -, rfl⟩ | ⟨-, -, rfl⟩
  · exact ⟨rfl, rfl⟩
  · exact ⟨rfl, rfl⟩
  · exact runPhases_sameDriver (by simpa using hps) _ _

theorem drive_notMem_decodeBitPhases (d : Drive) (n : Nat) (role : BitRole) :
    Phase.drive d n ∉ decodeBitPhases role := by
  simp [decodeBitPhases]

theorem drive_notMem_decodeFramePhases (d : Drive) (n len : Nat) : Phase.drive d n ∉ decodeFramePhases len := by
  simp [decodeFramePhases, drive_notMem_decodeBitPhases]

/-- Settles O30, by `issue_sameDriver`: neither script has a driving phase. -/
theorem decodingDoesNotDrive : Obligations.DecodingDoesNotDrive := by
  rintro s t lenm1 (h | h)
  · exact issue_sameDriver (fun d n => drive_notMem_decodeBitPhases d n _) h
  · exact issue_sameDriver (fun d n => drive_notMem_decodeFramePhases d n _) h

end Sys2Proof.Machine
end

section
/-! PROOFS of 43_frame_codec.md. First ENCODE_FRAME, by the rule of a transmitted frame; then DECODE_FRAME, by the rules
of its three outcomes; last its two laws, both by what the line of a frame reads as when a decode starts inside the
start cell. -/

namespace Sys2Proof.Machine

/-! ### ENCODE_FRAME (R140) -/

/-- After the last cell the line is released. -/
theorem cellsDrive_after {n p u : Nat} {bit : Nat → Bool} (h : p + n * cellTicks ≤ u) : cellsDrive n bit p u = .rel :=
  if_neg fun ⟨hlt, _⟩ => Nat.not_lt.2 h hlt

/-- Settles O32, by `transmits_frame`. -/
theorem encodeFrameSendsCells : Obligations.EncodeFrameSendsCells := by
  refine ⟨fun w ho => (Decodes.encodeFrame ho rfl rfl).decode_eq, fun lenm1 wd s n e hn he hs => ?_⟩
  subst hn he
  obtain ⟨t, hexec, hsucc, hdrives⟩ := issue_transmits_plain (transmits_frame wd (lenm1.toNat + 1)) hs
  rw [cellsDrive_after (Nat.le_refl _)] at hsucc
  exact ⟨t, hexec, hsucc, hdrives⟩

/-! ### DECODE_FRAME (R141 to R146) -/

theorem State.ReadyUntil.mono {s : State} {e e' : Nat} (hs : s.ReadyUntil e) (hle : e' ≤ e) : s.ReadyUntil e' := by
  obtain ⟨hi, hr, hh⟩ := hs
  exact ⟨hi, hr, hostBefore_mono hh hle⟩

/-- With no host event up to the start tick, DECODE_FRAME's script runs from there. -/
theorem exec_decodeFrame {s : State} (lenm1 : BitVec 4) (hs : s.ReadyUntil (s.tick + 1)) :
    exec (.decodeFrame lenm1) s = .next (runPhases (decodeFramePhases (lenm1.toNat + 1)) (started s .word 0) s) := by
  obtain ⟨hi, hr, hh⟩ := hs
  exact issue_starts hr hi hh

/-- DECODE_FRAME ends with the word that the line reads as. -/
theorem exec_decodeFrame_reads {s : State} {lenm1 : BitVec 4} {wd e : Nat}
    (hv : ReadsFrame s.lineAt (s.tick + 1) (lenm1.toNat + 1) wd e) (hs : s.ReadyUntil e) :
    exec (.decodeFrame lenm1) s = .next (commit .word (BitVec.ofNat 16 wd) e s) := by
  have ⟨_, _, hh⟩ := hs
  rw [exec_decodeFrame lenm1 (hs.mono hv.bound.1.le), runPhases_readsFrame hv rfl hh]
  rfl

/-- It ends with the start bit when that is not 1. -/
theorem exec_decodeFrame_noStart {s : State} {lenm1 : BitVec 4} {e : Nat} (hv : NoStart s.lineAt (s.tick + 1) e)
    (hs : s.ReadyUntil e) : exec (.decodeFrame lenm1) s = .next (commit .noStart 0 e s) := by
  have ⟨_, _, hh⟩ := hs
  rw [exec_decodeFrame lenm1 (hs.mono hv.bound.1.le), runPhases_noStart hv rfl hh]
  rfl

/-- It ends with the first data bit that is ERROR. -/
theorem exec_decodeFrame_dataTimeout {s : State} {lenm1 : BitVec 4} {e : Nat}
    (hv : DataTimeout s.lineAt (s.tick + 1) (lenm1.toNat + 1) e) (hs : s.ReadyUntil e) :
    ∃ acc, exec (.decodeFrame lenm1) s = .next (commit .dataTimeout acc e s) := by
  have ⟨_, _, hh⟩ := hs
  obtain ⟨acc, hrun⟩ := runPhases_dataTimeout (x := started s .word 0) hv rfl hh
  exact ⟨acc, by rw [exec_decodeFrame lenm1 (hs.mono hv.bound.1.le), hrun]⟩

/-- `n` bits give a word below `2^n` (R144). -/
theorem ReadsFrame.word_lt {L : Nat → Level} {p n wd e : Nat} (h : ReadsFrame L p n wd e) : wd < 2 ^ n := by
  obtain ⟨bits, -, -, -, rfl, rfl, -⟩ := h
  exact msbValue_lt bits

/-- The completion of a frame that fails (R141, R146). -/
theorem failsFrame_commit {s : State} (hi : s.seq = .idle) {v : Verdict} (hv : v = .noStart ∨ v = .dataTimeout)
    (acc : Half) (e : Nat) : FailsFrame s (commit v acc e s) e s.drv v.errkind := by
  rcases hv with rfl | rfl <;>
    simp [FailsFrame, commit, Verdict.ok, Verdict.bitval, Verdict.result, Verdict.failsFrame, hi]

/-- Settles O33, by the rules of a frame that is read, one with no start bit, and one with a data bit that times out. -/
theorem decodeFrameReadsOrFails : Obligations.DecodeFrameReadsOrFails := by
  refine ⟨fun w ho => (Decodes.decodeFrame ho rfl).decode_eq, fun lenm1 s n wd e hn hs => ?_⟩
  subst hn
  refine ⟨fun hv => ?_, fun hv => ?_, fun hv => ?_⟩
  · have hfits : wd < 2 ^ 16 := hv.word_lt.trans_le (Nat.pow_le_pow_right (by decide) lenm1.isLt)
    exact ⟨_, exec_decodeFrame_reads hv hs, rfl, succeeds_commit hs.1 (.inr rfl) _ _, Nat.mod_eq_of_lt hfits,
      hv.word_lt⟩
  · exact ⟨_, exec_decodeFrame_noStart hv hs, rfl, failsFrame_commit hs.1 (.inl rfl) _ _⟩
  · obtain ⟨acc, hexec⟩ := exec_decodeFrame_dataTimeout hv hs
    exact ⟨_, hexec, rfl, failsFrame_commit hs.1 (.inr rfl) _ _⟩

/-! ### The line of a frame (R79, R120) -/

/-- Inside cell `k`, `cellsDrive` is LOW for the low phase of the cell's bit. -/
theorem cellsDrive_cell {n k j : Nat} (bit : Nat → Bool) (p : Nat) (hk : k < n) (hj : j < cellTicks) :
    cellsDrive n bit p (p + k * cellTicks + j) = if j < cellLow (bit k) then .low else .rel := by
  have hc : cellTicks = 100 := rfl
  rw [hc] at hj
  have hin : p + k * 100 + j < p + n * 100 := by omega
  have hdiv : (p + k * 100 + j - p) / 100 = k := by omega
  have hmod : (p + k * 100 + j - p) % 100 = j := by omega
  simp only [cellsDrive, hc, hin, hdiv, hmod, true_and]

/-- A cell of the bit `b` that begins at tick `c`, with a LOW after it: a decode that starts with it, or anywhere inside
it when `b` is 1, reads `b` and ends with the cell. The late start reads a 1 because what is left of the low phase stays
shorter than the high phase that is left (R148). -/
theorem readsBit_of_cell {L : Nat → Level} {c g : Nat} {b : Bool} (hg : g < cellTicks) (hb : g = 0 ∨ b = true)
    (hcell : ∀ j, g ≤ j → j < cellTicks → L (c + j) = if j < cellLow b then .low else .high)
    (hnext : L (c + cellTicks) = .low) : ReadsBit L (c + g) (if b then .one else .zero) (c + cellTicks) := by
  have hc : cellTicks = 100 := rfl
  have hwait : Config.maxWait = 85 := rfl
  have hlen : 35 ≤ cellLow b ∧ cellLow b ≤ 65 := by cases b <;> decide
  have hbit : cellLow b - g < cellTicks - max g (cellLow b) ↔ b = true := by
    rcases hb with rfl | rfl
    · cases b <;> decide
    · simp only [cellLow, Config.tShort, if_true, iff_true]
      omega
  have hlow : ∀ j, j < cellLow b - g → L (c + g + j) = .low := fun j hj => by
    rw [Nat.add_assoc, hcell _ (by omega) (by omega), if_pos (by omega)]
  have hhigh : ∀ j, j < cellTicks - max g (cellLow b) → L (c + g + (cellLow b - g) + j) = .high := fun j hj => by
    rw [Nat.add_assoc, Nat.add_assoc, hcell _ (by omega) (by omega), if_neg (by omega)]
  have hend : c + g + (cellLow b - g) + (cellTicks - max g (cellLow b)) = c + cellTicks := by omega
  exact .inl ⟨_, _, by omega, by omega, by omega, hlow, hhigh, hend ▸ hnext, by simp only [hbit], hend.symm⟩

/-- From tick `q` to the end of the stop cell's low phase, `L` is the line of the frame of `wd` whose cells begin at
tick `p`. -/
def ShowsFrame (L : Nat → Level) (wd : Half) (n p q : Nat) : Prop :=
  ∀ u, q ≤ u → u < p + (n + 1) * cellTicks + Config.tLong →
    L u = resolve (cellsDrive (n + 2) (frameBit wd n) p u) false

namespace ShowsFrame

variable {L : Nat → Level} {wd : Half} {n p q : Nat}

/-- The line at tick `j` of cell `k`, of the stop cell in its low phase only. -/
theorem cell (h : ShowsFrame L wd n p q) {k j : Nat} (hk : k ≤ n ∨ k = n + 1 ∧ j < Config.tLong) (hj : j < cellTicks)
    (hq : q ≤ p + k * cellTicks + j) :
    L (p + k * cellTicks + j) = if j < cellLow (frameBit wd n k) then .low else .high := by
  have hshown : k * cellTicks + j < (n + 1) * cellTicks + Config.tLong := by
    rcases hk with hk | ⟨rfl, hj⟩
    · have := Nat.mul_le_mul_right cellTicks (Nat.add_le_add_right hk 1)
      rw [Nat.succ_mul] at this
      omega
    · omega
  rw [h _ hq (by omega), cellsDrive_cell _ p (by omega) hj]
  split <;> rfl

/-- Each cell begins LOW, the stop cell too. -/
theorem cell_begins_low (h : ShowsFrame L wd n p q) {k : Nat} (hk : k ≤ n + 1) (hq : q ≤ p + k * cellTicks) :
    L (p + k * cellTicks) = .low := by
  have hlow : 0 < cellLow (frameBit wd n k) := by cases frameBit wd n k <;> decide
  have hk' : k ≤ n ∨ k = n + 1 ∧ 0 < Config.tLong := (Nat.le_succ_iff.1 hk).imp_right fun hk => ⟨hk, by decide⟩
  exact (h.cell hk' (by decide) hq).trans (if_pos hlow)

/-- A decode that starts with a cell, or anywhere inside a cell of a 1, reads the cell's bit. -/
theorem readsBit (h : ShowsFrame L wd n p q) {k g : Nat} (hk : k ≤ n) (hg : g < cellTicks)
    (hq : q ≤ p + k * cellTicks + g) (hb : g = 0 ∨ frameBit wd n k = true) :
    ReadsBit L (p + k * cellTicks + g) (if frameBit wd n k then .one else .zero) (p + (k + 1) * cellTicks) := by
  have hnext := h.cell_begins_low (k := k + 1) (Nat.succ_le_succ hk) (by rw [Nat.succ_mul]; omega)
  rw [Nat.succ_mul, ← Nat.add_assoc] at hnext ⊢
  exact readsBit_of_cell hg hb (fun j hgj hj => h.cell (.inl hk) hj (by omega)) hnext

/-- The cells of the last `k` data bits read as those bits. -/
theorem readsBits (h : ShowsFrame L wd n p q) (hq : q ≤ p + cellTicks) {k : Nat} (hk : k ≤ n) :
    ReadsBits L (p + (n + 1 - k) * cellTicks) (msbBits k wd) (p + (n + 1) * cellTicks) := by
  induction k with
  | zero => rfl
  | succ k ih =>
    have hbit : frameBit wd n (n - k) = wd.getLsbD k := by
      rw [frameBit, if_neg (by omega), if_pos (by omega), Nat.sub_sub_self (by omega)]
    have hbegun : q ≤ p + (n - k) * cellTicks :=
      hq.trans (Nat.add_le_add_left (Nat.le_mul_of_pos_left _ (by omega)) p)
    have hread := h.readsBit (k := n - k) (g := 0) (Nat.sub_le n k) (by decide) hbegun (.inl rfl)
    rw [hbit, ← Nat.sub_add_comm (by omega)] at hread
    rw [Nat.add_sub_add_right]
    exact ⟨_, hread, ih (by omega)⟩

end ShowsFrame

/-! ### The word of a frame (R144) -/

theorem msbValue_cons (b : Bool) (bits : List Bool) :
    msbValue (b :: bits) = b.toNat * 2 ^ bits.length + msbValue bits := by
  simpa [msbValue] using msbValue_append_foldl bits b.toNat

/-- Bits sent MSB first and read MSB first give the word back, modulo `2^n`. -/
theorem msbValue_msbBits {k : Nat} (n : Nat) (v : BitVec k) : msbValue (msbBits n v) = v.toNat % 2 ^ n := by
  induction n with
  | zero => simp [msbBits, msbValue, Nat.mod_one]
  | succ n ih =>
    rw [msbBits, msbValue_cons, ih, msbBits_length, BitVec.getLsbD, Nat.toNat_testBit, Nat.mod_pow_succ, Nat.add_comm,
      Nat.mul_comm]

/-- A decode that starts inside the start cell reads the word, whatever the line does after the stop cell's low phase:
the stop bit's value is discarded (R145). -/
theorem ShowsFrame.exists_readsFrame {L : Nat → Level} {wd : Half} {n p g : Nat} (h : ShowsFrame L wd n p (p + g))
    (hg : g < cellTicks) (hwd : wd.toNat < 2 ^ n) : ∃ e, ReadsFrame L (p + g) n wd.toNat e := by
  have hstart := h.readsBit (k := 0) (Nat.zero_le n) hg (by omega) (.inr rfl)
  have hdata := h.readsBits (by omega) (Nat.le_refl n)
  obtain ⟨v, e, hstop⟩ := exists_readsBit L (p + (n + 1) * cellTicks)
  rw [Nat.zero_mul, Nat.add_zero] at hstart
  rw [Nat.add_sub_cancel_left] at hdata
  exact ⟨e, _, _, _, v, msbBits_length n wd, by rw [msbValue_msbBits, Nat.mod_eq_of_lt hwd], hstart, hdata, hstop⟩

/-! ### Laws L5 and L6 (R147, R148) -/

/-- DECODE_FRAME started inside the start cell of a frame completes with the frame's word. -/
theorem exec_decodeFrame_of_showsFrame {lenm1 : BitVec 4} {wd : Half} {s : State} {p g : Nat}
    (hp : s.tick + 1 = p + g) (hg : g < cellTicks) (hwd : wd.toNat < 2 ^ (lenm1.toNat + 1))
    (h : ShowsFrame s.lineAt wd (lenm1.toNat + 1) p (s.tick + 1))
    (hs : s.ReadyUntil (s.tick + 1 + (lenm1.toNat + 1 + 2) * (2 * Config.maxWait))) :
    ∃ t, exec (.decodeFrame lenm1) s = .next t ∧ t.result = wd ∧ t.ok = true ∧ t.errkind = .none ∧ t.seq = .idle := by
  rw [hp] at h
  obtain ⟨e, hread⟩ := h.exists_readsFrame hg hwd
  rw [← hp] at hread
  have hexec := exec_decodeFrame_reads hread (hs.mono hread.bound.2)
  rw [BitVec.ofNat_toNat, BitVec.setWidth_eq] at hexec
  exact ⟨_, hexec, rfl, rfl, rfl, rfl⟩

/-- Settles O34: the decode starts with the start cell. -/
theorem frameRoundTrip : Obligations.FrameRoundTrip := by
  intro lenm1 wd s n hn hwd hline hs
  subst hn
  exact exec_decodeFrame_of_showsFrame (g := 0) rfl (by decide) hwd hline hs

/-- Settles O35: the decode starts `g` ticks into the start cell. -/
theorem lateFrameStillDecodes : Obligations.LateFrameStillDecodes := by
  intro lenm1 wd s n p g hn hwd _ hg hp hline hs
  subst hn
  exact exec_decodeFrame_of_showsFrame hp hg hwd hline hs

end Sys2Proof.Machine
end

section
/-! PROOFS of 44_bus_sequencer.md. First what a completion keeps of the driver trace before it, and the pulse
that three of the scripts are; then each operation by the rule of its script, and last that only RESET_BUS writes
LAST_RESET, RSTV and their record. -/

namespace Sys2Proof.Machine

/-! ### A completion after driving -/

/-- A completion with the default outputs, in a state that differs from `s` in the driver and its trace. -/
theorem Driven.succeeds_commit {s s' : State} {p e : Nat} {f : Nat → Drive} (hd : Driven s s' p e f)
    (hi : s.seq = .idle) {v : Verdict} (hv : v = .plain ∨ v = .word) (acc : Half) (e' : Nat) :
    Succeeds s (commit v acc e' s') e' s'.drv (v.result acc s.result s.draws) :=
  (congrArg (commit v acc e') hd.same).trans
    (Machine.succeeds_commit (s := { s with drv := s'.drv, wave := s'.wave }) hi hv acc e')

/-- The completion leaves the driver trace, whatever it reports. -/
theorem Driven.drives_commit {s s' : State} {e : Nat} {f : Nat → Drive} (hd : Driven s s' (s.tick + 1) e f)
    (ht : s.TraceHeld) (v : Verdict) (acc : Half) (e' : Nat) : Drives s (commit v acc e' s') f := fun u =>
  (hd.trace (fun w hw => ht w (Nat.le_of_succ_le hw)) u).trans (by simp only [Nat.lt_succ_iff])

/-- The driver at `d` for `n` ticks and then left at `d'`, as RESET_BUS, ATTENTION and SYNC do. -/
theorem transmits_pulse (d d' : Drive) (n : Nat) :
    Transmits [.drive d n, .drive d' 0] n fun p u => if u < p + n then d else d' :=
  (transmits_drive d n).append (transmits_drive d' 0)

/-- A pulse that reports nothing. -/
theorem issue_pulse (d d' : Drive) {n : Nat} {s : State} (hs : s.ReadyUntil (s.tick + 1 + n)) :
    ∃ t, issue [.drive d n, .drive d' 0] .plain 0 s = .next t ∧ Succeeds s t (s.tick + 1 + n) d' s.result ∧
      (s.TraceHeld → Drives s t fun u => if u < s.tick + 1 + n then d else d') := by
  obtain ⟨t, hexec, hsucc, hdrives⟩ := issue_transmits_plain (transmits_pulse d d' n) hs
  rw [if_neg (Nat.lt_irrefl _)] at hsucc
  exact ⟨t, hexec, hsucc, hdrives⟩

/-! ### ATTENTION, SYNC and SEND_COMMAND (R161 to R163) -/

/-- Settles O37: the pulse is LOW, then released. -/
theorem attentionPulse : Obligations.AttentionPulse :=
  ⟨fun _ ho => (Decodes.attention ho).decode_eq, fun _ hs => issue_pulse .low .rel hs⟩

/-- Settles O38: the pulse is a release, and the LOW after it is held. -/
theorem syncEndsLow : Obligations.SyncEndsLow :=
  ⟨fun _ ho => (Decodes.sync ho).decode_eq, fun _ hs => issue_pulse .rel .low hs⟩

/-- After its last cell a command has released the line. -/
theorem commandDrive_after {c : Byte} {p u : Nat} (h : p + commandTicks ≤ u) : commandDrive c p u = .rel := by
  have hcells : p + Config.tAttn + Config.tSync + 9 * cellTicks ≤ u := by
    rwa [commandTicks, ← Nat.add_assoc, ← Nat.add_assoc] at h
  rw [commandDrive, if_neg (by omega), if_neg (by omega), cellsDrive_after hcells]

/-- Settles O39, by `transmits_command`: 1770 ticks are the attention, the sync and nine cells. -/
theorem sendCommandWaveform : Obligations.SendCommandWaveform := by
  refine ⟨fun w ho => (Decodes.sendCommand ho rfl).decode_eq, fun c s e he hs => ?_⟩
  obtain rfl : e = s.tick + 1 + commandTicks := he
  obtain ⟨t, hexec, hsucc, hdrives⟩ := issue_transmits_plain (transmits_command c) hs
  rw [commandDrive_after (Nat.le_refl _)] at hsucc
  exact ⟨t, hexec, hsucc, hdrives⟩

/-! ### TURNAROUND (R164) -/

/-- Once the line is released and the gap is over, what is left of TURNAROUND's script is the poll, or nothing. -/
theorem exec_turnaround {x : Bool} {s : State} (hs : s.ReadyUntil (s.tick + 1 + Config.tTurn)) :
    exec (.turnaround x) s = .next (runPhases (if x then [.poll Config.tPoll] else [])
      { started s .word 0 with phaseStart := s.tick + 1 + Config.tTurn } (s.setDrv (s.tick + 1) .rel)) := by
  obtain ⟨hi, hr, hh⟩ := hs
  have hstart : exec (.turnaround x) s = .next (runPhases (turnaroundPhases x) (started s .word 0) s) :=
    issue_starts hr hi (hostBefore_mono hh (Nat.le_add_right _ _))
  rw [hstart, turnaroundPhases, runPhases_drive hh]
  rfl

/-- With a response expected, it ends with the poll of the released line. -/
theorem exec_turnaround_polls {s : State} {seen : Bool} {e : Nat}
    (hv : PollEnds s.releasedLine (s.tick + 1 + Config.tTurn) seen e) (hs : s.ReadyUntil e) :
    exec (.turnaround true) s =
      .next (commit .word (if seen then 1#16 else 0#16) e (s.setDrv (s.tick + 1) .rel)) := by
  have ⟨_, _, hh⟩ := hs
  have hline : (s.setDrv (s.tick + 1) .rel).lineAt = s.releasedLine := lineAt_eq_releasedLine rfl
  rw [exec_turnaround (hs.mono hv.bounds.1), if_pos rfl]
  rw [← hline] at hv
  rw [runPhases_pollEnds (s := s.setDrv (s.tick + 1) .rel) hv hh]
  rfl

/-- The released line and RESULT, at whatever tick TURNAROUND ends. -/
theorem turnaround_completes {s : State} {e : Nat} (hi : s.seq = .idle) (acc : Half) :
    Succeeds s (commit .word acc e (s.setDrv (s.tick + 1) .rel)) e .rel acc ∧
      (s.TraceHeld → Drives s (commit .word acc e (s.setDrv (s.tick + 1) .rel)) fun _ => .rel) :=
  have hd := Driven.setDrv s .rel (Nat.le_refl (s.tick + 1))
  ⟨hd.succeeds_commit hi (.inr rfl) acc e, fun ht => hd.drives_commit ht .word acc e⟩

/-- Settles O40: without a response expected nothing follows the gap, and with one the poll decides. -/
theorem turnaroundPollsForADevice : Obligations.TurnaroundPollsForADevice := by
  refine ⟨fun w ho => (Decodes.turnaround ho rfl).decode_eq, fun s => ⟨fun hs => ?_, fun seen e hv hs => ?_⟩⟩
  · exact ⟨_, exec_turnaround hs, turnaround_completes hs.1 _⟩
  · exact ⟨_, exec_turnaround_polls hv hs, turnaround_completes hs.1 _⟩

/-! ### RESET_BUS (R160, R36) -/

/-- The completion of RESET_BUS on an idle block, in full. -/
theorem commit_busReset {s : State} (hi : s.seq = .idle) (acc : Half) (e : Nat) : commit .busReset acc e s = { s with
    tick := e, ok := true, bitval := .zero, errkind := .none
    lastReset := s.nowAt e, rstv := true, busResetEnd := some e } := by
  simp [commit, Verdict.ok, Verdict.bitval, Verdict.errkind, Verdict.result, Verdict.failsFrame, hi]

/-- RESET_BUS: its end state and its trace. -/
theorem exec_resetBus {s : State} (hs : s.ReadyUntil (s.tick + 1 + Config.tReset)) :
    ∃ t, exec .resetBus s = .next t ∧
      t = { s with
        tick := s.tick + 1 + Config.tReset, drv := .rel, wave := t.wave, ok := true, bitval := .zero, errkind := .none
        lastReset := s.nowAt (s.tick + 1 + Config.tReset), rstv := true
        busResetEnd := some (s.tick + 1 + Config.tReset) } ∧
      (s.TraceHeld → Drives s t fun u => if u < s.tick + 1 + Config.tReset then .low else .rel) := by
  obtain ⟨s', hexec, hd⟩ := issue_transmits (v := .busReset) (acc := 0) (transmits_pulse .low .rel Config.tReset) hs
  have hdrv : s'.drv = .rel := by rw [← hd.held _ (Nat.le_refl _), if_neg (Nat.lt_irrefl _)]
  have hsame := hd.same
  rw [hdrv] at hsame
  have hcommit := commit_busReset (s := { s with drv := .rel, wave := s'.wave }) hs.1 0 (s.tick + 1 + Config.tReset)
  exact ⟨_, hexec, (congrArg (commit .busReset 0 _) hsame).trans hcommit, fun ht => hd.drives_commit ht _ _ _⟩

/-- LAST_RESET, RSTV and the record of the last bus reset are the same in both states. -/
def SameBusReset (s t : State) : Prop :=
  t.lastReset = s.lastReset ∧ t.rstv = s.rstv ∧ t.busResetEnd = s.busResetEnd

/-- No decoded bit reports a bus reset: a script does so only as its own verdict. -/
theorem ScriptReports.ne_busReset {ps : List Phase} {ending v : Verdict} (he : ending ≠ .busReset)
    (h : ScriptReports ps ending v) : v ≠ .busReset := by
  rcases h with rfl | ⟨role, -, hm⟩
  · exact he
  · cases role with
    | alone => obtain ⟨b, rfl⟩ := hm; simp
    | start | data => cases hm; simp
    | stop => cases hm

theorem issue_sameBusReset {phs : List Phase} {v : Verdict} {acc : Half} {s t : State} (hv : v ≠ .busReset)
    (h : issue phs v acc s = .next t) : SameBusReset s t := by
  rcases issue_cases h with ⟨-, rfl⟩ | ⟨-, -, rfl⟩ | ⟨-, -, rfl⟩
  · exact ⟨rfl, rfl, rfl⟩
  · exact ⟨rfl, rfl, rfl⟩
  · rcases runPhases_cases (.wait 1 :: phs) (accepted s v acc) s with
      ⟨todo, x, d, w, e⟩ | ⟨u, acc', e', d, w, hu, e⟩ <;> rw [e]
    · exact ⟨rfl, rfl, rfl⟩
    · simp [SameBusReset, hu.ne_busReset hv]

theorem reject_sameBusReset {s t : State} (h : reject s = .next t) : SameBusReset s t := by
  rcases reject_cases h with ⟨-, rfl⟩ | ⟨-, rfl⟩ | ⟨-, -, rfl⟩ <;> exact ⟨rfl, rfl, rfl⟩

/-- Of the scripts only that of RESET_BUS ends in a bus reset, and reserved words have none (R36). -/
theorem exec_sameBusReset {i : Instr} {s t : State} (hi : i ≠ .resetBus) (h : exec i s = .next t) :
    SameBusReset s t := by
  cases i with
  | resetBus => exact absurd rfl hi
  | reservedOpc0 | reservedECmdop | reservedFCmdop => exact reject_sameBusReset h
  | lineRelease | lineLow | wait | encodeBit | decodeBit | encodeFrame | attention | sync | sendCommand | listen
  | flush => exact issue_sameBusReset (v := .plain) (by simp) h
  | lineRead | decodeFrame | turnaround | composeTalk | composeListen | composeFlush | talk =>
    exact issue_sameBusReset (v := .word) (by simp) h

/-- Settles O36, by `exec_resetBus` and `exec_sameBusReset`; LAST_RESET's offset is one whose writes the window
ignores. -/
theorem resetBusAndLastReset : Obligations.ResetBusAndLastReset := by
  refine ⟨fun w ho => (Decodes.resetBus ho).decode_eq, fun s e he hs => ?_,
    fun i s t hi h => exec_sameBusReset hi h, rfl, rfl,
    fun s n v rest hn => step_regWrite hn (by decide) (by decide)⟩
  subst he
  exact exec_resetBus hs

end Sys2Proof.Machine
end

section
/-! PROOFS of 45_command.md. First COMPOSE; then the command with its gap, which every transaction begins with, and
the two transactions that only send; last TALK, by what is left of its script after the gap and by the rules of its
frame's outcomes. -/

namespace Sys2Proof.Machine

/-! ### COMPOSE (R191) -/

theorem byteWord_composeByte (op reg : BitVec 2) (addr : BitVec 4) : byteWord (composeByte op addr reg) =
    BitVec.ofNat 16 (addr.toNat * 16 + op.toNat * 4 + reg.toNat) := by
  rw [Nat.add_comm (addr.toNat * 16), ← composeByte_toNat, BitVec.ofNat_toNat, byteWord]

/-- COMPOSE ends in its start tick with the command byte, the driver and its trace untouched. -/
theorem composeResult_completes (op reg : BitVec 2) (addr : BitVec 4) {s : State} (hs : s.ReadyUntil (s.tick + 1)) :
    ∃ t, composeResult op reg addr s = .next t ∧ t.wave = s.wave ∧ Succeeds s t (s.tick + 1) s.drv
      (BitVec.ofNat 16 (addr.toNat * 16 + op.toNat * 4 + reg.toNat)) := by
  obtain ⟨hi, hr, hh⟩ := hs
  rw [← byteWord_composeByte]
  exact ⟨_, issue_starts hr hi hh, rfl, succeeds_commit hi (.inr rfl) _ _⟩

/-- Settles O42, by `composeResult_completes` for each of the three bus operations. -/
theorem composeGivesTheCommandByte : Obligations.ComposeGivesTheCommandByte := by
  refine ⟨fun w ho => (decodes_compose ho).decode_eq, fun reg addr s hs => ?_⟩
  simp only [List.forall_mem_cons, List.not_mem_nil, false_imp_iff, implies_true, and_true]
  exact ⟨composeResult_completes Config.cmdTalk reg addr hs, composeResult_completes Config.cmdListen reg addr hs,
    composeResult_completes Config.cmdFlush reg addr hs⟩

/-! ### The command and its gap (R166, R192 to R194) -/

/-- The ticks of the command and of the turnaround's gap. -/
def transactionTicks : Nat := commandTicks + Config.tTurn

/-- The gap only keeps the line released, as the command left it. -/
theorem transmits_transaction (op reg : BitVec 2) (addr : BitVec 4) :
    Transmits (transactionPhases op reg addr false) transactionTicks (commandDrive (composeByte op addr reg)) := by
  have hgap := transmits_sub _ (transmits_drive .rel Config.tTurn)
  refine ((transmits_command (composeByte op addr reg)).append hgap).congr fun p u _ => ?_
  split_ifs with hu
  · rfl
  · exact (commandDrive_after (Nat.not_lt.1 hu)).symm

/-- Settles O46: the command and its gap are all of FLUSH. -/
theorem flushSendsItsCommand : Obligations.FlushSendsItsCommand := by
  refine ⟨fun w ho hc => (Decodes.flush ho hc rfl rfl).decode_eq, fun reg addr s e he hs => ?_⟩
  obtain rfl : e = s.tick + 1 + transactionTicks := he
  obtain ⟨t, hexec, hsucc, hdrives⟩ := issue_transmits_plain (transmits_transaction Config.cmdFlush reg addr) hs
  rw [commandDrive_after (Nat.add_le_add_left (by decide) _)] at hsucc
  exact ⟨t, hexec, hsucc, hdrives⟩

/-- Settles O45: the frame follows the gap, and after its last cell the line is released. -/
theorem listenWritesARegister : Obligations.ListenWritesARegister := by
  refine ⟨fun w ho hc => (Decodes.listen ho hc rfl rfl rfl).decode_eq, fun reg addr wd s e he hs => ?_⟩
  obtain rfl : e = s.tick + 1 + (transactionTicks + 18 * cellTicks) := he
  obtain ⟨t, hexec, hsucc, hdrives⟩ := issue_transmits_plain
    ((transmits_transaction Config.cmdListen reg addr).append (transmits_frame wd Config.listenLen)) hs
  rw [if_neg (by omega), cellsDrive_after (Nat.add_assoc ..).le] at hsucc
  exact ⟨t, hexec, hsucc, hdrives⟩

/-! ### After the command and its gap -/

/-- The part of a script that only drives runs to its end, and what follows goes on from there. -/
theorem issue_transmits_append {phs ps : List Phase} {n : Nat} {f : Nat → Nat → Drive} (h : Transmits phs n f)
    {v : Verdict} {acc : Half} {s : State} (hs : s.ReadyUntil (s.tick + 1 + n)) :
    ∃ i u s', issue (phs ++ ps) v acc s = .next (runPhases ps
        { started s v acc with index := i, subStart := u, phaseStart := s.tick + 1 + n } s') ∧
      Driven s s' (s.tick + 1) (s.tick + 1 + n) (f (s.tick + 1)) := by
  obtain ⟨hi, hr, hh⟩ := hs
  obtain ⟨i, u, s', hrun, hd⟩ := h ps (started s v acc) s hh
  exact ⟨i, u, s', (issue_starts hr hi (hostBefore_mono hh (Nat.le_add_right _ _))).trans (congrArg _ hrun), hd⟩

/-- From `s` to `s'` the block sent the command `c` and its gap, and nothing after it. -/
def SentCommand (s s' : State) (c : Byte) : Prop :=
  Driven s s' (s.tick + 1) (s.tick + 1 + transactionTicks) (commandDrive c (s.tick + 1))

namespace SentCommand

variable {s s' : State} {c : Byte}

theorem drv_eq (h : SentCommand s s' c) : s'.drv = .rel :=
  (h.held _ (Nat.le_refl _)).symm.trans (commandDrive_after (Nat.add_le_add_left (by decide) _))

/-- The devices alone make the line. -/
theorem lineAt_eq (h : SentCommand s s' c) : s'.lineAt = s.releasedLine := by
  have hdev : s'.dev = s.dev := (congrArg State.dev h.same :)
  rw [lineAt_eq_releasedLine h.drv_eq]
  funext u
  rw [State.releasedLine, State.releasedLine, hdev]

theorem hostBefore_eq_false (h : SentCommand s s' c) {e : Nat} (hs : s.ReadyUntil e) : s'.hostBefore e = false := by
  obtain ⟨-, -, hh⟩ := hs
  have hhost : s'.host = s.host := (congrArg State.host h.same :)
  exact (hostBefore_congr hhost e).trans hh

/-- A frame that is read after it. -/
theorem succeeds_commit (h : SentCommand s s' c) (hi : s.seq = .idle) (acc : Half) (e : Nat) :
    Succeeds s (commit .word acc e s') e .rel acc := by
  rw [← h.drv_eq]
  exact Driven.succeeds_commit h hi (.inr rfl) acc e

/-- A frame that fails after it. -/
theorem failsFrame_commit (h : SentCommand s s' c) (hi : s.seq = .idle) {v : Verdict}
    (hv : v = .noStart ∨ v = .dataTimeout) (acc : Half) (e : Nat) :
    FailsFrame s (commit v acc e s') e .rel v.errkind := by
  rw [← h.drv_eq]
  exact (congrArg (commit v acc e) h.same).trans
    (Machine.failsFrame_commit (s := { s with drv := s'.drv, wave := s'.wave }) hi hv acc e)

end SentCommand

/-! ### TALK (R192) -/

section

variable (reg : BitVec 2) (addr : BitVec 4) {s : State} {seen : Bool} {d e : Nat}

/-- From the poll's end tick `d` on, what is left of TALK's script is the frame, on a released line. -/
theorem exec_talk_polls (hp : PollEnds s.releasedLine (s.tick + 1 + transactionTicks) seen d) (hs : s.ReadyUntil d) :
    ∃ x s', exec (.talk reg addr) s = .next (runPhases (decodeFramePhases 16) x s') ∧
      x.phaseStart = d ∧ x.low = none ∧ x.ending = .word ∧
      SentCommand s s' (composeByte Config.cmdTalk addr reg) := by
  obtain ⟨i, u, s', hexec, hd⟩ := issue_transmits_append (v := .word) (acc := 0)
    (ps := .poll Config.tPoll :: decodeFramePhases 16) (transmits_transaction Config.cmdTalk reg addr)
    (hs.mono hp.bounds.1)
  have hsent : SentCommand s s' (composeByte Config.cmdTalk addr reg) := hd
  rw [← hsent.lineAt_eq] at hp
  rw [runPhases_pollEnds hp (hsent.hostBefore_eq_false hs)] at hexec
  exact ⟨_, s', hexec, rfl, rfl, rfl, hsent⟩

variable (hp : PollEnds s.releasedLine (s.tick + 1 + transactionTicks) seen d) (hs : s.ReadyUntil e)

include hp hs

/-- TALK ends with the word that the line reads as. -/
theorem exec_talk_reads {wd : Nat} (hv : ReadsFrame s.releasedLine d 16 wd e) :
    ∃ s', exec (.talk reg addr) s = .next (commit .word (BitVec.ofNat 16 wd) e s') ∧
      SentCommand s s' (composeByte Config.cmdTalk addr reg) := by
  obtain ⟨x, s', hexec, rfl, hlow, hending, hsent⟩ := exec_talk_polls reg addr hp (hs.mono hv.bound.1.le)
  rw [← hsent.lineAt_eq] at hv
  rw [runPhases_readsFrame hv hlow (hsent.hostBefore_eq_false hs), hending] at hexec
  exact ⟨s', hexec, hsent⟩

/-- It ends with the start bit when that is not 1. -/
theorem exec_talk_noStart (hv : NoStart s.releasedLine d e) :
    ∃ acc s', exec (.talk reg addr) s = .next (commit .noStart acc e s') ∧
      SentCommand s s' (composeByte Config.cmdTalk addr reg) := by
  obtain ⟨x, s', hexec, rfl, hlow, -, hsent⟩ := exec_talk_polls reg addr hp (hs.mono hv.bound.1.le)
  rw [← hsent.lineAt_eq] at hv
  rw [runPhases_noStart hv hlow (hsent.hostBefore_eq_false hs)] at hexec
  exact ⟨x.acc, s', hexec, hsent⟩

/-- It ends with the first data bit that is ERROR. -/
theorem exec_talk_dataTimeout (hv : DataTimeout s.releasedLine d 16 e) :
    ∃ acc s', exec (.talk reg addr) s = .next (commit .dataTimeout acc e s') ∧
      SentCommand s s' (composeByte Config.cmdTalk addr reg) := by
  obtain ⟨x, s', hexec, rfl, hlow, -, hsent⟩ := exec_talk_polls reg addr hp (hs.mono hv.bound.1.le)
  rw [← hsent.lineAt_eq] at hv
  obtain ⟨acc, hrun⟩ := runPhases_dataTimeout hv hlow (hsent.hostBefore_eq_false hs)
  exact ⟨acc, s', hexec.trans (congrArg _ hrun), hsent⟩

end

/-- Settles O43, by the rules of a reply that is read, one with no start bit, and one with a data bit that times out. -/
theorem talkReadsARegister : Obligations.TalkReadsARegister := by
  refine ⟨fun w ho hc => (Decodes.talk ho hc rfl rfl).decode_eq, fun reg addr s seen d wd e hp hs => ?_⟩
  have hp : PollEnds s.releasedLine (s.tick + 1 + transactionTicks) seen d := hp
  refine ⟨fun hv => ?_, fun hv => ?_, fun hv => ?_⟩
  · obtain ⟨s', hexec, hsent⟩ := exec_talk_reads reg addr hp hs hv
    exact ⟨_, hexec, hsent.succeeds_commit hs.1 _ e, Nat.mod_eq_of_lt hv.word_lt,
      fun ht => hsent.drives_commit ht _ _ e⟩
  · obtain ⟨acc, s', hexec, hsent⟩ := exec_talk_noStart reg addr hp hs hv
    exact ⟨_, hexec, hsent.failsFrame_commit hs.1 (.inl rfl) acc e, fun ht => hsent.drives_commit ht _ acc e⟩
  · obtain ⟨acc, s', hexec, hsent⟩ := exec_talk_dataTimeout reg addr hp hs hv
    exact ⟨_, hexec, hsent.failsFrame_commit hs.1 (.inr rfl) acc e, fun ht => hsent.drives_commit ht _ acc e⟩

/-- Settles O44: the poll sees no LOW sample and ends after `T_POLL`, and the start bit's high phase times out. -/
theorem absentDeviceGivesNoStart : Obligations.AbsentDeviceGivesNoStart := by
  intro reg addr s hsilent hs
  have htick : transactionTicks = 1910 ∧ Config.tPoll = 240 ∧ Config.maxWait = 85 := ⟨rfl, rfl, rfl⟩
  have hhigh : ∀ u, s.tick + 1 + 1910 ≤ u → u ≤ s.tick + 1 + 2235 → s.releasedLine u = .high := by
    intro u hu hu'
    rw [State.releasedLine, hsilent u hu hu']
    rfl
  have hpoll : PollEnds s.releasedLine (s.tick + 1 + transactionTicks) false
      (s.tick + 1 + transactionTicks + Config.tPoll) :=
    .inr ⟨fun j hj => hhigh _ (by omega) (by omega), rfl, rfl⟩
  have hstuck : NoStart s.releasedLine (s.tick + 1 + transactionTicks + Config.tPoll) (s.tick + 1 + 2235) :=
    ⟨.error, by decide, readsBit_of_stuck fun j hj =>
      (hhigh _ (by omega) (by omega)).trans (hhigh _ (by omega) (by omega)).symm⟩
  obtain ⟨acc, s', hexec, hsent⟩ := exec_talk_noStart reg addr hpoll hs hstuck
  exact ⟨_, hexec, hsent.failsFrame_commit hs.1 (.inl rfl) acc _⟩

end Sys2Proof.Machine
end

section
/-! PROOFS of 49_host_protocol.md, about host software above the block. First the masked merge; then the register-3 update:
what an answer `true` has verified, and how it fails on its first read when no device answers. -/

namespace Sys2Proof.Machine

/-! ### The masked merge (R212) -/

/-- A bit of the merge is chosen by the mask. -/
theorem getLsbD_mergeMasked {cur nv m : Half} {i : Nat} (hi : i < 16) :
    (mergeMasked cur nv m).getLsbD i = if m.getLsbD i then nv.getLsbD i else cur.getLsbD i := by
  simp only [mergeMasked, BitVec.getLsbD_or, BitVec.getLsbD_and, BitVec.getLsbD_not, hi, decide_true, Bool.true_and]
  cases m.getLsbD i <;> simp

/-- Settles O59, by `getLsbD_mergeMasked` for each value of the mask's bit. -/
theorem maskedMergePreservesOtherBits : Obligations.MaskedMergePreservesOtherBits := by
  intro cur nv m i hi
  rw [getLsbD_mergeMasked hi]
  exact ⟨fun hm => by simp [hm], fun hm => by simp [hm]⟩

/-! ### An update that answers true (R211, R213, R214) -/

/-- The answer is true only if the last read, `TALK a, 3`, succeeded with a word that passes the verification. -/
theorem updateRegister3_true {gap : Nat → Nat} {a : BitVec 4} {nv m : Half} {s t : State}
    (h : updateRegister3 gap a nv m s = .next (t, true)) :
    ∃ u, readRegister3 (gap 4) a u = .next t ∧ t.ok = true ∧ verifyMasked t.result nv m = true := by
  obtain ⟨s1, -, h⟩ := chain_next h
  split at h
  · obtain ⟨s2, -, h⟩ := chain_next h
    obtain ⟨s3, -, h⟩ := chain_next h
    obtain ⟨s4, -, h⟩ := chain_next h
    obtain ⟨s5, hread, h⟩ := chain_next h
    simp only [Host.Outcome.next.injEq, Prod.mk.injEq, Bool.and_eq_true] at h
    obtain ⟨rfl, hok, hverify⟩ := h
    exact ⟨s4, hread, hok, hverify⟩
  · cases h

theorem verifyMasked_iff (rr nv m : Half) : verifyMasked rr nv m = true ↔ rr &&& m = nv &&& m :=
  beq_iff_eq

/-! ### An update with no device (R211, R214) -/

/-- Each field of a packed word is what was packed there (R71). -/
theorem fields_pack (o : BitVec 4) (c r : BitVec 2) (a l : BitVec 4) (imm : BitVec 16) :
    opc (pack o c r a l imm) = o ∧ cmdop (pack o c r a l imm) = c ∧ regField (pack o c r a l imm) = r ∧
      addrField (pack o c r a l imm) = a ∧ lenm1Field (pack o c r a l imm) = l ∧ imm16 (pack o c r a l imm) = imm := by
  refine ⟨?_, ?_, ?_, ?_, ?_, ?_⟩ <;> ext k hk <;> interval_cases k <;>
    simp [pack, place, opc, cmdop, regField, addrField, lenm1Field, imm16]

/-- The word the host writes for TALK is that TALK (R76). -/
theorem decode_encode_talk (reg : BitVec 2) (addr : BitVec 4) :
    decode (encode (.talk reg addr)) = .talk reg addr := by
  obtain ⟨ho, hc, hr, ha, -⟩ := fields_pack 0xF#4 Config.cmdTalk reg addr 0 0
  exact Decodes.decode_eq (.talk ho hc hr ha)

/-- A first read that fails ends the update. -/
theorem updateRegister3_readFails {gap : Nat → Nat} {a : BitVec 4} {nv m : Half} {s t : State}
    (h : readRegister3 (gap 0) a s = .next t) (hok : t.ok = false) :
    updateRegister3 gap a nv m s = .next (t, false) := by
  simp [updateRegister3, h, chain, hok]

/-- With no device the read of register 3 ends with NO_START, `gap` ticks later than TALK alone does. -/
theorem readRegister3_absent {gap : Nat} {a : BitVec 4} {s : State}
    (hsilent : ∀ u, s.tick + gap + 1 + 1910 ≤ u → u ≤ s.tick + gap + 1 + 2235 → devLow s.dev u = false)
    (hs : s.ReadyUntil (s.tick + gap + 1 + 2235)) :
    ∃ t, readRegister3 gap a s = .next t ∧
      FailsFrame { s with tick := s.tick + gap, opword := encode (.talk 3#2 a) } t (s.tick + gap + 1 + 2235) .rel
        .noStart := by
  obtain ⟨t, hexec, hfails⟩ := absentDeviceGivesNoStart 3#2 a
    { s with tick := s.tick + gap, opword := encode (.talk 3#2 a) } hsilent hs
  obtain ⟨hi, hr, hh⟩ := hs
  have hidle : t.seq = .idle := (congrArg State.seq hfails).trans hi
  exact ⟨t, hostIssue_completes rfl (decode_encode_talk 3#2 a) hi hr
    (hostBefore_mono hh (Nat.le_add_right _ _)) hexec hidle, hfails⟩

/-- Settles O60, by what an answer `true` has verified, and by the read that no device answers. -/
theorem updateRegister3FailsFastOrVerifies : Obligations.UpdateRegister3FailsFastOrVerifies := by
  refine ⟨fun gap a nv m s t h => ?_, fun gap a nv m s p hp hsilent hs => ?_⟩
  · obtain ⟨u, hread, hok, hverify⟩ := updateRegister3_true h
    exact ⟨hostIssue_idle hread, hok, (verifyMasked_iff _ _ _).1 hverify⟩
  · subst hp
    obtain ⟨t, hread, hfails⟩ := readRegister3_absent (a := a) hsilent hs
    exact ⟨t, updateRegister3_readFails hread (congrArg State.ok hfails), congrArg State.tick hfails,
      congrArg State.errkind hfails, congrArg State.opword hfails, (congrArg State.host hfails :)⟩

end Sys2Proof.Machine
end

section
/-! PROOFS of 60_exceptions.md. First the two host errors of an idle and of a running block; then that host accesses do not
disturb a running operation: where an access stops the run, and when it is taken, what is left leads to the same end. -/

namespace Sys2Proof.Machine

/-! ### Host errors (R232, R233) -/

/-- Settles O47: a reserved encoding is rejected, which flags ILL on an idle block. -/
theorem reservedEncodingsOnlyFlagIll : Obligations.ReservedEncodingsOnlyFlagIll := by
  intro i s hw hi hr
  exact (exec_rejects i hw s).trans (reject_idle hr hi)

/-- Settles O18: the write that comes next finds BUSY and flags OVR before its word is decoded. -/
theorem overlapIsDropped : Obligations.OverlapIsDropped := by
  intro s x n w rest hn hx hr
  have hp : perform (.access (.write .word 0#5 w)) { s with host := rest } =
      .advance (State.flagOvr { s with host := rest }) := by
    simp [perform, hostAccess, aligned, hostWrite, hr, State.busy, hx]
  exact ⟨_, step_of_perform hn hp, List.cons_ne_nil _ _, rfl⟩

/-! ### What a host access cannot change of a running block (R235) -/

/-- The state with an empty schedule, and with nothing of what the accesses to a running block may change. -/
def State.withoutHost (s : State) : State :=
  { s with host := [], ovr := false, ill := false, reads := [], errors := [] }

theorem eq_of_withoutHost {u t : State} (h : u.withoutHost = t.withoutHost) :
    u = { t with host := u.host, ovr := u.ovr, ill := u.ill, reads := u.reads, errors := u.errors } := by
  calc u = { u.withoutHost with host := u.host, ovr := u.ovr, ill := u.ill, reads := u.reads, errors := u.errors } := rfl
    _ = _ := by rw [h]; rfl

theorem runPhases_host (ps : List Phase) (x : Exec) (s : State) : (runPhases ps x s).host = s.host :=
  runPhases_keeps (P := fun u => u.host = s.host) (by simp) (by simp) (by simp) ps x s rfl

theorem runPhases_withoutHost (ps : List Phase) (x : Exec) (s : State) :
    runPhases ps x s.withoutHost = (runPhases ps x { s with host := [] }).withoutHost := by
  have hhost : (runPhases ps x { s with host := [] }).host = [] := runPhases_host ps x { s with host := [] }
  refine (runPhases_records false false [] [] ps x { s with host := [] }).trans ?_
  simp [State.withoutHost, hhost]

/-- A run that a host event stopped has a phase left. -/
theorem runPhases_todo_ne_nil {ps : List Phase} {x y : Exec} {s : State} (h : (runPhases ps x s).seq = .exec y) :
    y.todo ≠ [] := by
  induction ps generalizing x s with
  | nil => cases h
  | cons p ps ih =>
    by_cases hh : s.hostBefore (phaseEnd p x (beginPhase p x s)) = true
    · rw [runPhases_parks hh] at h
      cases h
      exact List.cons_ne_nil p ps
    · rw [runPhases_cons (by simpa using hh)] at h
      split at h
      · cases h
      · exact ih h

theorem State.SameOutputs.refl (s : State) : s.SameOutputs s := ⟨rfl, rfl, rfl, rfl, rfl, rfl, rfl⟩

theorem State.SameOutputs.trans {s s' t : State} (h : s.SameOutputs s') (h' : s'.SameOutputs t) : s.SameOutputs t := by
  obtain ⟨hopword, hok, hbitval, herrkind, hresult, hreset, hrstv⟩ := h
  rwa [State.SameOutputs, ← hopword, ← hok, ← hbitval, ← herrkind, ← hresult, ← hreset, ← hrstv]

/-- A run that a host event stopped has changed no output (R41). -/
theorem runPhases_sameOutputs {ps : List Phase} {x : Exec} {s : State} (h : (runPhases ps x s).busy = true) :
    s.SameOutputs (runPhases ps x s) := by
  obtain ⟨todo, y, _, hpark, d, w, rfl⟩ := runPhases_busy h
  rw [hpark]
  exact .refl s

/-! ### A running operation and the end it leads to -/

/-- The operation `x` runs out of reset, and without the host it would lead to `t`, which is still to come. -/
structure RunsTo (x : Exec) (s t : State) : Prop where
  seq_eq : s.seq = .exec x
  notReset : s.inReset = false
  todo_ne : x.todo ≠ []
  lt : s.tick < t.tick
  ends : runPhases x.todo x s.withoutHost = t.withoutHost

theorem RunsTo.busy_eq {x : Exec} {s t : State} (h : RunsTo x s t) : s.busy = true := by
  simp [State.busy, h.seq_eq]

section
variable {ps : List Phase} {x : Exec} {s t : State} (ht : runPhases ps x s.withoutHost = t.withoutHost)
include ht

/-- With no host event before `t`, a run that leads to `t` without the host ends as `t` (R61). -/
theorem runPhases_reaches (hh : s.hostBefore t.tick = false) :
    (runPhases ps x s).withoutHost = t.withoutHost := by
  rw [runPhases_withoutHost] at ht
  have htick : (runPhases ps x { s with host := [] }).tick = t.tick := (congrArg State.tick ht :)
  have hrun := runPhases_undisturbed (ps := ps) (x := x) (s := { s with host := [] }) s.host rfl
    (by rw [htick]; exact hh)
  calc (runPhases ps x s).withoutHost = (runPhases ps x { s with host := [] }).withoutHost :=
        (congrArg State.withoutHost hrun).trans rfl
    _ = t.withoutHost := ht

/-- With a host event before `t` it stops there, and still leads to `t` (R235). -/
theorem runPhases_runsTo {ev : HostEvent} {rest : List HostEvent} (hps : ps ≠ []) (hr : s.inReset = false)
    (hlt : s.tick < t.tick) (hh : s.host = ev :: rest) (hev : ev.tick < t.tick) :
    ∃ y, RunsTo y (runPhases ps x s) t ∧ (runPhases ps x s).tick = max s.tick ev.tick := by
  rw [runPhases_withoutHost] at ht
  have htick : (runPhases ps x { s with host := [] }).tick = t.tick := (congrArg State.tick ht :)
  obtain ⟨todo, y, s', hpark, hnil, hs', hr', hrest⟩ := runPhases_interrupted (s := { s with host := [] }) ev rest rfl
    (.inl hps) (by rw [htick]; exact hev)
  have hrun : runPhases ps x s = park todo y { s' with host := ev :: rest } := by rw [← hpark, ← hh]
  have hmax : (runPhases ps x s).tick = max s.tick ev.tick := by
    rw [hrun, ← show s'.tick = s.tick from hs']
    rfl
  have hseq : (runPhases ps x s).seq = .exec { y with todo := todo } := by rw [hrun]; rfl
  refine ⟨{ y with todo := todo }, ⟨hseq, ?_, runPhases_todo_ne_nil hseq, by rw [hmax]; omega, ?_⟩, hmax⟩
  · rw [hrun]
    exact hr'.trans hr
  · rw [runPhases_withoutHost, runPhases_todo, ← ht]
    congr 1
    calc runPhases todo y { runPhases ps x s with host := [] }
      _ = runPhases todo y { s' with tick := max s'.tick ev.tick, seq := .exec { y with todo := todo } } := by
          rw [hrun, ← hnil]; rfl
      _ = runPhases todo y s' := runPhases_resumed _ _ hnil
      _ = runPhases ps x { s with host := [] } := hrest

end

/-! ### Steps to the end -/

/-- `t` is reached, but for what the host may change. -/
theorem EndsAs.here {u t : State} (h : u.withoutHost = t.withoutHost) : EndsAs u t u.host :=
  ⟨0, u, rfl, eq_of_withoutHost h, fun j hj => absurd hj (Nat.not_lt_zero j)⟩

/-- One step more, which changes no output unless it is the last. -/
theorem EndsAs.of_step {s s' t : State} {rest : List HostEvent} (hb : s.busy = true) (hs : step s = .next s')
    (ho : s'.busy = true → s.SameOutputs s') (h : EndsAs s' t rest) : EndsAs s t rest := by
  obtain ⟨k, u, hk, hu, hv⟩ := h
  have hstep : ∀ j, stepN (j + 1) s = stepN j s' := fun j => by rw [stepN, hs, chain]
  refine ⟨k + 1, u, (hstep k).trans hk, hu, fun j hj => ?_⟩
  cases j with
  | zero => exact ⟨s, rfl, hb, .refl s⟩
  | succ j =>
    have hb' : s'.busy = true := by
      obtain ⟨v, h0, hb', -⟩ := hv 0 (by omega)
      cases h0
      exact hb'
    obtain ⟨v, hj', hbv, hov⟩ := hv j (by omega)
    exact ⟨v, (hstep j).trans hj', hbv, (ho hb').trans hov⟩

/-! ### Accesses before the end -/

theorem AccessesBefore.tail {e : Nat} {ev : HostEvent} {now rest : List HostEvent}
    (h : AccessesBefore e (ev :: now) rest) : AccessesBefore e now rest :=
  ⟨fun e he => h.1 e (List.mem_cons_of_mem ev he), h.2⟩

theorem AccessesBefore.rest_notBefore {s : State} {e : Nat} {now : List HostEvent} (h : AccessesBefore e now s.host) :
    s.hostBefore e = false := by
  unfold State.hostBefore
  cases hh : s.host with
  | nil => rfl
  | cons ev rest => simpa using h.2 ev (by simp [hh])

/-- Before the end, no edge of the reset input is due. -/
theorem AccessesBefore.due {s : State} {e : Nat} {now rest : List HostEvent} (h : AccessesBefore e now rest)
    (hlt : s.tick < e) (hh : s.host = now ++ rest) : ∀ ev ∈ s.dueEvents, ev.event.isEdge = false := by
  obtain ⟨hnow, hrest⟩ := h
  have hlater : rest.takeWhile (·.tick ≤ s.tick) = [] := by
    cases rest with
    | nil => rfl
    | cons ev rest =>
      have := hrest ev rfl
      simp [Nat.lt_of_lt_of_le hlt this]
  intro ev hev
  have hmem : ev ∈ now := by
    rw [State.dueEvents, hh, List.takeWhile_append, hlater, List.append_nil] at hev
    split at hev
    · exact hev
    · exact (List.takeWhile_sublist _).subset hev
  obtain ⟨-, a, -, ha⟩ := hnow ev hmem
  rw [ha]
  rfl

/-- A due access is taken, and the operation still leads to `t` (R233, R235). -/
theorem RunsTo.step_access {x : Exec} {s t : State} {ev : HostEvent} {now rest : List HostEvent} (h : RunsTo x s t)
    (ha : AccessesBefore t.tick (ev :: now) rest) (hh : s.host = ev :: now ++ rest) (hd : ev.tick ≤ s.tick) :
    ∃ s', step s = .next s' ∧ RunsTo x s' t ∧ s'.host = now ++ rest ∧ s.SameOutputs s' := by
  obtain ⟨-, a, hlegal, hev⟩ := ha.1 ev List.mem_cons_self
  have hn : s.nextEvent = some (ev, now ++ rest) :=
    nextEvent_head hh hd fun e he => (ha.due h.lt hh e he).trans h.notReset.symm
  obtain ⟨o, l, r, e, hacc⟩ := hostAccess_busy hlegal (s := { s with host := now ++ rest }) h.notReset h.busy_eq
  exact ⟨{ s with host := now ++ rest, ovr := o, ill := l, reads := r, errors := e },
    step_of_perform hn (by rw [hev]; exact hacc), ⟨h.seq_eq, h.notReset, h.todo_ne, h.lt, h.ends⟩, rfl,
    .refl s⟩

/-- Accesses before its end do not keep a running operation from ending as `t`: each is reached and taken. -/
theorem RunsTo.endsAs {x : Exec} {s t : State} {now rest : List HostEvent} (h : RunsTo x s t)
    (ha : AccessesBefore t.tick now rest) (hh : s.host = now ++ rest) : EndsAs s t rest := by
  induction now generalizing x s with
  | nil =>
    obtain rfl : s.host = rest := hh
    have hdue : ∀ ev l, s.host = ev :: l → s.tick < ev.tick := fun ev l hl =>
      Nat.lt_of_lt_of_le h.lt (ha.2 ev (by simp [hl]))
    refine .of_step h.busy_eq (step_running h.seq_eq hdue) runPhases_sameOutputs ?_
    rw [← runPhases_host x.todo x s]
    exact .here (runPhases_reaches h.ends ha.rest_notBefore)
  | cons ev now ih =>
    have taken : ∀ {y : Exec} {u : State}, RunsTo y u t → u.host = ev :: now ++ rest → ev.tick ≤ u.tick →
        EndsAs u t rest := fun hu hhu hd => by
      obtain ⟨u', hstep, hu', hhu', ho⟩ := hu.step_access ha hhu hd
      exact .of_step hu.busy_eq hstep (fun _ => ho) (ih hu' ha.tail hhu')
    by_cases hd : ev.tick ≤ s.tick
    · exact taken h hh hd
    · have hdue : ∀ e l, s.host = e :: l → s.tick < e.tick := fun e l hl => by
        cases hh.symm.trans hl
        exact Nat.lt_of_not_le hd
      obtain ⟨y, hy, htick⟩ := runPhases_runsTo h.ends h.todo_ne h.notReset h.lt hh (ha.1 ev List.mem_cons_self).1
      exact .of_step h.busy_eq (step_running h.seq_eq hdue) runPhases_sameOutputs
        (taken hy ((runPhases_host _ _ _).trans hh) (by omega))

/-- A running block's operation leads to where its next step would end without the host. -/
theorem runsTo_of_step {x : Exec} {s t : State} (hinv : s.Inv) (hx : s.seq = .exec x)
    (h : step { s with host := [] } = .next t) : RunsTo x s t ∧ t.seq = .idle := by
  rw [step_running (s := { s with host := [] }) hx (by simp)] at h
  cases h
  obtain ⟨p, ps, htodo, -⟩ := hinv.phaseRuns x hx
  have hempty : State.Inv { s with host := [] } := Inv_withHost hinv (by simp [State.dueEvents])
  exact ⟨⟨hx, Inv_notInReset hinv hx, by simp [htodo], running_endsLater hempty hx rfl, runPhases_withoutHost _ _ _⟩,
    (runPhases_ends rfl).1⟩

/-- An operation just issued ends as `t` too: at once, or from where the first access stops it. -/
theorem exec_endsAs {i : Instr} {s t : State} {now rest : List HostEvent} (hw : i.wf = true) (hi : s.seq = .idle)
    (hr : s.inReset = false) (hh : s.host = now ++ rest) (h : exec i { s with host := [] } = .next t)
    (ha : AccessesBefore t.tick now rest) : t.seq = .idle ∧ ∃ s1, exec i s = .next s1 ∧ EndsAs s1 t rest := by
  obtain ⟨phs, v, acc, hf⟩ := exec_issues i hw
  rw [hf, issue_ready (s := { s with host := [] }) hr hi] at h
  have ht : runPhases (.wait 1 :: phs) (accepted s v acc) { s with host := [] } = t := by cases h; rfl
  have hends : runPhases (.wait 1 :: phs) (accepted s v acc) s.withoutHost = t.withoutHost := by
    rw [runPhases_withoutHost, ht]
  refine ⟨by rw [← ht]; exact (runPhases_ends rfl).1, _, (hf s).trans (issue_ready hr hi), ?_⟩
  cases now with
  | nil =>
    obtain rfl : s.host = rest := hh
    have hreach := runPhases_reaches hends ha.rest_notBefore
    rw [← runPhases_host (.wait 1 :: phs) (accepted s v acc) s]
    exact .here hreach
  | cons ev now =>
    have hlater : s.tick < t.tick := by
      rw [← ht, runPhases_wait rfl]
      exact (runPhases_ends (x := started s v acc) rfl).2
    obtain ⟨y, hy, -⟩ := runPhases_runsTo hends (List.cons_ne_nil _ _) hr hlater hh (ha.1 ev List.mem_cons_self).1
    exact hy.endsAs ha ((runPhases_host _ _ _).trans hh)

/-- Settles O53: running by `RunsTo.endsAs`, just issued by `exec_endsAs`. -/
theorem hostAccessesDoNotDisturb : Obligations.HostAccessesDoNotDisturb := by
  refine ⟨fun s t x now rest hinv hx hh h ha => ?_, fun i s t now rest hw _ hi hr hh h ha => exec_endsAs hw hi hr hh h ha⟩
  obtain ⟨hrun, hidle⟩ := runsTo_of_step hinv hx h
  exact ⟨hidle, hrun.endsAs ha hh⟩

end Sys2Proof.Machine
end

section
/-! PROOFS of 70_reset_and_hazards.md. First the release of the reset input; then the two hazards, each by the operations
that make it; last the bound of every operation, which is the bound of the script it issues. -/

namespace Sys2Proof.Machine

/-! ### The release of the reset input (R250) -/

/-- The first tick out of reset is the block's tick 0. -/
theorem now_releaseReset {s : State} (hr : s.inReset = true) : s.releaseReset.now = 0#32 := by
  simp [State.now, State.nowAt, hr]

/-- Settles O56: the tick and NOW by `releaseReset`, and the access before the edges of its tick by `nextEvent_first`. -/
theorem releasedBlockStartsAtTickZero : Obligations.ReleasedBlockStartsAtTickZero := by
  refine ⟨fun s n rest hn hr => ?_, fun s edges n a rest hr hh hd he => ?_⟩
  · refine ⟨_, step_of_perform hn rfl, now_releaseReset hr, ?_⟩
    simp [State.releaseReset, hr]
  · refine nextEvent_first hh (fun e hmem => ?_) hd (by simp [Event.isEdge, hr])
    obtain ⟨hdue, hev | hev⟩ := he e hmem <;> exact ⟨hdue, by simp [hev, Event.isEdge, hr]⟩

/-! ### Decoding while driving (R260) -/

/-- A driver that is LOW makes the line stuck, and a bit of it times out. -/
theorem readsBit_of_low {s : State} (h : s.drv = .low) (p : Nat) :
    ReadsBit s.lineAt p .error (p + Config.maxWait) :=
  readsBit_of_stuck fun _ _ => (lineAt_of_low h _).trans (lineAt_of_low h _).symm

/-- Settles O31: the one bit of DECODE_BIT, and the start bit of DECODE_FRAME, time out. -/
theorem decodingWhileDrivingFails : Obligations.DecodingWhileDrivingFails := by
  intro s lenm1 hlow hs
  have hbit := readsBit_of_low hlow (s.tick + 1)
  have hfails := failsFrame_commit hs.1 (.inl rfl) 0 (s.tick + 1 + Config.maxWait)
  rw [hlow] at hfails
  exact ⟨⟨_, exec_decodeBit hbit hs, rfl, rfl, rfl⟩,
    ⟨_, exec_decodeFrame_noStart ⟨.error, by decide, hbit⟩ hs, hfails⟩⟩

/-! ### SYNC issued alone (R255) -/

/-- After an operation that succeeded, at any later tick, the block can take a word as it could before. -/
theorem Succeeds.readyUntil_at {s t : State} {e e' : Nat} {d : Drive} {r : Half} (h : Succeeds s t e d r)
    (hs : s.ReadyUntil e') (q : Nat) : State.ReadyUntil { t with tick := q } e' := by
  obtain ⟨hi, hr, hh⟩ := hs
  have hseq : t.seq = s.seq := (congrArg State.seq h :)
  have hreset : t.inReset = s.inReset := (congrArg State.inReset h :)
  have hhost : t.host = s.host := (congrArg State.host h :)
  exact ⟨hseq.trans hi, hreset.trans hr, (hostBefore_congr hhost e').trans hh⟩

/-- Settles O41: SYNC leaves the driver LOW from `p` on, and the cell's own low phase goes on from that. -/
theorem syncAloneLengthensTheNextCell : Obligations.SyncAloneLengthensTheNextCell := by
  intro b s p q g hp hpq hg htrace hs
  obtain ⟨-, hsyncRule⟩ := syncEndsLow
  obtain ⟨-, hcellRule⟩ := encodeBitSendsOneCell
  obtain ⟨s1, hsync, hsucc, hdrives⟩ := hsyncRule s (hs.mono (by omega))
  rw [← hp] at hsucc hdrives
  have hdrv : s1.drv = .low := congrArg State.drv hsucc
  have htrace1 : ∀ u, s.tick < u → s1.drvAt u = if u < p then .rel else .low := fun u hu =>
    (hdrives htrace u).trans (if_neg (Nat.not_le.2 hu))
  have hlow : ∀ u, p ≤ u → s1.drvAt u = .low := fun u hu => by
    rw [htrace1 u (by omega), if_neg (Nat.not_lt.2 hu)]
  have hheld : State.TraceHeld { s1 with tick := q } := fun u hu => (hlow u (hpq.trans hu)).trans hdrv.symm
  obtain ⟨t, hcell, -, hcellDrives⟩ := hcellRule b { s1 with tick := q } (hsucc.readyUntil_at hs q)
  have htrace2 : ∀ u, t.drvAt u = if u ≤ q then s1.drvAt u else if u < q + 1 + cellLow b then .low else .rel :=
    hcellDrives hheld
  refine ⟨s1, t, hsync, congrArg State.tick hsucc, hcell, fun u hu hup => ?_, fun u hu hup => ?_, fun u hu => ?_⟩
  · rw [htrace2 u, if_pos (by omega), htrace1 u hu, if_pos hup]
  · rw [htrace2 u, hlow u hu, if_pos (by omega : u < q + 1 + cellLow b), ite_self]
  · rw [htrace2 u, if_neg (by omega), if_neg (by omega)]

/-! ### How long the scripts last (R263) -/

@[simp] theorem scriptBound_nil : scriptBound [] = 0 := rfl

@[simp] theorem scriptBound_cons (p : Phase) (ps : List Phase) :
    scriptBound (p :: ps) = phaseBound p + scriptBound ps := rfl

@[simp] theorem scriptBound_append (ps qs : List Phase) : scriptBound (ps ++ qs) = scriptBound ps + scriptBound qs := by
  simp [scriptBound]

@[simp] theorem scriptBound_encodeBitPhases (b : Bool) : scriptBound (encodeBitPhases b) = cellTicks := by
  cases b <;> rfl

@[simp] theorem scriptBound_sendBits (bits : List Bool) : scriptBound (sendBits bits) = bits.length * cellTicks := by
  induction bits with
  | nil => exact (Nat.zero_mul _).symm
  | cons b bits ih =>
    have hcons : sendBits (b :: bits) = .sub :: encodeBitPhases b ++ sendBits bits := rfl
    simp [hcons, ih, phaseBound, Nat.succ_mul, Nat.add_comm]

@[simp] theorem scriptBound_encodeFramePhases (wd : Half) (n : Nat) :
    scriptBound (encodeFramePhases wd n) = (n + 2) * cellTicks := by
  rw [encodeFramePhases, scriptBound_sendBits, frameBits_length]

@[simp] theorem scriptBound_dataPhases (n : Nat) : scriptBound (dataPhases n) = n * (2 * Config.maxWait) := by
  induction n with
  | zero => exact (Nat.zero_mul _).symm
  | succ n ih =>
    simp only [dataPhases_succ, scriptBound_cons, ih, phaseBound, Nat.succ_mul]
    omega

@[simp] theorem scriptBound_decodeFramePhases (n : Nat) :
    scriptBound (decodeFramePhases n) = (n + 2) * (2 * Config.maxWait) := by
  simp only [decodeFramePhases_eq, scriptBound_cons, scriptBound_append, scriptBound_nil, scriptBound_dataPhases,
    phaseBound, Nat.add_mul]
  omega

@[simp] theorem scriptBound_sendCommandPhases (c : Byte) : scriptBound (sendCommandPhases c) = commandTicks := by
  have hbits : (commandBits c).length = 9 := rfl
  simp [sendCommandPhases, attentionPhases, syncPhases, hbits, phaseBound, commandTicks, Nat.add_assoc]

@[simp] theorem scriptBound_turnaroundPhases (x : Bool) :
    scriptBound (turnaroundPhases x) = if x then Config.tTurn + Config.tPoll else Config.tTurn := by
  cases x <;> rfl

@[simp] theorem scriptBound_transactionPhases (op reg : BitVec 2) (addr : BitVec 4) (x : Bool) :
    scriptBound (transactionPhases op reg addr x) =
      commandTicks + if x then Config.tTurn + Config.tPoll else Config.tTurn := by
  simp [transactionPhases, phaseBound]

/-! ### Every operation ends (R168, R263) -/

/-- Every operation issues a script whose bound is the operation's row of R263. -/
theorem exec_issues_maxTicks (i : Instr) (h : i.wf = true) :
    ∃ phs v acc, (∀ s, exec i s = issue phs v acc s) ∧ scriptBound phs = i.maxTicks := by
  cases i with
  | lineRelease | lineLow | lineRead | wait n | encodeBit b | decodeBit | encodeFrame l wd | decodeFrame l | resetBus
  | attention | sync | sendCommand c | turnaround x | composeTalk reg addr | composeListen reg addr
  | composeFlush reg addr | talk reg addr | listen reg addr wd | flush reg addr =>
    refine ⟨_, _, _, fun _ => rfl, ?_⟩
    simp [Instr.maxTicks, phaseBound, decodeBitPhases, resetBusPhases, attentionPhases, syncPhases, frameLen,
      Nat.two_mul]
  | reservedOpc0 | reservedECmdop | reservedFCmdop => cases h

/-- Settles O48: an operation by the bound of its script, from its start tick on; a reserved encoding takes no time. -/
theorem everyOperationEndsInItsBound : Obligations.EveryOperationEndsInItsBound := by
  intro i s ⟨hi, hr, hh⟩
  cases hw : i.wf with
  | true =>
    obtain ⟨phs, v, acc, hexec, hbound⟩ := exec_issues_maxTicks i hw
    have hstarts := (hexec s).trans (issue_starts hr hi (hostBefore_mono hh (Nat.le_add_right _ _)))
    rw [← hbound] at hh ⊢
    obtain ⟨hidle, hstart, hend⟩ := runPhases_bounded (x := started s v acc) hh
    exact ⟨_, hstarts, hidle, fun _ => hstart, hend⟩
  | false =>
    have hexec : exec i s = .next s.flagIll := (exec_rejects i hw s).trans (reject_idle hr hi)
    exact ⟨_, hexec, hi, fun h => absurd h Bool.false_ne_true, by simp only [flagIll_tick]; omega⟩

end Sys2Proof.Machine
end

section
/-! PROOFS of the encoder's round trip (30_encoding.md). The encoded word satisfies the operation's own row of `Decodes`;
what the assembler accepts then decodes to the operation of its line. -/

namespace Sys2Proof.Machine

/-! ### Decoding what was encoded (R71, R75, R76) -/

/-- The encoder writes OPC, CMDOP and the operands where the operation's row has them. -/
theorem decodes_encode (i : Instr) : Decodes (encode i) i := by
  cases i with
  | encodeBit b | turnaround b => constructor <;> simp [encode, packImm, fields_pack]
  | sendCommand c => constructor <;> simp [encode, packImm, fields_pack, ← BitVec.setWidth_eq_extractLsb']
  | _ => constructor <;> simp only [encode, packImm, packBus, fields_pack]

/-- Settles O1: the encoded word is of the operation's row, and the decoder reads the row's operation off it. -/
theorem decodeOfEncodeIsIdentity : Obligations.DecodeOfEncodeIsIdentity :=
  fun i => (decodes_encode i).decode_eq

/-! ### The assembler's ranges (R81) -/

theorem assemble_eq_none {a : Asm} (h : a.wf = false) : assemble a = none := by
  simp [assemble, h]

theorem assemble_eq_some {a : Asm} (h : a.wf = true) : assemble a = some (encode a.toInstr) := by
  simp [assemble, h]

theorem targetInRange_iff (a r : Nat) : targetInRange a r = true ↔ a ≤ 15 ∧ r ≤ 3 := by
  simp only [targetInRange, Config.addrBits, Config.regselBits, Bool.and_eq_true, decide_eq_true_eq]
  omega

/-- A one-bit operand. -/
theorem bitInRange_iff (b : Nat) : decide (b < 2) = true ↔ b = 0 ∨ b = 1 := by
  rw [decide_eq_true_iff]
  omega

/-- The length of a frame (R72). -/
theorem lengthInRange_iff (n : Nat) : (decide (1 ≤ n) && decide (n ≤ Config.wordLenMax)) = true ↔ 1 ≤ n ∧ n ≤ 16 := by
  simp only [Bool.and_eq_true, decide_eq_true_eq]
  rfl

/-- Settles O6: the word of a line in range is an encoded operation; the ranges are those of `Asm.wf`. -/
theorem assemblerChecksRanges : Obligations.AssemblerChecksRanges := by
  refine ⟨fun a => assemble_eq_none, fun a h => ⟨_, assemble_eq_some h, decodeOfEncodeIsIdentity _⟩,
    fun n => decide_eq_true_iff, bitInRange_iff, fun wd n => ?_, lengthInRange_iff, fun c => decide_eq_true_iff,
    bitInRange_iff, fun op => targetInRange_iff, targetInRange_iff, fun a r wd => ?_, targetInRange_iff⟩
  · rw [Asm.wf, Bool.and_eq_true, decide_eq_true_iff, lengthInRange_iff]
  · rw [Asm.wf, Bool.and_eq_true, decide_eq_true_iff, targetInRange_iff, and_assoc]

end Sys2Proof.Machine
end

section
/-! PROOFS of the invariant. It holds at reset; a step that performs an event of the world keeps it by what the event does
(`Acts`), and one that lets time pass or runs an operation by the lemmas of Laws/Invariant. -/

namespace Sys2Proof.Machine

/-! ### At reset (R39) -/

/-- Settles O57: nothing was driven, read or flagged yet, and no operation runs. -/
theorem resetHasInvariant : Obligations.ResetHasInvariant where
  traceHeld _ _ := rfl
  phaseBegun := Nat.le_refl _
  epochPast := Nat.le_refl _
  okNoError := nofun
  bitTimeout := ⟨nofun, nofun⟩
  oneOk := nofun
  noBusReset _ := rfl
  busResetSeen := nofun
  busResetPast := nofun
  phaseRuns := nofun
  flagged h := h.elim nofun nofun
  resetHeld := nofun
  readsPast := nofun
  readsShowTick := nofun
  edgesFirst _ := fun ⟨_, hr, _⟩ => nomatch hr

/-! ### An event of the world -/

/-- The event that comes next is due. -/
theorem nextEvent_mem {s : State} {ev : HostEvent} {rest : List HostEvent} (h : s.nextEvent = some (ev, rest)) :
    ev ∈ s.dueEvents := by
  obtain ⟨before, after, hhost, -, hdue, hbefore, -⟩ := nextEvent_some h
  rw [State.dueEvents, hhost, List.takeWhile_append_of_pos fun e he => by simpa using hbefore e he]
  simp [hdue]

/-- If an edge of the reset input comes next out of reset, nothing was read at the present tick (R20, R250). -/
theorem Inv_notRead {s : State} (h : s.Inv) {ev : HostEvent} {rest : List HostEvent}
    (hn : s.nextEvent = some (ev, rest)) (he : ev.event.isEdge = true) (hr : s.inReset = false) :
    ∀ r ∈ s.reads, r.tick ≠ s.tick := by
  intro r hmem htick
  have hedge := h.edgesFirst hr ⟨r, hmem, htick⟩ ev (nextEvent_mem hn)
  simp [he] at hedge

/-- A STATUS write clears flags, and sets none. -/
theorem Inv_clearFlags {s : State} (h : s.Inv) (v : Word) : (s.clearFlags v).Inv := by
  refine Inv_withFlags h (fun hset => h.flagged ?_) (fun hr => ?_)
  · simp only [Bool.and_eq_true] at hset
    exact hset.imp And.left And.left
  · obtain ⟨-, -, -, -, -, -, hovr, hill, -⟩ := h.resetHeld hr
    simp [hovr, hill]

/-- OVR is flagged while an operation runs, so out of reset (R233). -/
theorem Inv_flagOvr {s : State} (h : s.Inv) (hb : s.busy = true) : s.flagOvr.Inv := by
  refine Inv_withFlags h (fun _ => List.cons_ne_nil _ _) (fun hr => ?_)
  simp [State.busy, (h.resetHeld hr).1] at hb

/-- The invariant says of OPWORD only what it is in reset. -/
theorem Inv_latchWord {s : State} (h : s.Inv) (hr : s.inReset = false) (w : Word) : (s.latchWord w).Inv := by
  refine { h with phaseRuns := fun x hx => ?_, resetHeld := fun h2 => by simp [hr] at h2 }
  obtain ⟨p, ps, htodo, hbegin, hend⟩ := h.phaseRuns x hx
  have hb : beginPhase p x (s.latchWord w) = (beginPhase p x s).latchWord w := by cases p <;> rfl
  have he : phaseEnd p x (s.latchWord w) = phaseEnd p x s := by cases p <;> rfl
  exact ⟨p, ps, htodo, by rw [hb, hbegin], by rw [he]; exact hend⟩

/-- What the event that comes next does keeps the invariant. -/
theorem Inv_acts {s t : State} {ev : HostEvent} {rest : List HostEvent} (h : s.Inv)
    (hn : s.nextEvent = some (ev, rest)) (ha : Acts { s with host := rest } ev.event t) : t.Inv := by
  have hleft := nextEvent_left hn
  have hrest : State.Inv { s with host := rest } := Inv_withHost h hleft
  generalize he : ev.event = e at ha
  cases ha with
  | reset => exact Inv_blockReset hrest fun hr => Inv_notRead (s := s) h hn (by rw [he]; rfl) hr
  | release => exact Inv_releaseReset hrest
  | read off =>
    exact Inv_answerRead hrest off fun hr e' he' => nextEvent_access hn (by rw [he]; rfl) hr e' (hleft e' he')
  | clear v => exact Inv_clearFlags hrest v
  | overlap v hb => exact Inv_flagOvr hrest hb
  | ignored => exact hrest

/-! ### A step -/

/-- Settles O58, by what the step does: time passes, or the event that comes next acts or issues its word. -/
theorem stepKeepsInvariant : Obligations.StepKeepsInvariant := by
  intro s t h hs
  cases hn : s.nextEvent with
  | none =>
    have hnotDue : ∀ ev rest, s.host = ev :: rest → s.tick < ev.tick := by
      intro ev rest hh
      by_contra hle
      obtain ⟨ev', rest', hsome⟩ := nextEvent_due hh (Nat.not_lt.1 hle)
      simp [hn] at hsome
    obtain rfl := Host.Outcome.next.inj ((step_notDue hnotDue).symm.trans hs)
    exact Inv_passTime h hnotDue
  | some r =>
    obtain ⟨ev, rest⟩ := r
    rcases perform_cases ev.event { s with host := rest } with ⟨q, hp⟩ | ⟨u, hp, ha⟩ | ⟨w, -, hr, -, hp⟩
    · simp [step, fetch_due hn, hp] at hs
    · obtain rfl := Host.Outcome.next.inj ((step_of_perform hn hp).symm.trans hs)
      exact Inv_acts h hn ha
    · simp only [step, fetch_due hn, hp] at hs
      exact Inv_exec (Inv_latchWord (Inv_withHost h (nextEvent_left hn)) hr w) hs

end Sys2Proof.Machine
end
